-- ==== Sys2Proof/Word.lean ====
section
/-! DEFINITION. The two widths of the LLT block: the octet and the 16-bit value (spec/00_scope.md R11). -/

namespace Sys2Proof

/-- An octet, "an 8-bit unsigned value 0..255" (R11). -/
abbrev Octet := BitVec 8

/-- A 16-bit value: the accumulator, the native length (R11, R20). -/
abbrev Word16 := BitVec 16

end Sys2Proof
end

