-- ==== Sys2Proof/Config.lean ====
section
/-! DEFINITION. The parameters of the block (spec/00_scope.md R9), the environment's turns, and the free values. -/

namespace Sys2Proof

/-- How CRC step 2 widens the octet (40_crc.md R115, R116). `sign` is this hardware's value. -/
inductive CrcExt where
  | sign
  | zero
  deriving DecidableEq, Repr, Inhabited

/-- The parameters: every value of R9 is a field (R10), but for `MODE`, which is state (10_state.md R32; assumption
log 1). -/
structure Config where
  /-- `N`, the width in bits of the values the CRC is computed in. -/
  crcWidth : Nat
  /-- `CRC_SEED`. -/
  crcSeed : Word16
  /-- `CRC_EXT`. -/
  crcExt : CrcExt
  /-- `END`, the frame terminator (30_encoding.md R80). -/
  endOctet : Octet
  /-- `ESC`, the escape marker (30_encoding.md R80). -/
  escOctet : Octet
  /-- `MTU`, at most 65535. -/
  mtu : Nat
  /-- `RXBUF_CAP`. -/
  rxbufCap : Nat
  /-- `T_OCTET`, in microseconds. -/
  tOctet : Nat
  /-- `T_READ`, in microseconds. -/
  tRead : Nat
  /-- `T_SENSE`, in microseconds. -/
  tSense : Nat
  /-- `SENSE_READY`: the level of the sense line that means "ready". -/
  senseReady : Bool
  /-- `NAT_WAIT_LIMIT`: `none` is "unbounded". -/
  natWaitLimit : Option Nat
  /-- `RETRY_MAX`. -/
  retryMax : Nat
  /-- `BACKOFF_RAND_MAX`, in microseconds. -/
  backoffRandMax : Nat
  /-- `BACKOFF_FIXED`, in microseconds. -/
  backoffFixed : Nat
  deriving DecidableEq, Repr

/-- The largest MTU the two-octet length prefix can carry (R9). -/
abbrev Config.MTU_MAX : Nat := 65535

/-- The default MTU (R9 "e.g. 2048 bytes"). -/
abbrev Config.MTU_DEFAULT : Nat := 2048

/-- The size of NBUF, max(MTU, 2) (20_memory.md R50, C10). -/
abbrev Config.nbufCap (c : Config) : Nat := max c.mtu 2

/-- What R9 says of its values among themselves: the bound of MTU, `RXBUF_CAP = MTU + 2` (D4),
`BACKOFF_FIXED = 2 x T_OCTET`; and END and ESC are two octets (30_encoding.md R80). -/
abbrev Config.ok (c : Config) : Prop :=
  c.mtu ≤ Config.MTU_MAX ∧ c.rxbufCap = c.mtu + 2 ∧ c.backoffFixed = 2 * c.tOctet ∧ c.endOctet ≠ c.escOctet

/-- The values of R9 that the source fixes. -/
abbrev Config.fromSource (c : Config) : Prop :=
  c.crcWidth = 16 ∧ c.crcSeed = 0xFFFF ∧ c.crcExt = .sign ∧ c.endOctet = 0xFF ∧ c.escOctet = 0xFE ∧
    c.retryMax = 3 ∧ c.backoffRandMax = 4095

/-- One turn of the environment: what happens on the channels while one transaction of the block is under
way, and how that transaction comes out (R7, R14; assumption log 6). The quiet turn is the one with every
field at its default: nothing arrives and the transaction goes through whole. -/
structure Turn where
  /-- octets that arrive at the tail of SQ before the transaction returns -/
  rx : List Octet := []
  /-- frames that become readable at the network interface before the transaction returns -/
  net : List (List Octet) := []
  /-- edges on the sense line before the transaction returns; each inverts the level -/
  flips : Nat := 0
  /-- the transaction's outcome is `Fail`, where the constraint of R14 leaves that open -/
  fail : Bool := false
  /-- `none`: all that was asked for; `some k`: at most k octets accepted or read (a failing read loses k) -/
  short : Option Nat := none
  /-- the draw of `Rand12`, taken modulo BACKOFF_RAND_MAX + 1 -/
  rand : Nat := 0
  /-- native mode, both sides ready: serve the serial side (44_bridge_host.md R224) -/
  serFirst : Bool := false
  /-- the host puts a command on the port while the operation is in progress (30_encoding.md R97) -/
  intrude : Bool := false
  /-- the reset input comes while the transaction is under way (70_reset_and_hazards.md R281) -/
  reset : Bool := false
  deriving DecidableEq, Repr, Inhabited

/-- FREE VALUE: the environment's turns after the script of the state is used up. No body: nothing can be
proved of any of them (assumption log 7). -/
opaque Config.freeTurn : Nat → Turn

/-- FREE VALUE: `SENSE_READY` after reset, OPEN in R9 (assumption log 2). -/
opaque Config.openSenseReady : Bool

/-- FREE VALUE: `T_OCTET` after reset, OPEN in R9 (assumption log 2). -/
opaque Config.openTOctet : Nat

/-- FREE VALUE: `T_READ` after reset, OPEN in R9 (assumption log 2). -/
opaque Config.openTRead : Nat

/-- The parameters the machine has at reset: R9's values and defaults, and free values where R9 gives neither. -/
def Config.atReset : Config where
  crcWidth := 16
  crcSeed := 0xFFFF
  crcExt := .sign
  endOctet := 0xFF
  escOctet := 0xFE
  mtu := Config.MTU_DEFAULT
  rxbufCap := Config.MTU_DEFAULT + 2
  tOctet := Config.openTOctet
  tRead := Config.openTRead
  tSense := 500000
  senseReady := Config.openSenseReady
  natWaitLimit := none
  retryMax := 3
  backoffRandMax := 4095
  backoffFixed := 2 * Config.openTOctet

end Sys2Proof
end

