-- ==== Sys2Proof/Machine/Bits.lean ====
section
/-! DEFINITION. Halves and concatenation of 16-bit values, swap and widening at the CRC's width (spec/00_scope.md
R11, R12). -/

namespace Sys2Proof

/-- `hi(v) = v[15:8]` (R11). -/
def hi (v : Word16) : Octet := v.extractLsb' 8 8

/-- `lo(v) = v[7:0]` (R11). -/
def lo (v : Word16) : Octet := v.extractLsb' 0 8

/-- `{h, l} = h * 256 + l` (R11). -/
def cat (h l : Octet) : Word16 := h ++ l

/-- `swap(v)`: on a 16-bit value `{lo(v), hi(v)}` (R12), by the shifts by 8 of 40_crc.md R117. The width is the
parameter `N`. -/
def swap {n : Nat} (v : BitVec n) : BitVec n := (v <<< 8) ||| (v >>> 8)

/-- `sext_16` at N = 16: the bits from 8 on are all copies of bit 7 (R12, 90_conflicts.md C2). -/
def sextN (n : Nat) (o : Octet) : BitVec n := o.signExtend n

/-- `zext_16(o) = o` at N = 16 (R12). -/
def zextN (n : Nat) (o : Octet) : BitVec n := o.setWidth n

end Sys2Proof
end

