-- ==== Sys2Proof/Machine/Crc.lean ====
section
/-! DEFINITION. The CRC16 unit's pure functions (spec/40_crc.md), at the width `N` of 00_scope.md R9: `n` below. The
rules are written for N = 16; what another N gives is the same steps at that width (assumption log 1). -/

namespace Sys2Proof

/-- `ext_16` at N = 16 (R111, R116). -/
def extN (n : Nat) : CrcExt → Octet → BitVec n
  | .sign, o => sextN n o
  | .zero, o => zextN n o

/-- `G`: steps 3 to 5 of R111, each computed from the changed accumulator; a left shift is truncated to the width. -/
def crcMix {n : Nat} (a2 : BitVec n) : BitVec n :=
  let a3 := a2 ^^^ ((a2 &&& 0x00FF#n) >>> 4)
  let a4 := a3 ^^^ (a3 <<< 12)
  a4 ^^^ ((a4 &&& 0x00FF#n) <<< 5)

/-- `crc_update(a, o)` (R111). -/
def crcUpdate {n : Nat} (e : CrcExt) (a : BitVec n) (o : Octet) : BitVec n := crcMix (swap a ^^^ extN n e o)

/-- What ACC holds after seeding: the `N` low bits of `CRC_SEED` (R112). -/
def accSeed (c : Config) : Word16 := (c.crcSeed.setWidth c.crcWidth).setWidth 16

/-- What ACC holds after an update: `crc_update` of its `N` low bits (R113). -/
def accUpdate (c : Config) (a : Word16) (o : Octet) : Word16 :=
  (crcUpdate c.crcExt (a.setWidth c.crcWidth) o).setWidth 16

/-- `crc_fold(s)` (R114). -/
def crcFold (c : Config) (s : List Octet) : Word16 := s.foldl (accUpdate c) (accSeed c)

end Sys2Proof
end

