-- ==== Sys2Proof/Syntax.lean ====
section
/-! DEFINITION. The instructions: one constructor for each row of spec/opcode_table.json, and the names their
encodings are told apart by. -/

namespace Sys2Proof

/-- The Transport Mode (spec/10_state.md R32). -/
inductive Mode where
  | emulated
  | native
  deriving DecidableEq, Repr, Inhabited

/-- The decoder's sequencing register DSTATE (10_state.md R26); it selects how an octet is classified
(30_encoding.md R86). -/
inductive DState where
  | idle
  | awaitOctet
  | escaped
  | done
  | failed
  deriving DecidableEq, Repr, Inhabited

/-- The formats of opcode_table.json. `cmd4` words come from the host's command port; words of the other
formats are internal steps of the operations (30_encoding.md R96). -/
inductive Format where
  | cmd4
  | sym8
  | stuff
  | eframe
  | len16
  | nframe
  deriving DecidableEq, Repr, Inhabited

/-- The instructions. A payload `p` stands for the pair of operands `p` and `n`: `n` is the length of `p`
(10_state.md R28). -/
inductive Instr where
  /-- CRC.INIT (40_crc.md R112) -/
  | crcInit
  /-- CRC.UPDATE o (40_crc.md R113) -/
  | crcUpdate (o : Octet)
  /-- FLUSH (41_octet_transport.md R137) -/
  | flush
  /-- TX.RAW o (41_octet_transport.md R132) -/
  | txRaw (o : Octet)
  /-- RX.RAW (41_octet_transport.md R135) -/
  | rxRaw
  /-- ENC.OCTET b (42_emulated_codec.md R152) -/
  | encOctet (b : Octet)
  /-- ENC.FRAME p, n (42_emulated_codec.md R156) -/
  | encFrame (p : List Octet)
  /-- DEC.FRAME (42_emulated_codec.md R162) -/
  | decFrame
  /-- RD.BYTES k (43_native_transport.md R192) -/
  | rdBytes (k : Word16)
  /-- NAT.RX (43_native_transport.md R196) -/
  | natRx
  /-- NAT.TX p, n (43_native_transport.md R202) -/
  | natTx (p : List Octet)
  /-- SENSE.POLL (43_native_transport.md R200) -/
  | sensePoll
  /-- TAP2TTY p, n (44_bridge_host.md R226) -/
  | tap2tty (p : List Octet)
  /-- BRG.STEP (44_bridge_host.md R223) -/
  | brgStep
  /-- MODE.SET m (44_bridge_host.md R221) -/
  | modeSet (m : Mode)
  /-- SYM.END (42_emulated_codec.md R166) -/
  | symEnd
  /-- SYM.ESC (42_emulated_codec.md R165) -/
  | symEsc
  /-- SYM.DATA o, o in 0x00..0xFD (42_emulated_codec.md R164) -/
  | symData (o : Octet)
  /-- SYM.LIT o, any o (42_emulated_codec.md R167) -/
  | symLit (o : Octet)
  /-- STUFF.PLAIN b, b in 0x00..0xFD (30_encoding.md R81) -/
  | stuffPlain (b : Octet)
  /-- STUFF.ESCAPED b, b is 0xFE or 0xFF (30_encoding.md R81) -/
  | stuffEscaped (b : Octet)
  /-- EFRAME: the whole emulated frame of payload p (30_encoding.md R82) -/
  | eframe (p : List Octet)
  /-- NFRAME: the whole native frame of payload p (30_encoding.md R92) -/
  | nframe (p : List Octet)
  /-- NAT.LEN.OK: a prefix announcing n <= MTU (30_encoding.md R94) -/
  | natLenOk (n : Word16)
  /-- NAT.LEN.OVER: a prefix announcing n > MTU (30_encoding.md R94) -/
  | natLenOver (n : Word16)
  deriving DecidableEq, Repr

end Sys2Proof
end

