-- ==== Sys2Proof/Machine/Flags.lean ====
section
/-! DEFINITION. The one-bit tests of the block: the escaping test, the echo comparator, the escape flag, the
decoder's acceptance test and the prefix class test. -/

namespace Sys2Proof

/-- The escaping test, `b == END or b == ESC` (spec/42_emulated_codec.md R151). -/
def needsEsc (c : Config) (b : Octet) : Bool := b == c.endOctet || b == c.escOctet

/-- The echo comparator ECC: `ecc(w, e) = (w != e)` (41_octet_transport.md R131). -/
def ecc (w e : Octet) : Bool := w != e

/-- `ESCF = 1` exactly when `DSTATE == Escaped` (10_state.md R25). -/
def escfOf (d : DState) : Bool := d == .escaped

/-- The test at END: at least two octets stored and the residue zero (42_emulated_codec.md R166). -/
def acceptsAtEnd (rxcnt : Nat) (acc : Word16) : Bool := decide (2 ≤ rxcnt) && acc == 0

/-- The prefix class `NAT.LEN.OK`: `LEN <= MTU` (30_encoding.md R94). -/
def lenOk (mtu : Nat) (len : Word16) : Bool := decide (len.toNat ≤ mtu)

end Sys2Proof
end

