-- ==== Sys2Proof/Machine/Operands.lean ====
section
/-! DEFINITION. Operand assembly: stuffed octets, the trailer, the length prefix and the two wire frames
(spec/30_encoding.md R81, R82, R85, R92, R93). -/

namespace Sys2Proof

/-- The stuffed form of one octet (R81). -/
def stuff (c : Config) (b : Octet) : List Octet := if needsEsc c b then [c.escOctet, b] else [b]

/-- The trailer, high octet first (20_memory.md R52, 30_encoding.md R85). -/
def trailer (c : Word16) : List Octet := [hi c, lo c]

/-- The octets before END of the emulated frame of `p` whose CRC is `c`, unstuffed. -/
def frameOctets (p : List Octet) (c : Word16) : List Octet := p ++ trailer c

/-- The emulated frame of payload `p` on the wire (R82). -/
def eframeWire (c : Config) (p : List Octet) : List Octet :=
  (frameOctets p (crcFold c p)).flatMap (stuff c) ++ [c.endOctet]

/-- The two octets of a 16-bit operand or length prefix, high octet first (R93). -/
def pair (v : Word16) : List Octet := [hi v, lo v]

/-- The length operand `n` of a payload (R93). -/
def lenOf (p : List Octet) : Word16 := BitVec.ofNat 16 p.length

/-- The native frame of payload `p` on the wire (R92). -/
def nframeWire (p : List Octet) : List Octet := pair (lenOf p) ++ p

end Sys2Proof
end

