-- ==== Sys2Proof/WellFormed.lean ====
section
/-! DEFINITION. Which instructions exist as rows: the ranges opcode_table.json gives their operands. -/

namespace Sys2Proof

/-- A payload's length is a 16-bit operand (spec/opcode_table.json "operand port, 16 bits"). -/
def payloadFits (p : List Octet) : Bool := decide (p.length < 65536)

/-- The operand ranges of the table: a payload length of 16 bits; SYM.DATA and STUFF.PLAIN take the octets
that need no escape, STUFF.ESCAPED those that do (30_encoding.md R81, R86). Every other operand is bounded by
its width. The bound `n <= MTU` is a parameter's and is tested when the operation is issued (R97). -/
def WellFormed (c : Config) : Instr → Bool
  | .crcInit => true
  | .crcUpdate _ => true
  | .flush => true
  | .txRaw _ => true
  | .rxRaw => true
  | .encOctet _ => true
  | .encFrame p => payloadFits p
  | .decFrame => true
  | .rdBytes _ => true
  | .natRx => true
  | .natTx p => payloadFits p
  | .sensePoll => true
  | .tap2tty p => payloadFits p
  | .brgStep => true
  | .modeSet _ => true
  | .symEnd => true
  | .symEsc => true
  | .symData o => !needsEsc c o
  | .symLit _ => true
  | .stuffPlain b => !needsEsc c b
  | .stuffEscaped b => needsEsc c b
  | .eframe p => payloadFits p
  | .nframe p => payloadFits p
  | .natLenOk _ => true
  | .natLenOver _ => true

end Sys2Proof
end

