-- ==== Sys2Proof/Decode.lean ====
section
/-! DEFINITION. The decoder of each format of spec/30_encoding.md, total on any octets, and the encoder. -/

namespace Sys2Proof

/-- What a word's meaning depends on beside its octets: DSTATE for SYM8 (R86), and the parameters: MTU for LEN16
(R94), END and ESC for SYM8, STUFF and EFRAME (R80), the CRC's for EFRAME (R82). -/
structure DecodeCtx where
  dstate : DState
  cfg : Config
  deriving DecidableEq, Repr

/-- Why a word is no instruction. -/
inductive DecodeErr where
  /-- no octet at all -/
  | empty
  /-- command code 0x0, reserved (R97) -/
  | reservedCode
  /-- the first octet is no 4-bit command code -/
  | noCode
  /-- an operand octet is missing -/
  | noOperand
  /-- fewer payload octets than the length operand says -/
  | shortPayload
  /-- DSTATE is Idle, Done or Failed: the decoder reads no octets (R86) -/
  | notDecoding
  /-- no stuffed form of one octet (R81) -/
  | notStuffed
  /-- no emulated frame (R82) -/
  | notEFrame
  /-- no native frame (R92) -/
  | notNFrame
  /-- more or fewer octets than the format has -/
  | badLength
  deriving DecidableEq, Repr

/-- An operation with an octet operand. -/
def octetOperand (f : Octet → Instr) : List Octet → Except DecodeErr Instr
  | [] => .error .noOperand
  | o :: _ => .ok (f o)

/-- An operation with a 16-bit operand, high octet first (assumption log 12). -/
def wordOperand (f : Word16 → Instr) : List Octet → Except DecodeErr Instr
  | h :: l :: _ => .ok (f (cat h l))
  | _ => .error .noOperand

/-- An operation with a payload: its length, then its octets. -/
def payloadOperand (f : List Octet → Instr) : List Octet → Except DecodeErr Instr
  | h :: l :: ps =>
    if ps.length < (cat h l).toNat then .error .shortPayload else .ok (f (ps.take (cat h l).toNat))
  | _ => .error .noOperand

/-- The mode operand, one bit: 0 Emulated, 1 Native (assumption log 12). -/
def modeOfBit (b : Bool) : Mode := if b then .native else .emulated

/-- The command port (R96): the code `cmd[3:0]` in the low half of the first octet, then the operand ports.
What stands on a port the operation does not use is not looked at. -/
def decodeCmd4 : List Octet → Except DecodeErr Instr
  | [] => .error .empty
  | c :: ops =>
    match c.toNat with
    | 0x0 => .error .reservedCode
    | 0x1 => .ok .crcInit
    | 0x2 => octetOperand .crcUpdate ops
    | 0x3 => .ok .flush
    | 0x4 => octetOperand .txRaw ops
    | 0x5 => .ok .rxRaw
    | 0x6 => octetOperand .encOctet ops
    | 0x7 => payloadOperand .encFrame ops
    | 0x8 => .ok .decFrame
    | 0x9 => wordOperand .rdBytes ops
    | 0xA => .ok .natRx
    | 0xB => payloadOperand .natTx ops
    | 0xC => .ok .sensePoll
    | 0xD => payloadOperand .tap2tty ops
    | 0xE => .ok .brgStep
    | 0xF => octetOperand (fun o => .modeSet (modeOfBit (o.getLsbD 0))) ops
    | _ => .error .noCode

/-- The decoder's classification of a received octet (R86). -/
def classify (c : Config) (d : DState) (o : Octet) : Except DecodeErr Instr :=
  match d with
  | .awaitOctet =>
    if o = c.escOctet then .ok .symEsc
    else if o = c.endOctet then .ok .symEnd
    else .ok (.symData o)
  | .escaped => .ok (.symLit o)
  | .idle => .error .notDecoding
  | .done => .error .notDecoding
  | .failed => .error .notDecoding

/-- Format SYM8: one octet. -/
def decodeSym8 (c : Config) (d : DState) : List Octet → Except DecodeErr Instr
  | [o] => classify c d o
  | _ => .error .badLength

/-- Format STUFF (R81): `b`, or ESC and an octet that needs it. -/
def decodeStuff (c : Config) : List Octet → Except DecodeErr Instr
  | [b] => if needsEsc c b then .error .notStuffed else .ok (.stuffPlain b)
  | [x, b] => if x = c.escOctet ∧ needsEsc c b then .ok (.stuffEscaped b) else .error .notStuffed
  | _ => .error .badLength

/-- Format LEN16: the class of a length prefix (R94). -/
def classifyLen (mtu : Nat) (n : Word16) : Instr := if lenOk mtu n then .natLenOk n else .natLenOver n

/-- Format LEN16: the two prefix octets, high first (R93). -/
def decodeLen16 (mtu : Nat) : List Octet → Except DecodeErr Instr
  | [h, l] => .ok (classifyLen mtu (cat h l))
  | _ => .error .badLength

/-- The octets a stuffed sequence stands for; `none` where it ends in a lone ESC or holds an unescaped END. -/
def unstuff (c : Config) : List Octet → Option (List Octet)
  | [] => some []
  | x :: xs =>
    if x = c.escOctet then
      match xs with
      | [] => none
      | y :: ys => (unstuff c ys).map (y :: ·)
    else if x = c.endOctet then none
    else (unstuff c xs).map (x :: ·)

/-- The payload a candidate frame carries: all but the last two of the octets its body stands for. -/
def frameBody (c : Config) (w : List Octet) : Option (List Octet) :=
  (unstuff c w.dropLast).map fun os => os.take (os.length - 2)

/-- Format EFRAME (R82): the word is the frame of some payload. -/
def decodeEFrame (c : Config) (w : List Octet) : Except DecodeErr Instr :=
  match frameBody c w with
  | none => .error .notEFrame
  | some p => if payloadFits p ∧ eframeWire c p = w then .ok (.eframe p) else .error .notEFrame

/-- Format NFRAME (R92): the prefix and exactly that many octets. -/
def decodeNFrame : List Octet → Except DecodeErr Instr
  | h :: l :: p => if p.length = (cat h l).toNat then .ok (.nframe p) else .error .notNFrame
  | _ => .error .notNFrame

/-- The decoder: every word of every format is one instruction or an error with a name. -/
def decode (c : DecodeCtx) (f : Format) (w : List Octet) : Except DecodeErr Instr :=
  match f with
  | .cmd4 => decodeCmd4 w
  | .sym8 => decodeSym8 c.cfg c.dstate w
  | .stuff => decodeStuff c.cfg w
  | .eframe => decodeEFrame c.cfg w
  | .len16 => decodeLen16 c.cfg.mtu w
  | .nframe => decodeNFrame w

/-- The format of an instruction's row. -/
def formatOf : Instr → Format
  | .crcInit => .cmd4
  | .crcUpdate _ => .cmd4
  | .flush => .cmd4
  | .txRaw _ => .cmd4
  | .rxRaw => .cmd4
  | .encOctet _ => .cmd4
  | .encFrame _ => .cmd4
  | .decFrame => .cmd4
  | .rdBytes _ => .cmd4
  | .natRx => .cmd4
  | .natTx _ => .cmd4
  | .sensePoll => .cmd4
  | .tap2tty _ => .cmd4
  | .brgStep => .cmd4
  | .modeSet _ => .cmd4
  | .symEnd => .sym8
  | .symEsc => .sym8
  | .symData _ => .sym8
  | .symLit _ => .sym8
  | .stuffPlain _ => .stuff
  | .stuffEscaped _ => .stuff
  | .eframe _ => .eframe
  | .nframe _ => .nframe
  | .natLenOk _ => .len16
  | .natLenOver _ => .len16

/-- The mode operand's port octet. -/
def modeOctet : Mode → Octet
  | .emulated => 0
  | .native => 1

/-- The words of an instruction (R81, R82, R86, R92, R93, R96). -/
def encode (c : Config) : Instr → List Octet
  | .crcInit => [0x1]
  | .crcUpdate o => [0x2, o]
  | .flush => [0x3]
  | .txRaw o => [0x4, o]
  | .rxRaw => [0x5]
  | .encOctet b => [0x6, b]
  | .encFrame p => 0x7 :: (pair (lenOf p) ++ p)
  | .decFrame => [0x8]
  | .rdBytes k => 0x9 :: pair k
  | .natRx => [0xA]
  | .natTx p => 0xB :: (pair (lenOf p) ++ p)
  | .sensePoll => [0xC]
  | .tap2tty p => 0xD :: (pair (lenOf p) ++ p)
  | .brgStep => [0xE]
  | .modeSet m => [0xF, modeOctet m]
  | .symEnd => [c.endOctet]
  | .symEsc => [c.escOctet]
  | .symData o => [o]
  | .symLit o => [o]
  | .stuffPlain b => [b]
  | .stuffEscaped b => [c.escOctet, b]
  | .eframe p => eframeWire c p
  | .nframe p => nframeWire p
  | .natLenOk n => pair n
  | .natLenOver n => pair n

/-- The context in which an instruction's word stands for it: a symbol needs the DSTATE that selects it
(R86), a prefix class the comparison with MTU (R94). -/
def readsAs (c : DecodeCtx) : Instr → Bool
  | .symEnd => c.dstate == .awaitOctet
  | .symEsc => c.dstate == .awaitOctet
  | .symData _ => c.dstate == .awaitOctet
  | .symLit _ => c.dstate == .escaped
  | .eframe _ => true
  | .natLenOk n => lenOk c.cfg.mtu n
  | .natLenOver n => !lenOk c.cfg.mtu n
  | .crcInit => true
  | .crcUpdate _ => true
  | .flush => true
  | .txRaw _ => true
  | .rxRaw => true
  | .encOctet _ => true
  | .encFrame _ => true
  | .decFrame => true
  | .rdBytes _ => true
  | .natRx => true
  | .natTx _ => true
  | .sensePoll => true
  | .tap2tty _ => true
  | .brgStep => true
  | .modeSet _ => true
  | .stuffPlain _ => true
  | .stuffEscaped _ => true
  | .nframe _ => true

/-- The low `n` octets of a number, the most significant first. -/
def octetsOf : Nat → Nat → List Octet
  | 0, _ => []
  | n + 1, w => BitVec.ofNat 8 (w >>> (8 * n)) :: octetsOf n w

/-- The context a table word is read in: the parameters of reset, a decode in progress. -/
def tableCtx : DecodeCtx where
  dstate := .awaitOctet
  cfg := Config.atReset

/-- The format and octets of a table word of `nbits` bits (assumption log 16). Up to 8 bits: a command code with
zeros on the operand ports, or a received octet. Up to 16 bits: the STUFF row's two octets, or a length
prefix. Longer: a whole frame. Multi-octet rows stand with their first octet in the highest bits, as the
table numbers them. -/
def tableWord (nbits w : Nat) : Format × List Octet :=
  if nbits ≤ 8 then
    if 0 < w ∧ w < 16 then (.cmd4, [BitVec.ofNat 8 w, 0, 0, 0]) else (.sym8, octetsOf 1 w)
  else if nbits ≤ 16 then
    if w / 256 = tableCtx.cfg.escOctet.toNat ∧ needsEsc tableCtx.cfg (BitVec.ofNat 8 w) then (.stuff, octetsOf 2 w)
    else (.len16, octetsOf 2 w)
  else
    let os := octetsOf ((nbits + 7) / 8) w
    if os.getLast? = some tableCtx.cfg.endOctet then (.eframe, os) else (.nframe, os)

/-- The instruction the decoder reads from a table word. -/
def decodeTableWord (nbits w : Nat) : Option Instr :=
  match decode tableCtx (tableWord nbits w).1 (tableWord nbits w).2 with
  | .ok i => some i
  | .error _ => none

end Sys2Proof
end

