-- ==== Sys2Proof/Machine/State.lean ====
section
/-! DEFINITION. The state of the LLT block, of its host and of its environment (spec/10_state.md). -/

namespace Sys2Proof.Machine

/-- An octet buffer: the pairs (index, octet) that differ from what an unlisted index reads as, by rising index
(20_memory.md R50). -/
abbrev Memory := List Host.Cell

/-- What an index nothing has written reads as. DESIGN CHOICE, unsafe: the spec gives no contents
(10_state.md R40; assumption log 4). -/
abbrev Memory.blank : Octet := 0

/-- The canonical form: indices strictly rising, no entry equal to what an unlisted index reads as. -/
abbrev Memory.wf (m : Memory) : Prop :=
  m.Pairwise (fun a b => a.1 < b.1) ∧ ∀ c ∈ m, c.2 ≠ Memory.blank

/-- Every listed index lies below `cap`. -/
abbrev Memory.below (m : Memory) (cap : Nat) : Prop := ∀ c ∈ m, c.1 < cap

/-- Where the frame encoder is (10_state.md R29). -/
inductive TxPhase where
  | idle
  | drain
  | payload
  | crcHi
  | crcLo
  | term
  | done
  | failed
  deriving DecidableEq, Repr, Inhabited

/-- Where the native transport is (10_state.md R31). `lenPrefix` is the spec's `Prefix`. -/
inductive NState where
  | idle
  | lenPrefix
  | payload
  | senseWait
  | write
  | done
  | failed
  deriving DecidableEq, Repr, Inhabited

/-- The six errors (60_exceptions.md R240). -/
inductive Err where
  | busy
  | timeout
  | lineContention
  | frameCorrupt
  | bufferExceeded
  | ioError
  deriving DecidableEq, Repr, Inhabited

/-- The value of an `Ok` (30_encoding.md R96). -/
inductive Value where
  /-- the operation has none -/
  | unit
  /-- a number: an accumulator, an octet, a count or a length -/
  | num (n : Nat)
  /-- RD.BYTES: the k octets stand in NBUF -/
  | inNbuf (k : Nat)
  /-- NAT.RX delivered a frame of n octets -/
  | delivered (n : Nat)
  /-- NAT.RX gave up an oversize frame (60_exceptions.md R250) -/
  | discarded
  /-- TAP2TTY sent the frame -/
  | sent
  /-- TAP2TTY used up its attempts (60_exceptions.md R250) -/
  | dropped
  deriving DecidableEq, Repr, Inhabited

/-- `RESULT` (10_state.md R33). -/
inductive Result where
  | ok (v : Value)
  | err (e : Err)
  deriving DecidableEq, Repr, Inhabited

/-- How much a `SerWrite` had accepted (00_scope.md R14). -/
inductive WriteOut where
  | accepted (k : Nat)
  | fail
  deriving DecidableEq, Repr, Inhabited

/-- How a wait came out: what was waited for (`Ready`, `Woke`), `Expired`, `Fail` (R14). -/
inductive WaitOut where
  | ready
  | expired
  | fail
  deriving DecidableEq, Repr, Inhabited

/-- The direction a bridge-loop iteration serves (44_bridge_host.md R224). -/
inductive Side where
  | net
  | ser
  deriving DecidableEq, Repr, Inhabited

/-- What the ghost log keeps: each channel transaction with its outcome (00_scope.md R14), and the octets that arrive
at SQ (assumption log 19). -/
inductive Xact where
  /-- octets arrive at the tail of SQ, before the transaction logged next returns -/
  | arrive (os : List Octet)
  | serWrite (offered : List Octet) (out : WriteOut)
  | serWait (bound : Nat) (out : WaitOut)
  | serRead (m : Nat) (got : Option (List Octet))
  | serPending (k : Nat)
  | senseLevel (level : Option Bool)
  | senseWait (bound : Nat) (out : WaitOut)
  | netRead (frame : Option (List Octet))
  | netWrite (frame : List Octet) (ok : Bool)
  | anyReady (net ser : Bool)
  | anyReadyFail
  | rand12 (r : Nat)
  | sleep (micros : Nat)
  | logDropped
  deriving DecidableEq, Repr

/-- What an operation that is not over waits for: a wait without bound (70_reset_and_hazards.md R302, R303), or
the reset that abandons it (R281). -/
inductive Wait where
  /-- SENSE.POLL -/
  | sense
  /-- NAT.TX p, in its SENSE.POLL -/
  | natTx (p : List Octet)
  /-- BRG.STEP, in AnyReady -/
  | brgAny
  /-- BRG.STEP, in the SENSE.POLL of its NAT.TX p -/
  | brgTx (p : List Octet)
  /-- the reset input has come inside an operation, which goes no further; the next step is the reset (R281) -/
  | reset
  deriving DecidableEq, Repr

/-- What stands next for the block: a word for one of its units, the reset input, or the host's endless bridge
loop (44_bridge_host.md R229, 70_reset_and_hazards.md R281, R282). -/
inductive Issue where
  | word (f : Format) (w : List Octet)
  | reset
  | bridge
  deriving DecidableEq, Repr

/-- Why the machine stops. -/
inductive Fault where
  /-- Raised by `step` when BRG.STEP has returned Err(IOError) of the host's own channels: "the host stops
  issuing operations until reset" (44_bridge_host.md R229, 93_implementation_defined.md U19). Safe: real
  hardware may go on (D23). -/
  | hostStopped
  deriving DecidableEq, Repr

/-- Why a word has no meaning. -/
inductive Refusal where
  /-- Raised by an arm of `exec` that has no meaning yet. Safe. -/
  | notModelled (mnemonic : String)
  /-- Raised by `step` for a word of an internal format that is no word of that format (R86, R81, R82, R92,
  R93): there is no instruction to run. Safe: no operation of the block issues such a word. -/
  | noSuchWord (f : Format) (e : DecodeErr)
  deriving DecidableEq, Repr

/-- The state. INVENTORY.md lists each field with its rule and reset value. -/
structure State where
  /-- the parameters; never written (10_state.md R35; assumption log 1) -/
  cfg : Config
  /-- ACC (R21) -/
  acc : Word16
  /-- RXBUF (R23) -/
  rxbuf : Memory
  /-- RXCNT (R24) -/
  rxcnt : Nat
  /-- DSTATE (R26) -/
  dstate : DState
  /-- TXLAST (R27) -/
  txlast : Octet
  /-- TXPHASE (R29) -/
  txphase : TxPhase
  /-- TXIDX (R29) -/
  txidx : Nat
  /-- LEN (R30) -/
  len : Word16
  /-- NBUF (R30) -/
  nbuf : Memory
  /-- NCNT (R30) -/
  ncnt : Nat
  /-- NSTATE (R31) -/
  nstate : NState
  /-- MODE (R32) -/
  mode : Mode
  /-- MODE.SET has been issued since reset (30_encoding.md R97) -/
  modeSet : Bool
  /-- RESULT (R33) -/
  result : Result
  /-- ATTEMPT (R34) -/
  attempt : Nat
  /-- SQ, oldest octet first (R37) -/
  sq : List Octet
  /-- WIRE, a ghost (R38) -/
  wire : List Octet
  /-- SENSE (R38) -/
  sense : Bool
  /-- frames readable at the network interface, oldest first (60_exceptions.md R256) -/
  netIn : List (List Octet)
  /-- what stands next for the block (R6, R281, R282) -/
  issue : List Issue
  /-- the operation in progress, when its wait has no bound or the reset input has cut it (30_encoding.md R97, R281,
  R302) -/
  wait : Option Wait
  /-- the host has stopped (44_bridge_host.md R229) -/
  halted : Bool
  /-- MODEL'S OWN: the environment's next turns (assumption log 6) -/
  script : List Turn
  /-- MODEL'S OWN: how many free turns have been drawn (assumption log 7) -/
  tick : Nat
  /-- MODEL'S OWN: every channel transaction and arrival since reset, a ghost (assumption log 19) -/
  trace : List Xact
  deriving DecidableEq, Repr

/-- After reset (10_state.md R40, 70_reset_and_hazards.md R281). ACC, TXLAST, LEN and MODE have no value in the
spec: DESIGN CHOICE, unsafe (assumption log 3). SQ, SENSE and the network interface's queue are the
environment's: DESIGN CHOICE (assumption log 5). -/
def State.reset : State where
  cfg := Config.atReset
  acc := 0
  rxbuf := []
  rxcnt := 0
  dstate := .idle
  txlast := 0
  txphase := .idle
  txidx := 0
  len := 0
  nbuf := []
  ncnt := 0
  nstate := .idle
  mode := .emulated
  modeSet := false
  result := .ok (.num 0)
  attempt := 0
  sq := []
  wire := []
  sense := false
  netIn := []
  issue := []
  wait := none
  halted := false
  script := []
  tick := 0
  trace := []

end Sys2Proof.Machine
end

