-- ==== Sys2Proof/Machine/Ops.lean ====
section
/-! DEFINITION. The shared operations: buffers, the environment's turns, the channel primitives of
spec/00_scope.md R14, errors and their propagation (R15), refusal (30_encoding.md R97), reset. -/

namespace Sys2Proof.Machine

/-! ## Buffers (20_memory.md R50, R51) -/

/-- Read octet `a`. -/
def Memory.read : Memory → Nat → Octet
  | [], _ => Memory.blank
  | (k, v) :: m, a => if k = a then v else Memory.read m a

/-- Write octet `a`, keeping the canonical form. -/
def Memory.write : Memory → Nat → Octet → Memory
  | [], a, v => if v = Memory.blank then [] else [(a, v)]
  | (k, x) :: m, a, v =>
    if a < k then (if v = Memory.blank then (k, x) :: m else (a, v) :: (k, x) :: m)
    else if a = k then (if v = Memory.blank then m else (a, v) :: m)
    else (k, x) :: Memory.write m a v

/-- Write octets from `a` on. -/
def Memory.writeList : Memory → Nat → List Octet → Memory
  | m, _, [] => m
  | m, a, v :: vs => Memory.writeList (Memory.write m a v) (a + 1) vs

/-- Octets `0 .. n-1`. -/
def Memory.prefixOf (m : Memory) (n : Nat) : List Octet := (List.range n).map (Memory.read m)

/-! ## Errors, waiting and propagation (R15, R251, R252) -/

/-- The number of an error (60_exceptions.md R241, D24). -/
def Err.number : Err → Nat
  | .busy => 1
  | .timeout => 2
  | .lineContention => 3
  | .frameCorrupt => 4
  | .bufferExceeded => 5
  | .ioError => 6

/-- The number RESULT shows a host that needs one: 0 for Ok (R241). The model itself uses the names. -/
def Result.number : Result → Nat
  | .ok _ => 0
  | .err e => e.number

/-- How a piece of an operation ends: with a value, with an error, or in a wait that has not ended. -/
inductive Ret (α : Type) where
  | done (a : α) (s : State)
  | raised (e : Err) (s : State)
  | waiting (w : Wait) (s : State)

/-- `r <- OP; ...` (R15, R16): an error or an unfinished wait of OP ends what encloses it. -/
def Ret.bind {α β : Type} (r : Ret α) (f : α → State → Ret β) : Ret β :=
  match r with
  | .done a s => f a s
  | .raised e s => .raised e s
  | .waiting w s => .waiting w s

/-- The state a piece ends in. -/
def Ret.last {α : Type} (r : Ret α) : State :=
  match r with
  | .done _ s => s
  | .raised _ s => s
  | .waiting _ s => s

/-- A transaction in whose turn the reset input comes is the last of its operation: what it did on the channels
stays, and nothing more of the operation is done (70_reset_and_hazards.md R281; assumption log 18). -/
def Ret.orReset {α : Type} (t : Turn) (r : Ret α) : Ret α := if t.reset then .waiting .reset r.last else r

/-- The register writes an operation makes on any `raise` inside it. -/
def Ret.onRaise {α : Type} (r : Ret α) (f : State → State) : Ret α :=
  match r with
  | .done a s => .done a s
  | .raised e s => .raised e (f s)
  | .waiting w s => .waiting w s

/-- `RESULT <- Ok(v)`; the operation is over. -/
def State.finish (s : State) (v : Value) : State := { s with result := .ok v, wait := none }

/-- Taking an error, the one thing this hardware has in the place of an exception: "`RESULT <- Err(E)` is the
whole record", nothing is saved and nothing is rolled back (60_exceptions.md R243, R252). -/
def State.raise (s : State) (e : Err) : State := { s with result := .err e, wait := none }

/-- The end of an operation that has a value, an error, or goes on waiting. -/
def Ret.conclude : Ret Value → State
  | .done v s => s.finish v
  | .raised e s => s.raise e
  | .waiting w s => { s with wait := some w }

/-- The end of a step inside an operation: RESULT is written only if the operation ends here, by an error. -/
def Ret.concludeStep : Ret Unit → State
  | .done _ s => s
  | .raised e s => s.raise e
  | .waiting w s => { s with wait := some w }

/-- A refused request: "no channel transaction, changes no register but RESULT, and returns Err(IOError)"
(30_encoding.md R97). The operation in progress, if any, goes on. -/
def State.refuse (s : State) : State := { s with result := .err .ioError }

/-- What a request needs to be accepted (R97, R98): no operation in progress, MODE.SET done, the mode right. -/
def State.admits (s : State) (m : Option Mode) : Bool :=
  s.wait.isNone && s.modeSet && (m.isNone || m == some s.mode)

/-! ## The environment's turns (R7, R14; assumption log 6) -/

/-- The turn that comes with the next transaction: the script's, then free ones. -/
def State.turn (s : State) : Turn :=
  match s.script with
  | t :: _ => t
  | [] => Config.freeTurn s.tick

/-- What the ghost log says of octets that arrive. -/
def arrivals (os : List Octet) : List Xact := if os = [] then [] else [.arrive os]

/-- The environment's moves of one turn: arrivals at SQ and at the network interface (frames of at most MTU
octets, R14 `NetRead`), edges on the sense line, and a command refused because an operation is in
progress (R97). -/
def State.elapse (s : State) : State :=
  { s with
    sq := s.sq ++ s.turn.rx
    netIn := s.netIn ++ s.turn.net.filter (fun p => decide (p.length ≤ s.cfg.mtu))
    sense := s.sense ^^ decide (s.turn.flips % 2 = 1)
    result := if s.turn.intrude then .err .ioError else s.result
    script := s.script.tail
    tick := if s.script = [] then s.tick + 1 else s.tick
    trace := s.trace ++ arrivals s.turn.rx }

/-- Add a transaction to the ghost log. -/
def State.record (s : State) (x : Xact) : State := { s with trace := s.trace ++ [x] }

/-! ## Channel primitives (R14) -/

/-- Octets a `SerWrite` had accepted. -/
def WriteOut.count : WriteOut → Nat
  | .accepted k => k
  | .fail => 0

/-- The outcome of `SerWrite(bs)`. -/
def writeOut (bs : List Octet) (t : Turn) : WriteOut :=
  if t.fail then .fail else .accepted (min (t.short.getD bs.length) bs.length)

/-- `SerWrite(bs)`: the accepted octets go to the tail of WIRE, nothing on `Fail`. -/
def serWrite (bs : List Octet) (s : State) : Ret WriteOut :=
  (Ret.done (writeOut bs s.turn)
    ({ s.elapse with wire := s.wire ++ bs.take (writeOut bs s.turn).count }.record
      (.serWrite bs (writeOut bs s.turn)))).orReset s.turn

/-- The outcome of `SerWait`: `Ready` if and only if SQ is not empty at return. -/
def serWaitOut (s : State) : WaitOut :=
  if s.elapse.sq ≠ [] then .ready else if s.turn.fail then .fail else .expired

/-- `SerWait(T)`, with the errors every rule gives it: `Fail` raises IOError, `Expired` raises Timeout. -/
def serWait (bound : Nat) (s : State) : Ret Unit :=
  (match serWaitOut s with
  | .ready => Ret.done () (s.elapse.record (.serWait bound .ready))
  | .expired => .raised .timeout (s.elapse.record (.serWait bound .expired))
  | .fail => .raised .ioError (s.elapse.record (.serWait bound .fail))).orReset s.turn

/-- How many octets `SerRead(m)` takes from a queue of `q`: at least one, at most `m`. -/
def readCount (m q : Nat) (t : Turn) : Nat := min (max 1 (t.short.getD m)) (min m q)

/-- `SerRead(m)`: octets from the head of SQ; `Fail` raises IOError, and how many octets the failing channel
lost is the turn's choice (95_test_vectors.md T13; assumption log 8). -/
def serRead (m : Nat) (s : State) : Ret (List Octet) :=
  (if s.turn.fail then
    Ret.raised .ioError
      ({ s.elapse with sq := s.elapse.sq.drop (min (s.turn.short.getD 0) m) }.record (.serRead m none))
  else
    .done (s.elapse.sq.take (readCount m s.elapse.sq.length s.turn))
      ({ s.elapse with sq := s.elapse.sq.drop (readCount m s.elapse.sq.length s.turn) }.record
        (.serRead m (some (s.elapse.sq.take (readCount m s.elapse.sq.length s.turn)))))).orReset s.turn

/-- `SerRead(1)`: one octet. It is called only when SQ holds one (R14). -/
def readOne (s : State) : Ret Octet :=
  (serRead 1 s).bind fun bs s' =>
    match bs with
    | e :: _ => .done e s'
    | [] => .raised .ioError s'

/-- `SerPending()`: the length of SQ now. -/
def serPending (s : State) : Ret Nat :=
  (Ret.done s.elapse.sq.length (s.elapse.record (.serPending s.elapse.sq.length))).orReset s.turn

/-- `SenseLevel()`: the level now; `Fail` raises IOError. -/
def senseLevel (s : State) : Ret Bool :=
  (if s.turn.fail then Ret.raised .ioError (s.elapse.record (.senseLevel none))
  else .done s.elapse.sense (s.elapse.record (.senseLevel (some s.elapse.sense)))).orReset s.turn

/-- `SenseWait(T)`: `Woke` if an edge occurred, else `Expired`; `Fail` raises IOError. -/
def senseWait (s : State) : Ret Unit :=
  (if s.turn.fail then Ret.raised .ioError (s.elapse.record (.senseWait s.cfg.tSense .fail))
  else
    .done () (s.elapse.record
      (.senseWait s.cfg.tSense (if s.turn.flips = 0 then .expired else .ready)))).orReset s.turn

/-- `NetRead()`: the oldest frame of the network interface; `Fail` raises IOError. It is called only when the
network-interface side is ready. -/
def netRead (s : State) : Ret (List Octet) :=
  (if s.turn.fail then Ret.raised .ioError (s.elapse.record (.netRead none))
  else
    match s.elapse.netIn with
    | p :: ps => .done p ({ s.elapse with netIn := ps }.record (.netRead (some p)))
    | [] => .raised .ioError (s.elapse.record (.netRead none))).orReset s.turn

/-- `NetWrite(p, n)`: `Fail` raises IOError. -/
def netWrite (p : List Octet) (s : State) : Ret Unit :=
  (if s.turn.fail then Ret.raised .ioError (s.elapse.record (.netWrite p false))
  else .done () (s.elapse.record (.netWrite p true))).orReset s.turn

/-- The direction served (44_bridge_host.md R224): the one side that is ready; the network interface when both
are in Emulated mode; the turn's choice when both are in Native mode (D21). -/
def choose (m : Mode) (net ser : Bool) (t : Turn) : Side :=
  if net && ser then
    match m with
    | .emulated => .net
    | .native => if t.serFirst then .ser else .net
  else if net then .net
  else .ser

/-- `AnyReady()` and the choice: turns pass until the network interface or the serial channel is readable, or
`Fail`, which raises IOError. `n` bounds the turns looked at now; after them the wait goes on in a later step
(R302). -/
def anyReady : Nat → State → Ret Side
  | 0, s => .waiting .brgAny s
  | n + 1, s =>
    if s.turn.reset then .waiting .reset s.elapse
    else if s.turn.fail then .raised .ioError (s.elapse.record .anyReadyFail)
    else if s.elapse.netIn ≠ [] ∨ s.elapse.sq ≠ [] then
      .done (choose s.mode (decide (s.elapse.netIn ≠ [])) (decide (s.elapse.sq ≠ [])) s.turn)
        (s.elapse.record (.anyReady (decide (s.elapse.netIn ≠ [])) (decide (s.elapse.sq ≠ []))))
    else anyReady n s.elapse

/-- The draw of `Rand12()`, 0..BACKOFF_RAND_MAX (R14, 44_bridge_host.md R227). -/
def State.draw (s : State) : Nat := s.turn.rand % (s.cfg.backoffRandMax + 1)

/-- `Rand12()`: a draw. -/
def rand12 (s : State) : Ret Nat := (Ret.done s.draw (s.elapse.record (.rand12 s.draw))).orReset s.turn

/-- `Sleep(d)`: no register. -/
def sleep (d : Nat) (s : State) : Ret Unit := (Ret.done () (s.elapse.record (.sleep d))).orReset s.turn

/-- `Sleep(Rand12() microseconds + BACKOFF_FIXED)` (44_bridge_host.md R227). -/
def backoff (s : State) : Ret Unit := (rand12 s).bind fun r s1 => sleep (r + s1.cfg.backoffFixed) s1

/-! ## Reset (R280, R281) -/

/-- The reset input: every register to its reset value and WIRE empty (10_state.md R40), the operation in progress
abandoned, the host running again; SQ, the environment, the parameters and what is still to issue as they
were (assumption log 18). -/
def State.resetInput (s : State) : State :=
  { State.reset with
    cfg := s.cfg
    sq := s.sq
    sense := s.sense
    netIn := s.netIn
    issue := s.issue
    script := s.script
    tick := s.tick }

end Sys2Proof.Machine
end

