-- ==== Sys2Proof/Machine/CrcUnit.lean ====
section
/-! DEFINITION. The CRC16 unit's operations: CRC.INIT, CRC.UPDATE (spec/40_crc.md). -/

namespace Sys2Proof.Machine

/-- `ACC <- CRC_SEED` (R112). -/
def seedAcc (s : State) : State := { s with acc := accSeed s.cfg }

/-- `ACC <- crc_update(ACC, o)` (R113). -/
def feedAcc (o : Octet) (s : State) : State := { s with acc := accUpdate s.cfg s.acc o }

/-- CRC.INIT (R112). Accepted in both modes (30_encoding.md R98). -/
def execCrcInit (s : State) : Host.Outcome State Fault Refusal :=
  .next (if s.admits none then (seedAcc s).finish .unit else s.refuse)

/-- CRC.UPDATE o (R113): the value is the new ACC. -/
def execCrcUpdate (o : Octet) (s : State) : Host.Outcome State Fault Refusal :=
  .next (if s.admits none then (feedAcc o s).finish (.num (feedAcc o s).acc.toNat) else s.refuse)

end Sys2Proof.Machine
end

