-- ==== Sys2Proof/Machine/Oct.lean ====
section
/-! DEFINITION. The OCT unit and the echo comparator: TX.RAW, RX.RAW, FLUSH (spec/41_octet_transport.md). -/

namespace Sys2Proof.Machine

/-- The wait for the echo, its read and its comparison (R132, R134). -/
def awaitEcho (s : State) : Ret Unit :=
  (serWait s.cfg.tOctet s).bind fun _ s1 =>
    (readOne s1).bind fun e s2 =>
      if ecc s2.txlast e then .raised .lineContention s2 else .done () s2

/-- What TX.RAW does with the outcome of its write (R132, R133). -/
def afterWrite (out : WriteOut) (s : State) : Ret Unit :=
  match out with
  | .fail => .raised .ioError s
  | .accepted 0 => .raised .busy s
  | .accepted (_ + 1) => awaitEcho s

/-- TX.RAW o (R132). -/
def txRaw (o : Octet) (s : State) : Ret Unit :=
  (serWrite [o] { s with txlast := o }).bind afterWrite

/-- RX.RAW (R135). -/
def rxRaw (s : State) : Ret Octet := (serWait s.cfg.tOctet s).bind fun _ s1 => readOne s1

/-- `n` reads whose octets are discarded (R137). -/
def discard : Nat → State → Ret Unit
  | 0, s => .done () s
  | n + 1, s => (readOne s).bind fun _ s1 => discard n s1

/-- FLUSH (R137): exactly the octets in SQ when it starts (R138). -/
def flush (s : State) : Ret Nat :=
  (serPending s).bind fun k s1 => (discard k s1).bind fun _ s2 => .done k s2

/-- FLUSH (R137): the value is the number discarded. -/
def execFlush (s : State) : Host.Outcome State Fault Refusal :=
  .next (if s.admits (some .emulated) then
    ((flush s).bind fun k s1 => .done (.num k) s1).conclude else s.refuse)

/-- TX.RAW o (R132). -/
def execTxRaw (o : Octet) (s : State) : Host.Outcome State Fault Refusal :=
  .next (if s.admits (some .emulated) then
    ((txRaw o s).bind fun _ s1 => .done .unit s1).conclude else s.refuse)

/-- RX.RAW (R135): the value is the octet. -/
def execRxRaw (s : State) : Host.Outcome State Fault Refusal :=
  .next (if s.admits (some .emulated) then
    ((rxRaw s).bind fun o s1 => .done (.num o.toNat) s1).conclude else s.refuse)

end Sys2Proof.Machine
end

