-- ==== Sys2Proof/Machine/Emu.lean ====
section
/-! DEFINITION. The EMU unit: ENC.OCTET, ENC.FRAME, DEC.FRAME, the decoder's symbol steps, the two stuffed
forms and the frame (spec/42_emulated_codec.md). -/

namespace Sys2Proof.Machine

/-! ## Encoder -/

/-- The one-octet stuffed form on the wire (30_encoding.md R81). -/
def sendPlain (b : Octet) (s : State) : Ret Unit := txRaw b s

/-- The two-octet stuffed form on the wire: ESC, then the octet unmodified (R81, R152). -/
def sendEscaped (b : Octet) (s : State) : Ret Unit :=
  (txRaw s.cfg.escOctet s).bind fun _ s1 => txRaw b s1

/-- ENC.OCTET b (R152). -/
def encOctet (b : Octet) (s : State) : Ret Unit :=
  if needsEsc s.cfg b then sendEscaped b s else sendPlain b s

/-- `TXPHASE <- Failed` (R156). -/
def txFailed (s : State) : State := { s with txphase := .failed }

/-- The payload loop of ENC.FRAME from octet `i` on: send, then update ACC over the unescaped value (R156). -/
def sendPayload : Nat → List Octet → State → Ret Unit
  | _, [], s => .done () s
  | i, b :: bs, s =>
    (encOctet b { s with txidx := i }).bind fun _ s1 => sendPayload (i + 1) bs (feedAcc b s1)

/-- The two trailer octets, slices of one value of ACC, high first, and END (R156). -/
def sendTail (s : State) : Ret Unit :=
  (encOctet (hi s.acc) { s with txphase := .crcHi }).bind fun _ s1 =>
    (encOctet (lo s1.acc) { s1 with txphase := .crcLo }).bind fun _ s2 =>
      (txRaw s2.cfg.endOctet { s2 with txphase := .term }).bind fun _ s3 =>
        .done () { s3 with txphase := .done }

/-- The frame of `p` after the drain: seed, payload, trailer, END (R156, 30_encoding.md R82). -/
def sendFrame (p : List Octet) (s : State) : Ret Unit :=
  ((sendPayload 0 p { seedAcc s with txphase := .payload }).bind fun _ s1 => sendTail s1).onRaise txFailed

/-- ENC.FRAME p (R156): the drain, then the frame. -/
def encFrame (p : List Octet) (s : State) : Ret Unit :=
  ((flush { s with txphase := .drain }).onRaise txFailed).bind fun _ s1 => sendFrame p s1

/-! ## Decoder -/

/-- Start step (R163). -/
def decStart (s : State) : State :=
  { s with acc := accSeed s.cfg, rxcnt := 0, dstate := .awaitOctet }

/-- The frame in progress is lost: `DSTATE <- Failed; RXCNT <- 0` (R166, R169, R170). -/
def decAbort (s : State) : State := { s with dstate := .failed, rxcnt := 0 }

/-- Store (R168), with overflow (R170). -/
def storeOctet (o : Octet) (s : State) : Ret Unit :=
  if s.rxcnt = s.cfg.rxbufCap then .raised .bufferExceeded (decAbort s)
  else
    .done () { s with
      rxbuf := Memory.write s.rxbuf s.rxcnt o
      rxcnt := s.rxcnt + 1
      acc := accUpdate s.cfg s.acc o }

/-- SYM.DATA step (R164). -/
def symData (o : Octet) (s : State) : Ret Unit := storeOctet o s

/-- SYM.ESC step (R165). -/
def symEsc (s : State) : State := { s with dstate := .escaped }

/-- SYM.LIT step (R167). -/
def symLit (o : Octet) (s : State) : Ret Unit := storeOctet o { s with dstate := .awaitOctet }

/-- SYM.END step (R166): the value is the payload length. -/
def symEnd (s : State) : Ret Nat :=
  if acceptsAtEnd s.rxcnt s.acc then .done (s.rxcnt - 2) { s with dstate := .done }
  else .raised .frameCorrupt (decAbort s)

/-- The decoder's loop (R162). `n` bounds the octets read: 2 * RXBUF_CAP + 2 suffice from the start step (R302),
so the case 0 is never met by DEC.FRAME. -/
def decLoop : Nat → State → Ret Nat
  | 0, s => .raised .timeout (decAbort s)
  | n + 1, s =>
    ((rxRaw s).onRaise decAbort).bind fun o s1 =>
      if s1.dstate = .escaped then (symLit o s1).bind fun _ s2 => decLoop n s2
      else if o = s1.cfg.escOctet then decLoop n (symEsc s1)
      else if o = s1.cfg.endOctet then symEnd s1
      else (symData o s1).bind fun _ s2 => decLoop n s2

/-- DEC.FRAME (R162). -/
def decFrame (s : State) : Ret Nat := decLoop (2 * s.cfg.rxbufCap + 2) (decStart s)

/-! ## Meanings -/

/-- ENC.OCTET b (R152). -/
def execEncOctet (b : Octet) (s : State) : Host.Outcome State Fault Refusal :=
  .next (if s.admits (some .emulated) then
    ((encOctet b s).bind fun _ s1 => .done .unit s1).conclude else s.refuse)

/-- ENC.FRAME p (R156), refused for a payload over MTU (R154): the value is n. -/
def execEncFrame (p : List Octet) (s : State) : Host.Outcome State Fault Refusal :=
  .next (if s.admits (some .emulated) ∧ p.length ≤ s.cfg.mtu then
    ((encFrame p s).bind fun _ s1 => .done (.num p.length) s1).conclude else s.refuse)

/-- DEC.FRAME (R162): the value is the payload length. -/
def execDecFrame (s : State) : Host.Outcome State Fault Refusal :=
  .next (if s.admits (some .emulated) then
    ((decFrame s).bind fun n s1 => .done (.num n) s1).conclude else s.refuse)

/-- SYM.END (R166), selected by DSTATE = AwaitOctet (30_encoding.md R86; assumption logs 13, 14). It ends
DEC.FRAME, so its value is DEC.FRAME's. -/
def execSymEnd (s : State) : Host.Outcome State Fault Refusal :=
  .next (if s.admits (some .emulated) ∧ s.dstate = .awaitOctet then
    ((symEnd s).bind fun n s1 => .done (.num n) s1).conclude else s.refuse)

/-- SYM.ESC (R165), selected by DSTATE = AwaitOctet. -/
def execSymEsc (s : State) : Host.Outcome State Fault Refusal :=
  .next (if s.admits (some .emulated) ∧ s.dstate = .awaitOctet then symEsc s else s.refuse)

/-- SYM.DATA o (R164), selected by DSTATE = AwaitOctet and an octet that is neither END nor ESC. -/
def execSymData (o : Octet) (s : State) : Host.Outcome State Fault Refusal :=
  .next (if s.admits (some .emulated) ∧ s.dstate = .awaitOctet ∧ needsEsc s.cfg o = false then
    (symData o s).concludeStep else s.refuse)

/-- SYM.LIT o (R167), selected by DSTATE = Escaped. -/
def execSymLit (o : Octet) (s : State) : Host.Outcome State Fault Refusal :=
  .next (if s.admits (some .emulated) ∧ s.dstate = .escaped then
    (symLit o s).concludeStep else s.refuse)

/-- STUFF.PLAIN b (30_encoding.md R81), for an octet that needs no escape. -/
def execStuffPlain (b : Octet) (s : State) : Host.Outcome State Fault Refusal :=
  .next (if s.admits (some .emulated) ∧ needsEsc s.cfg b = false then
    ((sendPlain b s).bind fun _ s1 => .done .unit s1).conclude else s.refuse)

/-- STUFF.ESCAPED b (30_encoding.md R81), for END and ESC. -/
def execStuffEscaped (b : Octet) (s : State) : Host.Outcome State Fault Refusal :=
  .next (if s.admits (some .emulated) ∧ needsEsc s.cfg b = true then
    ((sendEscaped b s).bind fun _ s1 => .done .unit s1).conclude else s.refuse)

/-- EFRAME p (30_encoding.md R82), the part of ENC.FRAME after the drain, selected by TXPHASE = Drain. It ends
ENC.FRAME, so its value is ENC.FRAME's. -/
def execEframe (p : List Octet) (s : State) : Host.Outcome State Fault Refusal :=
  .next (if s.admits (some .emulated) ∧ s.txphase = .drain ∧ p.length ≤ s.cfg.mtu then
    ((sendFrame p s).bind fun _ s1 => .done (.num p.length) s1).conclude else s.refuse)

end Sys2Proof.Machine
end

