-- ==== Sys2Proof/Machine/Native.lean ====
section
/-! DEFINITION. The NAT unit: RD.BYTES, NAT.RX, SENSE.POLL, NAT.TX, the prefix classes and the native frame
(spec/43_native_transport.md). -/

namespace Sys2Proof.Machine

/-- `NSTATE <- Failed` (R196, R202). -/
def natFailed (s : State) : State := { s with nstate := .failed }

/-- Octets appended to NBUF (R192). -/
def storeRead (bs : List Octet) (s : State) : State :=
  { s with nbuf := Memory.writeList s.nbuf s.ncnt bs, ncnt := s.ncnt + bs.length }

/-- The loop of RD.BYTES k (R192). `n` bounds the reads: each takes at least one octet, so k suffice (R302). -/
def readLoop : Nat → Nat → State → Ret Unit
  | 0, _, s => .done () s
  | n + 1, k, s =>
    if s.ncnt < k then
      (serWait s.cfg.tRead s).bind fun _ s1 =>
        (serRead (k - s1.ncnt) s1).bind fun bs s2 => readLoop n k (storeRead bs s2)
    else .done () s

/-- RD.BYTES k (R192). -/
def rdBytes (k : Nat) (s : State) : Ret Unit := readLoop k k { s with ncnt := 0 }

/-- NAT.RX after a prefix of class NAT.LEN.OK: the payload, then its delivery (R196). -/
def natLenOk (n : Word16) (s : State) : Ret Value :=
  ((rdBytes n.toNat { s with len := n, nstate := .payload }).bind fun _ s1 =>
    (netWrite (Memory.prefixOf s1.nbuf n.toNat) s1).bind fun _ s2 =>
      .done (.delivered n.toNat) { s2 with nstate := .done }).onRaise natFailed

/-- NAT.RX after a prefix of class NAT.LEN.OVER: the attempt is silently discarded (R198). -/
def natLenOver (n : Word16) (s : State) : Ret Value :=
  .done .discarded { s with len := n, nstate := .done }

/-- `LEN = {NBUF[0], NBUF[1]}` (R197). -/
def prefixLen (s : State) : Word16 := cat (Memory.read s.nbuf 0) (Memory.read s.nbuf 1)

/-- NAT.RX (R196). -/
def natRx (s : State) : Ret Value :=
  ((rdBytes 2 { s with nstate := .lenPrefix }).onRaise natFailed).bind fun _ s1 =>
    if lenOk s1.cfg.mtu (prefixLen s1) then natLenOk (prefixLen s1) s1 else natLenOver (prefixLen s1) s1

/-- The loop of SENSE.POLL (R200) after `waits` waits; `n` bounds the polls made now, `w` says what is left
waiting when they are used up (R201, R303). -/
def pollLoop (w : Wait) : Nat → Nat → State → Ret Unit
  | 0, _, s => .waiting w s
  | n + 1, waits, s =>
    (senseLevel s).bind fun v s1 =>
      if v = s1.cfg.senseReady then .done () s1
      else if s1.cfg.natWaitLimit = some waits then .raised .timeout s1
      else (senseWait s1).bind fun _ s2 => pollLoop w n (waits + 1) s2

/-- How many polls are made in one step. Under a finite NAT_WAIT_LIMIT one more than the limit, which always
suffices; under the unbounded one, until the script of the environment is used up, and at least one. -/
def pollBudget (s : State) : Nat :=
  match s.cfg.natWaitLimit with
  | some l => l + 1
  | none => max 1 ((s.script.length + 1) / 2)

/-- SENSE.POLL (R200). -/
def sensePoll (w : Wait) (s : State) : Ret Unit := pollLoop w (pollBudget s) 0 s

/-- What NAT.TX does with the outcome of its write of `n + 2` octets (R202, R203). -/
def afterNatWrite (n : Nat) (out : WriteOut) (s : State) : Ret Value :=
  match out with
  | .fail => .raised .ioError s
  | .accepted k =>
    if k = 0 then .raised .busy s
    else if k < n + 2 then .raised .ioError s
    else .done (.num n) { s with nstate := .done }

/-- The native frame in one logical write (R202). -/
def sendNFrame (p : List Octet) (s : State) : Ret Value :=
  ((serWrite (nframeWire p) s).bind (afterNatWrite p.length)).onRaise natFailed

/-- NAT.TX p (R202). `w` says what is left waiting under an unbounded NAT_WAIT_LIMIT. -/
def natTx (w : Wait) (p : List Octet) (s : State) : Ret Value :=
  ((sensePoll w { s with nstate := .senseWait }).onRaise natFailed).bind fun _ s1 =>
    sendNFrame p { s1 with nstate := .write }

/-! ## Meanings -/

/-- RD.BYTES k (R192), refused for a count over max(MTU, 2) (30_encoding.md R97). -/
def execRdBytes (k : Word16) (s : State) : Host.Outcome State Fault Refusal :=
  .next (if s.admits (some .native) ∧ k.toNat ≤ s.cfg.nbufCap then
    ((rdBytes k.toNat s).bind fun _ s1 => .done (.inNbuf k.toNat) s1).conclude else s.refuse)

/-- NAT.RX (R196): the value is Delivered(LEN) or Discarded. -/
def execNatRx (s : State) : Host.Outcome State Fault Refusal :=
  .next (if s.admits (some .native) then (natRx s).conclude else s.refuse)

/-- NAT.TX p (R202), refused for a payload over MTU (R204): the value is n. -/
def execNatTx (p : List Octet) (s : State) : Host.Outcome State Fault Refusal :=
  .next (if s.admits (some .native) ∧ p.length ≤ s.cfg.mtu then
    (natTx (.natTx p) p s).conclude else s.refuse)

/-- SENSE.POLL (R200). -/
def execSensePoll (s : State) : Host.Outcome State Fault Refusal :=
  .next (if s.admits (some .native) then
    ((sensePoll .sense s).bind fun _ s1 => .done .unit s1).conclude else s.refuse)

/-- NFRAME p (30_encoding.md R92), the write of NAT.TX, selected by NSTATE = Write (assumption logs 13, 14). It
ends NAT.TX, so its value is NAT.TX's. -/
def execNframe (p : List Octet) (s : State) : Host.Outcome State Fault Refusal :=
  .next (if s.admits (some .native) ∧ s.nstate = .write ∧ p.length ≤ s.cfg.mtu then
    (sendNFrame p s).conclude else s.refuse)

/-- NAT.LEN.OK n (30_encoding.md R94), selected by NSTATE = Prefix and n <= MTU. It ends NAT.RX, so its value
is NAT.RX's. -/
def execNatLenOk (n : Word16) (s : State) : Host.Outcome State Fault Refusal :=
  .next (if s.admits (some .native) ∧ s.nstate = .lenPrefix ∧ lenOk s.cfg.mtu n = true then
    (natLenOk n s).conclude else s.refuse)

/-- NAT.LEN.OVER n (30_encoding.md R94), selected by NSTATE = Prefix and n > MTU. It ends NAT.RX, so its value
is NAT.RX's. -/
def execNatLenOver (n : Word16) (s : State) : Host.Outcome State Fault Refusal :=
  .next (if s.admits (some .native) ∧ s.nstate = .lenPrefix ∧ lenOk s.cfg.mtu n = false then
    (natLenOver n s).conclude else s.refuse)

end Sys2Proof.Machine
end

