-- ==== Sys2Proof/Machine/Bridge.lean ====
section
/-! DEFINITION. The host agent: MODE.SET, TAP2TTY, BRG.STEP (spec/44_bridge_host.md). -/

namespace Sys2Proof.Machine

/-- The attempts of TAP2TTY when `n = RETRY_MAX - ATTEMPT` retries are left, so that the case 0 is the test
`ATTEMPT == RETRY_MAX` (R226): every error is caught; a backoff precedes each retry. -/
def attempts : Nat → List Octet → State → Ret Value
  | 0, p, s =>
    match encFrame p s with
    | .done _ s1 => .done .sent s1
    | .raised _ s1 => .done .dropped (s1.record .logDropped)
    | .waiting w s1 => .waiting w s1
  | n + 1, p, s =>
    match encFrame p s with
    | .done _ s1 => .done .sent s1
    | .raised _ s1 => (backoff { s1 with attempt := s1.attempt + 1 }).bind fun _ s2 => attempts n p s2
    | .waiting w s1 => .waiting w s1

/-- TAP2TTY p (R226). -/
def tap2tty (p : List Octet) (s : State) : Ret Value := attempts s.cfg.retryMax p { s with attempt := 0 }

/-- `catch OP` (R223): a value or an error of OP lets what follows run. -/
def Ret.catching {α β : Type} (r : Ret α) (ok : α → State → Ret β) (err : State → Ret β) : Ret β :=
  match r with
  | .done a s => ok a s
  | .raised _ s => err s
  | .waiting w s => .waiting w s

/-- The transmit path for frame `p` (R223, R225): nothing it raises gets out. -/
def bridgeSend (p : List Octet) (s : State) : Ret Value :=
  match s.mode with
  | .emulated => (tap2tty p s).catching (fun _ s1 => .done .unit s1) (fun s1 => .done .unit s1)
  | .native => (natTx (.brgTx p) p s).catching (fun _ s1 => .done .unit s1) (fun s1 => .done .unit s1)

/-- The receive path (R223, R228): in Emulated mode the decoded frame is delivered here; NAT.RX delivers by
itself. -/
def bridgeReceive (s : State) : Ret Value :=
  match s.mode with
  | .emulated =>
    (decFrame s).catching
      (fun n s1 => (netWrite (Memory.prefixOf s1.rxbuf n) s1).bind fun _ s2 => .done .unit s2)
      (fun s1 => .done .unit s1)
  | .native => (natRx s).catching (fun _ s1 => .done .unit s1) (fun s1 => .done .unit s1)

/-- How many turns AnyReady looks at in one step: until the script is used up, and at least one. -/
def readyBudget (s : State) : Nat := max 1 s.script.length

/-- BRG.STEP (R223). -/
def brgStep (s : State) : Ret Value :=
  (anyReady (readyBudget s) s).bind fun d s1 =>
    match d with
    | .net => (netRead s1).bind fun p s2 => bridgeSend p s2
    | .ser => bridgeReceive s1

/-- The end of BRG.STEP: an error that gets out of it is the fatal case, and the host stops (R229). -/
def concludeBridge : Ret Value → State
  | .done v s => s.finish v
  | .raised e s => { s.raise e with halted := true }
  | .waiting w s => { s with wait := some w }

/-! ## Meanings -/

/-- MODE.SET m (R221): once after reset, before any other operation; a second one is refused. -/
def execModeSet (m : Mode) (s : State) : Host.Outcome State Fault Refusal :=
  .next (if s.wait.isNone ∧ s.modeSet = false then
    ({ s with mode := m, modeSet := true }).finish .unit else s.refuse)

/-- TAP2TTY p (R226), refused for a payload over MTU (30_encoding.md R97): the value is Sent or Dropped. -/
def execTap2tty (p : List Octet) (s : State) : Host.Outcome State Fault Refusal :=
  .next (if s.admits (some .emulated) ∧ p.length ≤ s.cfg.mtu then (tap2tty p s).conclude else s.refuse)

/-- BRG.STEP (R223). Accepted in both modes (30_encoding.md R98). -/
def execBrgStep (s : State) : Host.Outcome State Fault Refusal :=
  .next (if s.admits none then concludeBridge (brgStep s) else s.refuse)

/-- The operation in progress goes on with its wait (R302, R303), or is abandoned by the reset (R281). -/
def resume (w : Wait) (s : State) : State :=
  match w with
  | .sense => ((sensePoll .sense s).bind fun _ s1 => .done .unit s1).conclude
  | .natTx p => (natTx (.natTx p) p s).conclude
  | .brgAny => concludeBridge (brgStep s)
  | .reset => s.resetInput
  | .brgTx p =>
    concludeBridge
      ((natTx (.brgTx p) p s).catching (fun _ s1 => .done .unit s1) (fun s1 => .done .unit s1))

end Sys2Proof.Machine
end

