-- ==== Sys2Proof/Machine/Dispatch.lean ====
section
/-! DEFINITION. One arm for each constructor of Instr. -/

namespace Sys2Proof.Machine

def exec (i : Instr) (s : State) : Host.Outcome State Fault Refusal :=
  match i with
  | .crcInit => Sys2Proof.Machine.execCrcInit s
  | .crcUpdate o => Sys2Proof.Machine.execCrcUpdate o s
  | .flush => Sys2Proof.Machine.execFlush s
  | .txRaw o => Sys2Proof.Machine.execTxRaw o s
  | .rxRaw => Sys2Proof.Machine.execRxRaw s
  | .encOctet b => Sys2Proof.Machine.execEncOctet b s
  | .encFrame p => Sys2Proof.Machine.execEncFrame p s
  | .decFrame => Sys2Proof.Machine.execDecFrame s
  | .rdBytes k => Sys2Proof.Machine.execRdBytes k s
  | .natRx => Sys2Proof.Machine.execNatRx s
  | .natTx p => Sys2Proof.Machine.execNatTx p s
  | .sensePoll => Sys2Proof.Machine.execSensePoll s
  | .tap2tty p => Sys2Proof.Machine.execTap2tty p s
  | .brgStep => Sys2Proof.Machine.execBrgStep s
  | .modeSet m => Sys2Proof.Machine.execModeSet m s
  | .symEnd => Sys2Proof.Machine.execSymEnd s
  | .symEsc => Sys2Proof.Machine.execSymEsc s
  | .symData o => Sys2Proof.Machine.execSymData o s
  | .symLit o => Sys2Proof.Machine.execSymLit o s
  | .stuffPlain b => Sys2Proof.Machine.execStuffPlain b s
  | .stuffEscaped b => Sys2Proof.Machine.execStuffEscaped b s
  | .eframe p => Sys2Proof.Machine.execEframe p s
  | .nframe p => Sys2Proof.Machine.execNframe p s
  | .natLenOk n => Sys2Proof.Machine.execNatLenOk n s
  | .natLenOver n => Sys2Proof.Machine.execNatLenOver n s

end Sys2Proof.Machine
end

