-- ==== Sys2Proof/Machine/Fetch.lean ====
section
/-! DEFINITION. What a word at the head of `issue` is read as, and what stands a table word there. -/

namespace Sys2Proof.Machine

/-- What the decoder looks at beside the octets: DSTATE (30_encoding.md R86, R88) and the parameters. -/
def State.decodeCtx (s : State) : DecodeCtx where
  dstate := s.dstate
  cfg := s.cfg

/-- What is left to issue once the head has been taken. -/
def State.popIssue (s : State) : State := { s with issue := s.issue.tail }

/-- A word that decodes to nothing: from the command port a refused request (R97), in an internal format no
instruction at all. -/
def undecodable (f : Format) (e : DecodeErr) (s : State) : Host.Outcome State Fault Refusal :=
  match f with
  | .cmd4 => .next s.refuse
  | .sym8 => .refused (.noSuchWord .sym8 e)
  | .stuff => .refused (.noSuchWord .stuff e)
  | .eframe => .refused (.noSuchWord .eframe e)
  | .len16 => .refused (.noSuchWord .len16 e)
  | .nframe => .refused (.noSuchWord .nframe e)

/-- The sequencing registers with which a word of an internal format is read by its unit: the parent operation's
mode, and the phase that selects the step (assumption logs 13, 15). A host command needs nothing. -/
def State.selectFormat (s : State) (f : Format) : State :=
  match f with
  | .cmd4 => s
  | .sym8 => { s with mode := .emulated, modeSet := true, dstate := .awaitOctet }
  | .stuff => { s with mode := .emulated, modeSet := true }
  | .eframe => { s with mode := .emulated, modeSet := true, txphase := .drain }
  | .len16 => { s with mode := .native, modeSet := true, nstate := .lenPrefix }
  | .nframe => { s with mode := .native, modeSet := true, nstate := .write }

/-- Stand a word next for the block: at the head of `issue`, no operation in progress, the host running. -/
def State.placeWord (s : State) (f : Format) (w : List Octet) : State :=
  { s.selectFormat f with issue := .word f w :: s.issue, wait := none, halted := false }

end Sys2Proof.Machine
end

