-- ==== Sys2Proof/Machine/Step.lean ====
section
/-! DEFINITION. One step of the machine. -/

namespace Sys2Proof.Machine

/-- Run the word at the head of `issue`, which is taken from it. -/
def runWord (f : Format) (w : List Octet) (s : State) : Host.Outcome State Fault Refusal :=
  match decode s.decodeCtx f w with
  | .ok i => exec i s.popIssue
  | .error e => undecodable f e s.popIssue

/-- What stands next is taken up: nothing (the block waits for its host, 70_reset_and_hazards.md R281), a word,
or one more iteration of the host's endless loop (44_bridge_host.md R229). -/
def issueNext (s : State) : Host.Outcome State Fault Refusal :=
  match s.issue with
  | [] => .next s
  | .word f w :: _ => runWord f w s
  | .bridge :: _ => exec .brgStep s
  | .reset :: _ => .next s.popIssue.resetInput

/-- One step. The reset input acts at once, whatever is in progress (R281); a stopped host issues nothing (R229);
an operation in progress goes on, or is abandoned by the reset that came inside it, before the next is issued
(00_scope.md R6). -/
def step (s : State) : Host.Outcome State Fault Refusal :=
  if s.issue.head? = some .reset then .next s.popIssue.resetInput
  else if s.halted then .fault .hostStopped
  else
    match s.wait with
    | some w => .next (resume w s)
    | none => issueNext s

/-- `s` with the instruction of a table word standing next for the block (assumption logs 15, 16). -/
def State.withFetchWord (s : State) (nbits w : Nat) : State :=
  s.placeWord (tableWord nbits w).1 (tableWord nbits w).2

end Sys2Proof.Machine
end

