-- ==== Sys2Proof/Safety.lean ====
section
/-! DEFINITION. The words claims are stated in: which requests are accepted, which errors an operation may end
in, what the ghost log says, the premises about the environment, the reference decoder, and the invariant. -/

namespace Sys2Proof.Machine

/-! ## Requests (spec/30_encoding.md R97, R98) -/

/-- The block accepts the request: no operation in progress, MODE.SET done (not yet done, for MODE.SET), the
mode the operation's, the length within MTU, the count within max(MTU, 2). The ten internal steps are
accepted where their parent operation has come to them (assumption logs 13, 14). -/
def accepts (i : Instr) (s : State) : Bool :=
  match i with
  | .crcInit => s.admits none
  | .crcUpdate _ => s.admits none
  | .flush => s.admits (some .emulated)
  | .txRaw _ => s.admits (some .emulated)
  | .rxRaw => s.admits (some .emulated)
  | .encOctet _ => s.admits (some .emulated)
  | .encFrame p => s.admits (some .emulated) && decide (p.length ≤ s.cfg.mtu)
  | .decFrame => s.admits (some .emulated)
  | .rdBytes k => s.admits (some .native) && decide (k.toNat ≤ s.cfg.nbufCap)
  | .natRx => s.admits (some .native)
  | .natTx p => s.admits (some .native) && decide (p.length ≤ s.cfg.mtu)
  | .sensePoll => s.admits (some .native)
  | .tap2tty p => s.admits (some .emulated) && decide (p.length ≤ s.cfg.mtu)
  | .brgStep => s.admits none
  | .modeSet _ => s.wait.isNone && !s.modeSet
  | .symEnd => s.admits (some .emulated) && s.dstate == .awaitOctet
  | .symEsc => s.admits (some .emulated) && s.dstate == .awaitOctet
  | .symData o => s.admits (some .emulated) && s.dstate == .awaitOctet && !needsEsc s.cfg o
  | .symLit _ => s.admits (some .emulated) && s.dstate == .escaped
  | .stuffPlain b => s.admits (some .emulated) && !needsEsc s.cfg b
  | .stuffEscaped b => s.admits (some .emulated) && needsEsc s.cfg b
  | .eframe p => s.admits (some .emulated) && s.txphase == .drain && decide (p.length ≤ s.cfg.mtu)
  | .nframe p => s.admits (some .native) && s.nstate == .write && decide (p.length ≤ s.cfg.mtu)
  | .natLenOk n => s.admits (some .native) && s.nstate == .lenPrefix && lenOk s.cfg.mtu n
  | .natLenOver n => s.admits (some .native) && s.nstate == .lenPrefix && !lenOk s.cfg.mtu n

/-- The four errors of the octet transport (41_octet_transport.md R132). -/
def transmitErrors : List Err := [.busy, .timeout, .lineContention, .ioError]

/-- The errors an operation may end in (60_exceptions.md R242); a step inside an operation has those its own
rule names. -/
def mayRaise (i : Instr) : List Err :=
  match i with
  | .crcInit => []
  | .crcUpdate _ => []
  | .flush => [.ioError]
  | .txRaw _ => transmitErrors
  | .rxRaw => [.timeout, .ioError]
  | .encOctet _ => transmitErrors
  | .encFrame _ => transmitErrors
  | .decFrame => [.timeout, .frameCorrupt, .bufferExceeded, .ioError]
  | .rdBytes _ => [.timeout, .ioError]
  | .natRx => [.timeout, .ioError]
  | .natTx _ => [.busy, .timeout, .ioError]
  | .sensePoll => [.timeout, .ioError]
  | .tap2tty _ => []
  | .brgStep => [.ioError]
  | .modeSet _ => []
  | .symEnd => [.frameCorrupt]
  | .symEsc => []
  | .symData _ => [.bufferExceeded]
  | .symLit _ => [.bufferExceeded]
  | .stuffPlain _ => transmitErrors
  | .stuffEscaped _ => transmitErrors
  | .eframe _ => transmitErrors
  | .nframe _ => [.busy, .ioError]
  | .natLenOk _ => [.timeout, .ioError]
  | .natLenOver _ => []

/-! ## What the ghost log says -/

/-- The octets a transaction put on the wire. -/
def Xact.written : Xact → List Octet
  | .serWrite bs out => bs.take out.count
  | _ => []

/-- The octets a transaction took from SQ. -/
def Xact.taken : Xact → List Octet
  | .serRead _ (some bs) => bs
  | _ => []

/-- The frame a transaction delivered to the network interface, if any. -/
def Xact.deliveredFrame : Xact → Option (List Octet)
  | .netWrite p true => some p
  | _ => none

/-- The length of a sleep, if the transaction is one. -/
def Xact.slept : Xact → Option Nat
  | .sleep d => some d
  | _ => none

/-- Every octet put on the wire, in order. -/
def wireOf (xs : List Xact) : List Octet := xs.flatMap Xact.written

/-- The frames delivered to the network interface, in order. -/
def State.delivered (s : State) : List (List Octet) := s.trace.filterMap Xact.deliveredFrame

/-- The sleeps, in order. -/
def State.sleeps (s : State) : List Nat := s.trace.filterMap Xact.slept

/-- How many frames have been logged as dropped. -/
def State.drops (s : State) : Nat := s.trace.count .logDropped

/-- What the log of `t` has that the log of `s` did not have. -/
def since (s t : State) : List Xact := t.trace.drop s.trace.length

/-- The octets that arrived at SQ. -/
def Xact.arrived : Xact → List Octet
  | .arrive os => os
  | _ => []

/-- The error a transaction gives the transmit path by itself: nothing accepted, nothing to read, a failure
(41_octet_transport.md R132). -/
def Xact.failure : Xact → Option Err
  | .serWrite _ .fail => some .ioError
  | .serWrite _ (.accepted 0) => some .busy
  | .serWait _ .expired => some .timeout
  | .serWait _ .fail => some .ioError
  | .serRead _ none => some .ioError
  | _ => none

/-- The octet a transaction offers to the wire, if it offers just one. -/
def Xact.offers : Xact → Option Octet
  | .serWrite [o] _ => some o
  | _ => none

/-- The error with which a transaction ends the transmit path when `w` is the octet offered last: its own, or the
comparison of an octet read with `w` (41_octet_transport.md R131, R132). -/
def Xact.ends (w : Option Octet) : Xact → Option Err
  | .serRead _ (some [e]) => if w.any (ecc · e) then some .lineContention else none
  | x => x.failure

/-- The first octet-level error of a log, and what is logged after it; `w` is the octet offered last, so that the
reads of the drain are compared with nothing. -/
def firstError (w : Option Octet) : List Xact → Option (Err × List Xact)
  | [] => none
  | x :: xs =>
    match x.ends w with
    | some e => some (e, xs)
    | none => firstError (x.offers <|> w) xs

/-- An attempt at the frame of `p` that went through: the whole frame is on the wire, and no octet-level error. -/
def attemptOk (c : Config) (p : List Octet) (xs : List Xact) : Prop :=
  wireOf xs = eframeWire c p ∧ firstError none xs = none

/-- An attempt at the frame of `p` that failed: a prefix of the frame is on the wire, and the first octet-level error
ended it. -/
def attemptFailed (c : Config) (p : List Octet) (xs : List Xact) : Prop :=
  wireOf xs <+: eframeWire c p ∧ ∃ e, firstError none xs = some (e, [])

/-- A backoff: a draw and a sleep of that many microseconds more than BACKOFF_FIXED, and octets that arrive
meanwhile (44_bridge_host.md R227). -/
def isBackoff (c : Config) (xs : List Xact) : Prop :=
  ∃ r ≤ c.backoffRandMax, xs.filter (fun x => decide (x.arrived = [])) = [.rand12 r, .sleep (r + c.backoffFixed)]

/-- Attempts with one backoff before each but the first. -/
def interleave : List (List Xact) → List (List Xact) → List Xact
  | [], _ => []
  | a :: _, [] => a
  | a :: as, b :: bs => a ++ b ++ interleave as bs

/-- The log of `k` polls of the sense line, two turns each, that found it unready (43_native_transport.md R200). -/
def pollLog (c : Config) : List Turn → List Xact
  | _ :: w :: ts =>
    .senseLevel (some !c.senseReady) :: .senseWait c.tSense (if w.flips = 0 then .expired else .ready) :: pollLog c ts
  | _ => []

/-- The level of the sense line after the turns. -/
def senseAfter (level : Bool) (ts : List Turn) : Bool := level ^^ decide ((ts.map Turn.flips).sum % 2 = 1)

/-! ## Frames -/

/-- The escape flag (10_state.md R25). -/
def State.escf (s : State) : Bool := escfOf s.dstate

/-- `s` with the channels, RESULT and the model's own fields of `t`: what any channel transaction may change. -/
def State.withChannels (s t : State) : State :=
  { s with
    sq := t.sq
    wire := t.wire
    sense := t.sense
    netIn := t.netIn
    result := t.result
    script := t.script
    tick := t.tick
    trace := t.trace }

/-- Beside the channels, TXLAST (41_octet_transport.md R132, 42_emulated_codec.md R152). -/
def State.withTx (s t : State) : State := { s.withChannels t with txlast := t.txlast }

/-- Beside the channels, the registers of ENC.FRAME (42_emulated_codec.md R156). -/
def State.withEnc (s t : State) : State :=
  { s.withChannels t with txlast := t.txlast, acc := t.acc, txphase := t.txphase, txidx := t.txidx }

/-- Beside the channels, the registers of DEC.FRAME (42_emulated_codec.md R162). -/
def State.withDec (s t : State) : State :=
  { s.withChannels t with acc := t.acc, rxbuf := t.rxbuf, rxcnt := t.rxcnt, dstate := t.dstate }

/-- Beside the channels, the registers of RD.BYTES (43_native_transport.md R192). -/
def State.withRead (s t : State) : State := { s.withChannels t with nbuf := t.nbuf, ncnt := t.ncnt }

/-- Beside the channels, the registers of NAT.RX (43_native_transport.md R196). -/
def State.withNatRx (s t : State) : State :=
  { s.withChannels t with nbuf := t.nbuf, ncnt := t.ncnt, len := t.len, nstate := t.nstate }

/-- Beside the channels, the register of NAT.TX (43_native_transport.md R202). -/
def State.withNatTx (s t : State) : State := { s.withChannels t with nstate := t.nstate }

/-- Beside the channels, the registers of TAP2TTY (44_bridge_host.md R226). -/
def State.withTap (s t : State) : State :=
  { s.withChannels t with
    txlast := t.txlast, acc := t.acc, txphase := t.txphase, txidx := t.txidx, attempt := t.attempt }

/-- Beside the channels, every register an operation of the bridge loop writes in either mode
(44_bridge_host.md R223). -/
def State.withBridge (s t : State) : State :=
  { s.withTap t with
    rxbuf := t.rxbuf, rxcnt := t.rxcnt, dstate := t.dstate, nbuf := t.nbuf, ncnt := t.ncnt, len := t.len
    nstate := t.nstate }

/-- An operation is left in progress only by a reset that cut it. -/
abbrev overOrCut (s t : State) : Prop := t.wait = s.wait ∨ t.wait = some .reset

/-- Two buffers read alike at every index the condition leaves. -/
def agreeOutside (m m' : Memory) (stored : Nat → Prop) : Prop :=
  ∀ a, ¬ stored a → Memory.read m' a = Memory.read m a

/-- The registers used only in Emulated mode are the same (60_exceptions.md R258). -/
def sameEmulated (s t : State) : Prop :=
  t.acc = s.acc ∧ t.rxbuf = s.rxbuf ∧ t.rxcnt = s.rxcnt ∧ t.dstate = s.dstate ∧ t.txlast = s.txlast ∧
    t.txphase = s.txphase ∧ t.txidx = s.txidx ∧ t.attempt = s.attempt

/-- The registers used only in Native mode are the same (60_exceptions.md R258). -/
def sameNative (s t : State) : Prop :=
  t.len = s.len ∧ t.nbuf = s.nbuf ∧ t.ncnt = s.ncnt ∧ t.nstate = s.nstate

/-- The operations of Native mode and their steps (30_encoding.md R98). -/
def isNative : Instr → Bool
  | .rdBytes _ => true
  | .natRx => true
  | .natTx _ => true
  | .sensePoll => true
  | .nframe _ => true
  | .natLenOk _ => true
  | .natLenOver _ => true
  | _ => false

/-- The operations of Emulated mode and their steps (30_encoding.md R98). -/
def isEmulated : Instr → Bool
  | .flush => true
  | .txRaw _ => true
  | .rxRaw => true
  | .encOctet _ => true
  | .encFrame _ => true
  | .decFrame => true
  | .tap2tty _ => true
  | .symEnd => true
  | .symEsc => true
  | .symData _ => true
  | .symLit _ => true
  | .stuffPlain _ => true
  | .stuffEscaped _ => true
  | .eframe _ => true
  | _ => false

/-- The operations whose rule has a `SerWrite`. -/
def transmits : Instr → Bool
  | .txRaw _ => true
  | .encOctet _ => true
  | .encFrame _ => true
  | .natTx _ => true
  | .tap2tty _ => true
  | .brgStep => true
  | .stuffPlain _ => true
  | .stuffEscaped _ => true
  | .eframe _ => true
  | .nframe _ => true
  | _ => false

/-- The instructions whose first act, once accepted, is a transaction. -/
def beginsWithTurn : Instr → Bool
  | .flush => true
  | .txRaw _ => true
  | .rxRaw => true
  | .encOctet _ => true
  | .encFrame _ => true
  | .decFrame => true
  | .rdBytes k => k != 0
  | .natRx => true
  | .natTx _ => true
  | .sensePoll => true
  | .tap2tty _ => true
  | .brgStep => true
  | .stuffPlain _ => true
  | .stuffEscaped _ => true
  | .eframe _ => true
  | .nframe _ => true
  | .natLenOk _ => true
  | _ => false

/-! ## Premises about the environment (00_scope.md R17) -/

/-- `IdealEcho` from a point where the octets `written` await the echo in full: every write is accepted whole, what
has arrived is an initial part of what has been written, and all of it when a SerWait returns. -/
def echoFrom (written arrived : List Octet) : List Xact → Bool
  | [] => true
  | .arrive os :: xs => echoFrom written (arrived ++ os) xs
  | .serWrite bs out :: xs =>
    decide (out = .accepted bs.length ∧ arrived <+: written ++ bs) && echoFrom (written ++ bs) arrived xs
  | .serWait _ _ :: xs => decide (arrived = written) && echoFrom written arrived xs
  | _ :: xs => decide (arrived <+: written) && echoFrom written arrived xs

/-- The premise `IdealEcho` of what is logged. -/
abbrev IdealEcho (xs : List Xact) : Prop := echoFrom [] [] xs = true

/-- The premise `NoEcho` of what is logged: nothing arrives. -/
abbrev NoEcho (xs : List Xact) : Prop := ∀ x ∈ xs, x.arrived = []

/-- `Script(s)` with `s` still to arrive: it arrives in order, a SerWait that finds nothing finds `s` used up, and it
is Expired. -/
def scriptFrom (s : List Octet) : List Xact → Bool
  | [] => true
  | .arrive os :: xs => decide (os <+: s) && scriptFrom (s.drop os.length) xs
  | .serWait _ out :: xs => decide (out = .ready ∨ (out = .expired ∧ s = [])) && scriptFrom s xs
  | _ :: xs => scriptFrom s xs

/-- The premise `Script(s)` of what is logged. -/
abbrev Script (s : List Octet) (xs : List Xact) : Prop := scriptFrom s xs = true

/-- A read of SQ that failed. -/
def Xact.readFails : Xact → Bool
  | .serRead _ none => true
  | _ => false

/-- No read of SQ failed. -/
abbrev readsWork (xs : List Xact) : Prop := ∀ x ∈ xs, x.readFails = false

/-- The environment's next `n` turns are quiet: nothing arrives, every transaction goes through whole. -/
def quiet (n : Nat) : List Turn := List.replicate n {}

/-- Turns in which TX.RAW of `o` has its echo: the write, the arrival of the echo, its read. -/
def echoOf (o : Octet) : List Turn := [{}, { rx := [o] }, {}]

/-- Turns that meet `IdealEcho` when the octets `w` are written one by one. -/
def echoScript (w : List Octet) : List Turn := w.flatMap echoOf

/-- The turns bring no octet, no failure and no reset; how much a read returns is left open. -/
abbrev still (ts : List Turn) : Prop := ∀ t ∈ ts, t.rx = [] ∧ t.fail = false ∧ t.reset = false

/-! ## The reference update (95_test_vectors.md Part 4) -/

/-- The spec's widening of an octet as numbers (00_scope.md R12, 40_crc.md R116). -/
def refExtend (e : CrcExt) (o : Nat) : Nat :=
  match e with
  | .sign => if o < 0x80 then o else o + 0xFF00
  | .zero => o

/-- The five steps of 40_crc.md R111 on numbers, as the reference evaluator computes them. -/
def refUpdate (e : CrcExt) (acc o : Nat) : Nat :=
  let a1 := (acc / 256 + acc * 256) % 65536
  let a2 := a1 ^^^ refExtend e o
  let a3 := a2 ^^^ (a2 % 256) / 16
  let a4 := a3 ^^^ a3 * 4096 % 65536
  a4 ^^^ a4 % 256 * 32 % 65536

/-! ## The reference decoder (95_test_vectors.md Part 4) -/

/-- The decoder as a function of the octets that arrive: the octets stored so far, whether the last one was an
unescaped ESC, and the octets to come. Its value is the result, the stored octets and the octets left. -/
def refDecode (c : Config) : List Octet → Bool → List Octet → Result × List Octet × List Octet
  | st, _, [] => (.err .timeout, st, [])
  | st, true, o :: os =>
    if st.length = c.rxbufCap then (.err .bufferExceeded, st, os) else refDecode c (st ++ [o]) false os
  | st, false, o :: os =>
    if o = c.escOctet then refDecode c st true os
    else if o = c.endOctet then
      (if 2 ≤ st.length ∧ crcFold c st = 0 then .ok (.num (st.length - 2)) else .err .frameCorrupt, st, os)
    else if st.length = c.rxbufCap then (.err .bufferExceeded, st, os)
    else refDecode c (st ++ [o]) false os

/-- How many octets the decoder stores of those a log took from SQ: it stores them at 0, 1, and so on, each at RXCNT
(42_emulated_codec.md R168). -/
def storedBy (c : Config) (xs : List Xact) : Nat := (refDecode c [] false (xs.flatMap Xact.taken)).2.1.length

/-- A receiver accepts the frames of this payload (42_emulated_codec.md R173). -/
def frameAccepted (c : Config) (p : List Octet) : Prop :=
  c.crcExt = .zero ∨ ((hi (crcFold c p)).toNat < 0x80 ∧ (lo (crcFold c p)).toNat < 0x80)

/-! ## The invariant -/

/-- What an unfinished wait says of the rest of the state. -/
def waitFits (s : State) : Prop :=
  match s.wait with
  | none => s.nstate = .idle ∨ s.nstate = .done ∨ s.nstate = .failed
  | some .sense =>
    s.modeSet = true ∧ s.mode = .native ∧ (s.nstate = .idle ∨ s.nstate = .done ∨ s.nstate = .failed)
  | some (.natTx p) =>
    s.modeSet = true ∧ s.mode = .native ∧ s.nstate = .senseWait ∧ p.length ≤ s.cfg.mtu
  | some .brgAny => s.modeSet = true ∧ (s.nstate = .idle ∨ s.nstate = .done ∨ s.nstate = .failed)
  | some (.brgTx p) =>
    s.modeSet = true ∧ s.mode = .native ∧ s.nstate = .senseWait ∧ p.length ≤ s.cfg.mtu
  | some .reset => s.modeSet = true

/-- What holds between two steps. -/
structure StateInv (s : State) : Prop where
  /-- the parameters fit together (00_scope.md R9) -/
  cfgOk : s.cfg.ok
  /-- RXBUF keeps the canonical form -/
  rxbufWf : Memory.wf s.rxbuf
  /-- nothing is stored past RXBUF (20_memory.md R62) -/
  rxbufIn : Memory.below s.rxbuf s.cfg.rxbufCap
  /-- NBUF keeps the canonical form -/
  nbufWf : Memory.wf s.nbuf
  /-- nothing is stored past NBUF (20_memory.md R62) -/
  nbufIn : Memory.below s.nbuf s.cfg.nbufCap
  /-- the ranges of R20 -/
  rxcntIn : s.rxcnt ≤ s.cfg.rxbufCap
  ncntIn : s.ncnt ≤ s.cfg.nbufCap
  txidxIn : s.txidx ≤ s.cfg.mtu
  attemptIn : s.attempt ≤ s.cfg.retryMax
  /-- no decode is in progress between operations, unless the reset is due; ESCF is 0 (10_state.md R25) -/
  decoderAtRest : s.wait = some .reset ∨ s.dstate = .idle ∨ s.dstate = .done ∨ s.dstate = .failed
  /-- a frame that was decoded has its two trailer octets; an error discarded the buffer (42_emulated_codec.md R171) -/
  decoded : (s.dstate = .done → 2 ≤ s.rxcnt) ∧ (s.dstate = .failed → s.rxcnt = 0)
  /-- no encode is in progress between operations, unless the reset is due (10_state.md R29) -/
  encoderAtRest : s.wait = some .reset ∨ s.txphase = .idle ∨ s.txphase = .done ∨ s.txphase = .failed
  /-- the native transport is at rest, or polls the sense line (10_state.md R31) -/
  waitOk : waitFits s
  /-- the network interface delivers frames up to MTU (00_scope.md R14) -/
  netInFits : ∀ p ∈ s.netIn, p.length ≤ s.cfg.mtu
  /-- WIRE is the octets the writes have had accepted, in order (10_state.md R38) -/
  wireLogged : s.wire = wireOf s.trace

end Sys2Proof.Machine
end

