-- ==== Sys2Proof/Certificates/Slice0/Obligations.lean ====
section
/-! DEFINITION. The statements for the provers. "stated" and "derived", titles and citations are in
OBLIGATIONS.json. -/

open Sys2Proof Sys2Proof.Machine

/-! ## CRC16 -/

/-- CRC.INIT completes for every accepted request: only ACC and RESULT change, and ACC is the seed CRC_SEED at the
spec's N = 16; the block has N = 16 and the seed 0xFFFF from reset (R112, R9). -/
def Obligations.CrcInitSeedsAcc : Prop :=
  (∀ s : State, accepts .crcInit s = true →
    ∃ a, exec .crcInit s = .next { s with acc := a, result := .ok .unit } ∧
      (s.cfg.crcWidth = 16 → a = s.cfg.crcSeed)) ∧
  State.reset.cfg.crcWidth = 16 ∧ State.reset.cfg.crcSeed = 0xFFFF#16

/-- CRC.UPDATE completes for every accepted request: only ACC and RESULT change, the value is the new ACC, and
ACC is crc_update(ACC, o) at the spec's N = 16; with the corner cases and the example of R113. -/
def Obligations.CrcUpdateFeedsAcc : Prop :=
  (∀ (s : State) (o : Octet), accepts (.crcUpdate o) s = true →
    ∃ a, exec (.crcUpdate o) s = .next { s with acc := a, result := .ok (.num a.toNat) } ∧
      (s.cfg.crcWidth = 16 → a = crcUpdate s.cfg.crcExt s.acc o)) ∧
  crcUpdate .sign 0xFFFF#16 0xFF = 0 ∧
  ∀ e : CrcExt, crcUpdate e 0#16 0 = 0 ∧ crcUpdate e 0xFFFF#16 0x41 = 0xB915

/-- crc_update is the five steps of R111, computed on numbers by the reference evaluator. -/
def Obligations.CrcUpdateMatchesReference : Prop :=
  ∀ (e : CrcExt) (a : Word16) (o : Octet), (crcUpdate e a o).toNat = refUpdate e a.toNat o.toNat

/-- For every octet the update is a bijection; it gives 0 exactly when swap(a) = ext_16(o); steps 3 to 5 are a
bijection that sends only 0 to 0 (R118, which the spec derives from R111). -/
def Obligations.CrcUpdateIsBijection : Prop :=
  (∀ (e : CrcExt) (o : Octet), Function.Bijective fun a : Word16 => crcUpdate e a o) ∧
  (∀ (e : CrcExt) (a : Word16) (o : Octet), crcUpdate e a o = 0 ↔ swap a = extN 16 e o) ∧
  Function.Bijective (fun x : Word16 => crcMix x) ∧
  ∀ x : Word16, crcMix x = 0 ↔ x = 0

/-- The residue law: the accumulator after a receiver that stands at C consumes C's octets, high first; low first it
is not zero in general; at N = 16 a frame's residue is zero exactly under the side condition (R119, which the spec
derives from R111). -/
def Obligations.CrcResidueLaw : Prop :=
  (∀ c : Word16,
    crcUpdate .zero (crcUpdate .zero c (hi c)) (lo c) = 0 ∧
    crcUpdate .sign (crcUpdate .sign c (hi c)) (lo c) =
      crcMix (cat (if 0x80 ≤ (lo c).toNat then 0xFF else 0x00) (if 0x80 ≤ (hi c).toNat then 0xFF else 0x00)) ∧
    crcUpdate .sign (crcUpdate .sign c (hi c)) (lo c) =
      if (hi c).toNat < 0x80 then (if (lo c).toNat < 0x80 then 0x0000#16 else 0xFF00#16)
      else (if (lo c).toNat < 0x80 then 0x1EF0#16 else 0xE1F0#16)) ∧
  (∀ e : CrcExt, ∃ c : Word16, crcUpdate e (crcUpdate e c (lo c)) (hi c) ≠ 0) ∧
  ∀ (c : Config) (p : List Octet), c.crcWidth = 16 →
    (crcFold c (frameOctets p (crcFold c p)) = 0 ↔ frameAccepted c p)

/-- The two settings of CRC_EXT agree below 0x80 and differ by 0xFF00 at step 2 from 0x80 on; the hardware's value is
`sign` (R116, C2). -/
def Obligations.CrcExtensionsDiffer : Prop :=
  (∀ (a : Word16) (o : Octet),
    swap a = cat (lo a) (hi a) ∧
    (∀ e, crcUpdate e a o = crcMix (swap a ^^^ extN 16 e o)) ∧
    (o.toNat < 0x80 → swap a ^^^ extN 16 .sign o = swap a ^^^ extN 16 .zero o) ∧
    (0x80 ≤ o.toNat → swap a ^^^ extN 16 .sign o = swap a ^^^ extN 16 .zero o ^^^ 0xFF00#16) ∧
    (extN 16 .zero o).toNat = o.toNat) ∧
  State.reset.cfg.crcExt = .sign

/-- At N = 16, two sequences that differ in exactly one octet have different folds (R121, which the spec derives from
R118). -/
def Obligations.SingleOctetErrorChangesFold : Prop :=
  ∀ (c : Config) (xs ys : List Octet) (a b : Octet), c.crcWidth = 16 → a ≠ b →
    crcFold c (xs ++ a :: ys) ≠ crcFold c (xs ++ b :: ys)

/-! ## OCT and ECC -/

/-- TX.RAW with nothing pending (R132; the premises are R17's). On a bus that echoes while TX.RAW waits, exactly its
three transactions; whenever IdealEcho holds of what is logged and no read fails, the octet is on the wire, its
echo consumed, and RESULT is Ok; under NoEcho it ends in Busy, Timeout or IOError. -/
def Obligations.TxRawVerifiesEcho : Prop :=
  (∀ (s : State) (o : Octet) (rest : List Turn), accepts (.txRaw o) s = true → s.sq = [] →
    s.script = echoOf o ++ rest →
    exec (.txRaw o) s =
      .next { s with
        txlast := o
        wire := s.wire ++ [o]
        script := rest
        trace := s.trace ++
          [.serWrite [o] (.accepted 1), .arrive [o], .serWait s.cfg.tOctet .ready, .serRead 1 (some [o])]
        result := .ok .unit }) ∧
  (∀ (s t : State) (o : Octet), accepts (.txRaw o) s = true → s.sq = [] → exec (.txRaw o) s = .next t →
    t.wait = none → IdealEcho (since s t) → readsWork (since s t) →
    t.result = .ok .unit ∧ t.wire = s.wire ++ [o] ∧ t.sq = []) ∧
  (∀ (s t : State) (o : Octet), accepts (.txRaw o) s = true → s.sq = [] → exec (.txRaw o) s = .next t →
    t.wait = none → NoEcho (since s t) →
    (∃ e ∈ [Err.busy, .timeout, .ioError], t.result = .err e) ∧ t.sq = [])

/-- TX.RAW under any turns without reset: the checks in the order of R132, and the octet compared is the oldest in SQ,
whatever its origin (R133, R134, which the spec derives); TXLAST is the only register written. That the read goes
on wherever an octet has come, the wait's own failure notwithstanding, is deduced from R14 (log 9). -/
def Obligations.TxRawComparesOldestOctet : Prop :=
  ∀ (s : State) (o : Octet) (w a r : Turn) (rest : List Turn), accepts (.txRaw o) s = true →
    s.script = w :: a :: r :: rest → w.reset = false → a.reset = false → r.reset = false →
    ∃ t, exec (.txRaw o) s = .next t ∧ t.txlast = o ∧ t = s.withTx t ∧
      (w.fail = true → t.result = .err .ioError ∧ t.wire = s.wire ∧ t.sq = s.sq ++ w.rx) ∧
      (w.fail = false → w.short = some 0 →
        t.result = .err .busy ∧ t.wire = s.wire ∧ t.sq = s.sq ++ w.rx) ∧
      (w.fail = false → w.short ≠ some 0 →
        t.wire = s.wire ++ [o] ∧
        (s.sq ++ w.rx ++ a.rx = [] →
          t.sq = [] ∧ t.result = .err (if a.fail then .ioError else .timeout)) ∧
        ∀ e q, s.sq ++ w.rx ++ a.rx = e :: q →
          (r.fail = true → t.result = .err .ioError) ∧
          (r.fail = false → t.sq = q ++ r.rx ∧
            t.result = if e = o then .ok .unit else .err .lineContention))

/-- RX.RAW gives the oldest octet unchanged and takes only it; with none it times out, and a failing wait or read is
IOError; no register is written (R135). That the read goes on wherever an octet is in SQ, the wait's own failure
notwithstanding, is deduced from R14 (log 9). -/
def Obligations.RxRawReturnsOldestOctet : Prop :=
  ∀ (s : State) (a r : Turn) (rest : List Turn), accepts .rxRaw s = true → s.script = a :: r :: rest →
    a.reset = false → r.reset = false →
    ∃ t, exec .rxRaw s = .next t ∧ t = s.withChannels t ∧ t.wire = s.wire ∧
      (∀ o q, s.sq ++ a.rx = o :: q →
        (r.fail = false → t.result = .ok (.num o.toNat) ∧ t.sq = q ++ r.rx ∧ t.script = rest) ∧
        (r.fail = true → t.result = .err .ioError)) ∧
      (s.sq ++ a.rx = [] →
        t.result = .err (if a.fail then .ioError else .timeout) ∧ t.sq = [] ∧ t.script = r :: rest)

/-- FLUSH discards exactly the octets in SQ when it starts and keeps those that arrive while it runs; a failing read
is IOError; no register is written (R137; the snapshot and the IOError are the spec's decision D18, R138). -/
def Obligations.FlushDiscardsSnapshot : Prop :=
  (∀ (s : State) (first : Turn) (ts rest : List Turn), accepts .flush s = true →
    s.script = first :: ts ++ rest → ts.length = (s.sq ++ first.rx).length → first.reset = false →
    (∀ t ∈ ts, t.fail = false ∧ t.reset = false) →
    ∃ t, exec .flush s = .next t ∧ t.result = .ok (.num (s.sq ++ first.rx).length) ∧
      t.sq = ts.flatMap Turn.rx ∧ t.script = rest ∧ t = s.withChannels t ∧ t.wire = s.wire) ∧
  (∀ (s : State) (first bad : Turn) (ts rest : List Turn), accepts .flush s = true →
    s.script = first :: ts ++ bad :: rest → ts.length < (s.sq ++ first.rx).length → first.reset = false →
    (∀ t ∈ ts, t.fail = false ∧ t.reset = false) → bad.fail = true → bad.reset = false →
    ∃ t, exec .flush s = .next t ∧ t.result = .err .ioError ∧ t.script = rest ∧ t = s.withChannels t ∧
      t.wire = s.wire)

/-! ## EMU, encoder -/

/-- ENC.OCTET on a quiet, healthy bus puts the stuffed form of the octet on the wire and leaves ACC alone
(R152). -/
def Obligations.EncOctetWritesStuffedForm : Prop :=
  ∀ (s : State) (b : Octet) (rest : List Turn), accepts (.encOctet b) s = true → s.sq = [] →
    s.script = echoScript (stuff s.cfg b) ++ rest →
    ∃ t, exec (.encOctet b) s = .next t ∧ t.wire = s.wire ++ stuff s.cfg b ∧ t.result = .ok .unit ∧ t.sq = [] ∧
      t.txlast = b ∧ t.script = rest ∧ t = s.withTx t

/-- The two stuffed forms: `b` alone for an octet that needs no escape, ESC and `b` for END and ESC (R81). That
the forms are steps of their own is the model's choice (log 13). -/
def Obligations.StuffedFormsAreSent : Prop :=
  (∀ (s : State) (b : Octet) (rest : List Turn), accepts (.stuffPlain b) s = true → s.sq = [] →
    s.script = echoOf b ++ rest →
    ∃ t, exec (.stuffPlain b) s = .next t ∧ t.wire = s.wire ++ [b] ∧ t.result = .ok .unit ∧ t.sq = [] ∧
      t.script = rest ∧ t = s.withTx t) ∧
  (∀ (s : State) (b : Octet) (rest : List Turn), accepts (.stuffEscaped b) s = true → s.sq = [] →
    s.script = echoOf s.cfg.escOctet ++ echoOf b ++ rest →
    ∃ t, exec (.stuffEscaped b) s = .next t ∧ t.wire = s.wire ++ [s.cfg.escOctet, b] ∧ t.result = .ok .unit ∧
      t.sq = [] ∧ t.script = rest ∧ t = s.withTx t)

/-- ENC.FRAME whatever stale octets SQ holds, when the bus echoes each octet while its TX.RAW waits: they are drained,
exactly the frame is on the wire, every echo is consumed, and the value is n (R156, R157). With nothing pending the
same holds whenever IdealEcho (R17) holds of what is logged and no read fails. -/
def Obligations.EncFrameSendsFrame : Prop :=
  (∀ (s : State) (p : List Octet) (rest : List Turn), accepts (.encFrame p) s = true →
    s.script = quiet (s.sq.length + 1) ++ echoScript (eframeWire s.cfg p) ++ rest →
    ∃ t, exec (.encFrame p) s = .next t ∧ t.wire = s.wire ++ eframeWire s.cfg p ∧
      t.result = .ok (.num p.length) ∧ t.sq = [] ∧ t.acc = crcFold s.cfg p ∧ t.txphase = .done ∧
      t.txlast = s.cfg.endOctet ∧ t.txidx = (if p = [] then s.txidx else p.length - 1) ∧ t.script = rest ∧
      t = s.withEnc t) ∧
  (∀ (s t : State) (p : List Octet), accepts (.encFrame p) s = true → s.sq = [] →
    exec (.encFrame p) s = .next t → t.wait = none → IdealEcho (since s t) → readsWork (since s t) →
    t.wire = s.wire ++ eframeWire s.cfg p ∧ t.result = .ok (.num p.length) ∧ t.sq = [] ∧
      t.acc = crcFold s.cfg p ∧ t.txphase = .done)

/-- EFRAME, the part of ENC.FRAME after the drain (R82); as a step of its own, the model's choice (log 13). -/
def Obligations.EframeSendsFrame : Prop :=
  ∀ (s : State) (p : List Octet) (rest : List Turn), accepts (.eframe p) s = true → s.sq = [] →
    s.script = echoScript (eframeWire s.cfg p) ++ rest →
    ∃ t, exec (.eframe p) s = .next t ∧ t.wire = s.wire ++ eframeWire s.cfg p ∧
      t.result = .ok (.num p.length) ∧ t.sq = [] ∧ t.acc = crcFold s.cfg p ∧ t.txphase = .done ∧
      t.script = rest ∧ t = s.withEnc t

/-- Whatever the environment does, ENC.FRAME puts a prefix of the frame on the wire and nothing else, and after the
first octet-level error it does nothing more on the channels (R158). It ends Ok with the whole frame on the wire
and no such error, or with that error and TXPHASE Failed; or the reset input has cut it (log 18). -/
def Obligations.EncFrameLeavesFramePrefix : Prop :=
  ∀ (s : State) (p : List Octet) (t : State), accepts (.encFrame p) s = true →
    exec (.encFrame p) s = .next t →
    t.wire = s.wire ++ wireOf (since s t) ∧ wireOf (since s t) <+: eframeWire s.cfg p ∧
    (∀ e xs, firstError none (since s t) = some (e, xs) → xs = []) ∧
    (t.wait = none ∨ t.wait = some .reset) ∧
    (t.wait = none →
      (t.txphase = .done ∧ t.result = .ok (.num p.length) ∧ attemptOk s.cfg p (since s t)) ∨
      (t.txphase = .failed ∧ ∃ e ∈ transmitErrors, t.result = .err e ∧
        firstError none (since s t) = some (e, [])))

/-- The length of an emulated frame: n + 3 + e, at least 3 and at most 2 * (MTU + 2) + 1; the empty frame (R84, which
the spec derives from R81 and R82). -/
def Obligations.EframeLength : Prop :=
  (∀ (c : Config) (p : List Octet),
    (eframeWire c p).length = p.length + 3 + (frameOctets p (crcFold c p)).countP (needsEsc c) ∧
    3 ≤ (eframeWire c p).length ∧
    ∀ mtu, p.length ≤ mtu → (eframeWire c p).length ≤ 2 * (mtu + 2) + 1) ∧
  eframeWire State.reset.cfg [] = [0xFE, 0xFF, 0xFE, 0xFF, 0xFF]

/-! ## EMU, decoder -/

/-- SYM.DATA stores the octet and feeds it to ACC, by crc_update at the spec's N = 16, or overflows at a full buffer
(R164, R168, R170, D4); no other octet of RXBUF changes. As a step of its own, with RESULT written on the error, the
model's choice (log 13). -/
def Obligations.SymDataStores : Prop :=
  ∀ (s : State) (o : Octet), accepts (.symData o) s = true →
    (s.rxcnt = s.cfg.rxbufCap →
      exec (.symData o) s =
        .next { s with dstate := .failed, rxcnt := 0, result := .err .bufferExceeded }) ∧
    (s.rxcnt ≠ s.cfg.rxbufCap → Memory.wf s.rxbuf →
      ∃ m a, exec (.symData o) s = .next { s with rxbuf := m, rxcnt := s.rxcnt + 1, acc := a } ∧
        (s.cfg.crcWidth = 16 → a = crcUpdate s.cfg.crcExt s.acc o) ∧
        Memory.read m s.rxcnt = o ∧ agreeOutside s.rxbuf m (· = s.rxcnt))

/-- SYM.LIT stores any octet verbatim, feeds it to ACC, by crc_update at the spec's N = 16, and clears the escape
flag, or overflows (R167, R168, R170, D4). As a step of its own, with RESULT written on the error, the model's choice
(log 13). -/
def Obligations.SymLitStoresVerbatim : Prop :=
  ∀ (s : State) (o : Octet), accepts (.symLit o) s = true →
    (s.rxcnt = s.cfg.rxbufCap →
      exec (.symLit o) s =
        .next { s with dstate := .failed, rxcnt := 0, result := .err .bufferExceeded }) ∧
    (s.rxcnt ≠ s.cfg.rxbufCap → Memory.wf s.rxbuf →
      ∃ m a, exec (.symLit o) s =
          .next { s with dstate := .awaitOctet, rxbuf := m, rxcnt := s.rxcnt + 1, acc := a } ∧
        (s.cfg.crcWidth = 16 → a = crcUpdate s.cfg.crcExt s.acc o) ∧
        Memory.read m s.rxcnt = o ∧ agreeOutside s.rxbuf m (· = s.rxcnt))

/-- SYM.ESC sets the escape flag and does nothing else, even at a full buffer (R165). As a step of its own, the
model's choice (log 13). -/
def Obligations.SymEscSetsEscape : Prop :=
  ∀ s : State, accepts .symEsc s = true →
    exec .symEsc s = .next { s with dstate := .escaped } ∧
    State.escf s = false ∧ State.escf { s with dstate := .escaped } = true

/-- SYM.END: the payload length when at least two octets are stored and the residue is zero, else FrameCorrupt
with the buffer discarded (R166; the test on the count is the spec's decision D16). As a step of its own, the
model's choice (log 13). -/
def Obligations.SymEndJudgesFrame : Prop :=
  ∀ s : State, accepts .symEnd s = true →
    (2 ≤ s.rxcnt → s.acc = 0 →
      exec .symEnd s = .next { s with dstate := .done, result := .ok (.num (s.rxcnt - 2)) }) ∧
    (s.rxcnt < 2 ∨ s.acc ≠ 0 →
      exec .symEnd s =
        .next { s with dstate := .failed, rxcnt := 0, result := .err .frameCorrupt })

/-- DEC.FRAME refines the reference decoder of Part 4, as written in Safety.lean, which has the spec's decisions D4
(overflow) and D16 (fewer than two octets stored) in it. For octets that wait in SQ under quiet turns, and for
octets os that come as Script(os) (R17) has them come: the result, the octets consumed and, when a frame is accepted,
the octets stored are the reference's. -/
def Obligations.DecFrameRefinesReference : Prop :=
  (∀ (s : State) (rest : List Turn), accepts .decFrame s = true → Memory.wf s.rxbuf →
    s.script = quiet (2 * s.sq.length + 1) ++ rest →
    ∃ t, exec .decFrame s = .next t ∧
      t.result = (refDecode s.cfg [] false s.sq).1 ∧
      t.sq = (refDecode s.cfg [] false s.sq).2.2 ∧
      (t.dstate = .done → Memory.prefixOf t.rxbuf t.rxcnt = (refDecode s.cfg [] false s.sq).2.1) ∧
      (t.dstate = .done ∨ t.dstate = .failed) ∧
      t = s.withDec t ∧ t.wire = s.wire) ∧
  (∀ (s t : State) (os : List Octet), accepts .decFrame s = true → Memory.wf s.rxbuf → s.sq = [] →
    exec .decFrame s = .next t → t.wait = none → Script os (since s t) → readsWork (since s t) →
    t.result = (refDecode s.cfg [] false os).1 ∧
      (since s t).flatMap Xact.taken ++ (refDecode s.cfg [] false os).2.2 = os ∧
      (t.dstate = .done → Memory.prefixOf t.rxbuf t.rxcnt = (refDecode s.cfg [] false os).2.1))

/-- The round-trip law with its true side condition, at the spec's N = 16: DEC.FRAME on the frame of p, whatever follows
it, consumes exactly the frame, and accepts it exactly when CRC_EXT is zero or both CRC octets are below 0x80 (R173,
which the spec derives). -/
def Obligations.DecFrameRoundTrip : Prop :=
  ∀ (s : State) (p tail : List Octet) (rest : List Turn), accepts .decFrame s = true → s.cfg.ok →
    s.cfg.crcWidth = 16 → Memory.wf s.rxbuf → p.length ≤ s.cfg.mtu → s.sq = eframeWire s.cfg p ++ tail →
    s.script = quiet (2 * (eframeWire s.cfg p).length) ++ rest →
    ∃ t, exec .decFrame s = .next t ∧ t.sq = tail ∧ t.script = rest ∧
      Memory.prefixOf t.rxbuf (p.length + 2) = p ++ trailer (crcFold s.cfg p) ∧
      (frameAccepted s.cfg p →
        t.result = .ok (.num p.length) ∧ Memory.prefixOf t.rxbuf p.length = p ∧ t.rxcnt = p.length + 2 ∧
          t.acc = 0 ∧ t.dstate = .done) ∧
      (¬ frameAccepted s.cfg p →
        t.result = .err .frameCorrupt ∧ t.rxcnt = 0 ∧ t.dstate = .failed)

/-- DEC.FRAME always ends: from the start step 2 * RXBUF_CAP + 2 octets suffice, whatever the environment does,
so a larger bound changes nothing (R302, the row of DEC.FRAME, which the spec derives). -/
def Obligations.DecFrameEndsWithinBound : Prop :=
  ∀ (s : State) (k : Nat),
    decLoop (2 * s.cfg.rxbufCap + 2 + k) (decStart s) = decLoop (2 * s.cfg.rxbufCap + 2) (decStart s)

/-- However DEC.FRAME ends, under any environment: nothing was written to the wire and ESCF is 0; on Ok the frame
fits the buffer, and MTU where RXBUF_CAP = MTU + 2, its residue was zero and its trailer is counted; on an error the
buffer is discarded (R169, R252; the discarded buffer as a count of 0 is the spec's decision D11, R171). Only the
reset input leaves it in progress (log 18). -/
def Obligations.DecFrameEndsAtRest : Prop :=
  ∀ s t : State, accepts .decFrame s = true → exec .decFrame s = .next t →
    t.wire = s.wire ∧ (t.wait = none ∨ t.wait = some .reset) ∧
    (t.wait = none →
      State.escf t = false ∧
      ((∃ n, t.result = .ok (.num n) ∧ t.dstate = .done ∧ t.rxcnt = n + 2 ∧ n + 2 ≤ s.cfg.rxbufCap ∧
          (s.cfg.ok → n ≤ s.cfg.mtu) ∧ t.acc = 0) ∨
       (∃ e ∈ mayRaise .decFrame, t.result = .err e ∧ t.dstate = .failed ∧ t.rxcnt = 0)))

/-- Each frame operation initialises what it uses, whatever the previous operation was and however it ended
(R284): DEC.FRAME does not depend on ACC, RXCNT or DSTATE; ENC.FRAME does not depend on ACC, TXPHASE or TXLAST,
which differ afterwards only where it failed in its drain. -/
def Obligations.FrameOperationsStartAfresh : Prop :=
  (∀ (s : State) (a : Word16) (n : Nat) (d : DState), accepts .decFrame s = true →
    exec .decFrame { s with acc := a, rxcnt := n, dstate := d } = exec .decFrame s) ∧
  ∀ (s t : State) (p : List Octet) (a : Word16) (x : TxPhase) (l : Octet), accepts (.encFrame p) s = true →
    exec (.encFrame p) s = .next t →
    ∃ t', exec (.encFrame p) { s with acc := a, txphase := x, txlast := l } = .next t' ∧
      (t.txphase = .done → t' = t) ∧ t' = { t with acc := t'.acc, txlast := t'.txlast }

/-! ## NAT -/

/-- RD.BYTES gathers exactly k octets in arrival order and leaves the rest in SQ, however many octets each read
returns (R192, R194). -/
def Obligations.RdBytesGathers : Prop :=
  ∀ (s : State) (k : Word16), accepts (.rdBytes k) s = true → Memory.wf s.nbuf → still s.script →
    2 * k.toNat ≤ s.script.length → k.toNat ≤ s.sq.length →
    ∃ t, exec (.rdBytes k) s = .next t ∧ t.result = .ok (.inNbuf k.toNat) ∧
      Memory.prefixOf t.nbuf k.toNat = s.sq.take k.toNat ∧ t.ncnt = k.toNat ∧ t.sq = s.sq.drop k.toNat ∧
      t = s.withRead t ∧ t.wire = s.wire

/-- RD.BYTES with too few octets fails with Timeout and the octets it took are lost (R193). -/
def Obligations.RdBytesLosesPartialRead : Prop :=
  ∀ (s : State) (k : Word16), accepts (.rdBytes k) s = true → still s.script →
    2 * k.toNat ≤ s.script.length → s.sq.length < k.toNat →
    ∃ t, exec (.rdBytes k) s = .next t ∧ t.result = .err .timeout ∧ t.sq = [] ∧ t.delivered = s.delivered

/-- NAT.RX on a native frame of at most MTU octets delivers its payload unchanged and leaves what follows it in SQ;
with only a part of the frame there it ends in Timeout, and with a failing NetWrite in IOError, NSTATE Failed and
nothing delivered (R196, R197, R199); and under any environment it ends in one of these ways or discards. That the
empty payload is delivered as an empty frame is the spec's decision D19 (log 27). -/
def Obligations.NatRxDeliversOrFails : Prop :=
  (∀ (s : State) (p q : List Octet), accepts .natRx s = true → s.cfg.ok → Memory.wf s.nbuf →
    p.length ≤ s.cfg.mtu → s.sq = nframeWire p ++ q → still s.script →
    2 * (p.length + 2) + 1 ≤ s.script.length →
    ∃ t, exec .natRx s = .next t ∧ t.result = .ok (.delivered p.length) ∧
      t.delivered = s.delivered ++ [p] ∧ t.sq = q ∧ t.len = lenOf p ∧ t.ncnt = p.length ∧ t.nstate = .done ∧
      t = s.withNatRx t ∧ t.wire = s.wire) ∧
  (∀ (s : State) (p : List Octet), accepts .natRx s = true → s.cfg.ok → Memory.wf s.nbuf →
    p.length ≤ s.cfg.mtu → s.sq <+: nframeWire p → s.sq ≠ nframeWire p → still s.script →
    2 * (p.length + 2) + 1 ≤ s.script.length →
    ∃ t, exec .natRx s = .next t ∧ t.result = .err .timeout ∧ t.delivered = s.delivered ∧ t.sq = [] ∧
      t.nstate = .failed ∧ t = s.withNatRx t ∧ t.wire = s.wire) ∧
  (∀ (s : State) (p q : List Octet) (bad : Turn) (rest : List Turn), accepts .natRx s = true → s.cfg.ok →
    Memory.wf s.nbuf → p.length ≤ s.cfg.mtu → s.sq = nframeWire p ++ q → bad.fail = true → bad.reset = false →
    s.script = quiet (if p = [] then 2 else 4) ++ bad :: rest →
    ∃ t, exec .natRx s = .next t ∧ t.result = .err .ioError ∧ t.delivered = s.delivered ∧ t.sq = q ++ bad.rx ∧
      t.nstate = .failed ∧ t = s.withNatRx t ∧ t.wire = s.wire) ∧
  (∀ s t : State, accepts .natRx s = true → exec .natRx s = .next t → t.wait = none →
    (∃ n, t.result = .ok (.delivered n) ∧ n = t.len.toNat ∧ n ≤ s.cfg.mtu ∧ t.nstate = .done ∧
      t.delivered = s.delivered ++ [Memory.prefixOf t.nbuf n]) ∨
    (t.result = .ok .discarded ∧ s.cfg.mtu < t.len.toNat ∧ t.nstate = .done ∧ t.delivered = s.delivered) ∨
    (∃ e ∈ mayRaise .natRx, t.result = .err e ∧ t.nstate = .failed ∧ t.delivered = s.delivered))

/-- NAT.RX on a length above MTU discards the attempt silently: no error, nothing delivered, nothing further
read (R198). -/
def Obligations.NatRxDiscardsOversize : Prop :=
  ∀ (s : State) (n : Word16) (q : List Octet), accepts .natRx s = true → Memory.wf s.nbuf →
    s.cfg.mtu < n.toNat → s.sq = pair n ++ q → still s.script → 4 ≤ s.script.length →
    ∃ t, exec .natRx s = .next t ∧ t.result = .ok .discarded ∧ t.delivered = s.delivered ∧ t.sq = q ∧
      t.len = n ∧ t.nstate = .done ∧ t = s.withNatRx t

/-- The two prefix classes (R94): NAT.LEN.OK reads and delivers n octets, NAT.LEN.OVER reads nothing. As steps of
their own, the model's choice (log 13); the empty frame of n = 0 is the spec's decision D19 (log 27). -/
def Obligations.NatLenClassesAct : Prop :=
  (∀ (s : State) (n : Word16), accepts (.natLenOk n) s = true → Memory.wf s.nbuf → still s.script →
    2 * n.toNat + 1 ≤ s.script.length → n.toNat ≤ s.sq.length →
    ∃ t, exec (.natLenOk n) s = .next t ∧ t.result = .ok (.delivered n.toNat) ∧
      t.delivered = s.delivered ++ [s.sq.take n.toNat] ∧ t.sq = s.sq.drop n.toNat ∧ t.len = n ∧
      t.nstate = .done ∧ t = s.withNatRx t) ∧
  (∀ (s : State) (n : Word16), accepts (.natLenOver n) s = true →
    exec (.natLenOver n) s = .next { s with len := n, nstate := .done, result := .ok .discarded })

/-- SENSE.POLL ends when the level read is the ready one: at once, or after k waits, each ended by an edge or by its
bound and followed by a new read of the level; with Timeout after NAT_WAIT_LIMIT waits where that is finite; with
IOError when a level read or a wait fails. It writes no register (R200; the Timeout is the spec's decision D7). -/
def Obligations.SensePollFollowsLevel : Prop :=
  (∀ (s : State) (rest : List Turn), accepts .sensePoll s = true → s.sense = s.cfg.senseReady →
    s.script = {} :: rest →
    exec .sensePoll s =
      .next { s with
        script := rest
        trace := s.trace ++ [.senseLevel (some s.cfg.senseReady)]
        result := .ok .unit }) ∧
  ∀ (s : State) (k : Nat) (ts : List Turn) (a : Turn) (rest : List Turn), accepts .sensePoll s = true →
    s.script = ts ++ a :: rest → ts.length = 2 * k → still ts → a.rx = [] → a.reset = false →
    (∀ j < k, senseAfter s.sense (ts.take (2 * j + 1)) ≠ s.cfg.senseReady) →
    (∀ l, s.cfg.natWaitLimit = some l → k ≤ l) →
    (a.fail = false → senseAfter s.sense (ts ++ [a]) = s.cfg.senseReady →
      ∃ t, exec .sensePoll s = .next t ∧ t.result = .ok .unit ∧ t.sense = s.cfg.senseReady ∧ t.script = rest ∧
        t.trace = s.trace ++ pollLog s.cfg ts ++ [.senseLevel (some s.cfg.senseReady)] ∧
        t = s.withChannels t) ∧
    (a.fail = false → senseAfter s.sense (ts ++ [a]) ≠ s.cfg.senseReady → s.cfg.natWaitLimit = some k →
      ∃ t, exec .sensePoll s = .next t ∧ t.result = .err .timeout ∧ t.script = rest ∧
        t.trace = s.trace ++ pollLog s.cfg ts ++ [.senseLevel (some !s.cfg.senseReady)] ∧
        t = s.withChannels t) ∧
    (a.fail = true →
      ∃ t, exec .sensePoll s = .next t ∧ t.result = .err .ioError ∧ t.script = rest ∧
        t.trace = s.trace ++ pollLog s.cfg ts ++ [.senseLevel none] ∧ t = s.withChannels t) ∧
    (∀ w rest', a.fail = false → senseAfter s.sense (ts ++ [a]) ≠ s.cfg.senseReady →
      s.cfg.natWaitLimit ≠ some k → rest = w :: rest' → w.fail = true → w.rx = [] → w.reset = false →
      ∃ t, exec .sensePoll s = .next t ∧ t.result = .err .ioError ∧ t.script = rest' ∧
        t.trace = s.trace ++ pollLog s.cfg ts ++
          [.senseLevel (some !s.cfg.senseReady), .senseWait s.cfg.tSense .fail] ∧
        t = s.withChannels t)

/-- NAT.TX with the line ready: one write of the prefix and the payload; all accepted is Ok(n), nothing accepted
is Busy, part of it is IOError with the accepted octets on the wire, a failing write is IOError; SQ is not read and
the line is not looked at again (R202; the outcomes of a short write are the spec's decision D20, R203). Where
IdealEcho (R17) holds of what is logged and the write is reached, the whole frame is on the wire. -/
def Obligations.NatTxWritesFrame : Prop :=
  (∀ (s : State) (p : List Octet) (a w : Turn) (rest : List Turn), accepts (.natTx p) s = true →
    s.script = a :: w :: rest → a.fail = false → a.reset = false → w.reset = false →
    (s.sense ^^ decide (a.flips % 2 = 1)) = s.cfg.senseReady →
    ∃ t, exec (.natTx p) s = .next t ∧ t.sq = s.sq ++ a.rx ++ w.rx ∧ t.script = rest ∧ t = s.withNatTx t ∧
      (w.fail = true → t.result = .err .ioError ∧ t.nstate = .failed ∧ t.wire = s.wire) ∧
      (w.fail = false →
        t.wire = s.wire ++ (nframeWire p).take (w.short.getD (p.length + 2)) ∧
        (p.length + 2 ≤ w.short.getD (p.length + 2) →
          t.result = .ok (.num p.length) ∧ t.nstate = .done ∧ t.wire = s.wire ++ nframeWire p) ∧
        (w.short = some 0 → t.result = .err .busy ∧ t.nstate = .failed) ∧
        (∀ k, w.short = some k → 0 < k → k < p.length + 2 →
          t.result = .err .ioError ∧ t.nstate = .failed))) ∧
  (∀ (s t : State) (p : List Octet) (out : WriteOut), accepts (.natTx p) s = true → exec (.natTx p) s = .next t →
    t.wait = none → IdealEcho (since s t) → Xact.serWrite (nframeWire p) out ∈ since s t →
    t.result = .ok (.num p.length) ∧ t.wire = s.wire ++ nframeWire p ∧ t.nstate = .done)

/-- NFRAME, the write of NAT.TX (R92); as a step of its own, the model's choice (log 13). -/
def Obligations.NframeWritesFrame : Prop :=
  ∀ (s : State) (p : List Octet) (rest : List Turn), accepts (.nframe p) s = true →
    s.script = {} :: rest →
    exec (.nframe p) s =
      .next { s with
        nstate := .done
        wire := s.wire ++ nframeWire p
        script := rest
        trace := s.trace ++ [.serWrite (nframeWire p) (.accepted (p.length + 2))]
        result := .ok (.num p.length) }

/-- The waits without bound (R302, R303; under an unbounded NAT_WAIT_LIMIT, the spec's decision D7). On a line that is
never ready SENSE.POLL, NAT.TX and BRG.STEP in its NAT.TX stay in progress, and so does BRG.STEP while neither side
is readable; a later step leaves them so, with nothing issued and nothing written; and it takes up the wait where it
was, so that the operation ends when the line, or a side, becomes ready. That such a wait is cut into steps is the
model's choice (log 10). -/
def Obligations.UnboundedPollKeepsWaiting : Prop :=
  (∀ (s : State) (k : Nat), s.cfg.natWaitLimit = none → s.sense ≠ s.cfg.senseReady → 0 < k →
    (accepts .sensePoll s = true → s.script = quiet (2 * k) →
      ∃ t, exec .sensePoll s = .next t ∧ t.wait = some .sense ∧ t.wire = s.wire ∧ t.result = s.result ∧
        t.sense = s.sense ∧ t.script = []) ∧
    (∀ p, accepts (.natTx p) s = true → s.script = quiet (2 * k) →
      ∃ t, exec (.natTx p) s = .next t ∧ t.wait = some (.natTx p) ∧ t.nstate = .senseWait ∧ t.wire = s.wire ∧
        t.result = s.result ∧ t.sense = s.sense ∧ t.script = []) ∧
    (∀ p ps, accepts .brgStep s = true → s.mode = .native → s.sq = [] → s.netIn = p :: ps →
      s.script = quiet (2 * k + 2) →
      ∃ t, exec .brgStep s = .next t ∧ t.wait = some (.brgTx p) ∧ t.netIn = ps ∧ t.nstate = .senseWait ∧
        t.wire = s.wire ∧ t.result = s.result ∧ t.sense = s.sense ∧ t.script = [])) ∧
  (∀ (s : State) (k : Nat), accepts .brgStep s = true → s.netIn = [] → s.sq = [] → 0 < k → s.script = quiet k →
    exec .brgStep s = .next { s with wait := some .brgAny, script := [] }) ∧
  (∀ (s : State) (w : Wait) (k : Nat), s.wait = some w → s.halted = false → s.issue.head? ≠ some .reset →
    0 < k → s.script = quiet (2 * k) →
    (w = .brgAny → s.netIn = [] → s.sq = [] → step s = .next { s with script := [] }) ∧
    ((w = .sense ∨ ∃ p, w = .natTx p ∨ w = .brgTx p) → s.cfg.natWaitLimit = none →
      s.sense ≠ s.cfg.senseReady →
      ∃ t, step s = .next t ∧ t.wait = some w ∧ t.issue = s.issue ∧ t.wire = s.wire ∧ t.result = s.result ∧
        t.sense = s.sense ∧ t.script = [])) ∧
  (∀ s : State, s.halted = false → s.issue.head? ≠ some .reset → s.modeSet = true →
    (s.wait = some .sense → s.mode = .native → step s = exec .sensePoll { s with wait := none }) ∧
    (∀ p, s.wait = some (.natTx p) → s.mode = .native → p.length ≤ s.cfg.mtu →
      step s = exec (.natTx p) { s with wait := none }) ∧
    (s.wait = some .brgAny → step s = exec .brgStep { s with wait := none })) ∧
  (∀ (s : State) (p : List Octet) (a : Turn) (rest : List Turn), s.wait = some (.brgTx p) → s.halted = false →
    s.issue.head? ≠ some .reset → s.script = a :: {} :: rest → a.fail = false → a.reset = false →
    (s.sense ^^ decide (a.flips % 2 = 1)) = s.cfg.senseReady →
    ∃ t, step s = .next t ∧ t.wait = none ∧ t.result = .ok .unit ∧ t.wire = s.wire ++ nframeWire p ∧
      t.nstate = .done ∧ t.issue = s.issue ∧ t.halted = false ∧ t.script = rest)

/-! ## Host agent -/

/-- MODE.SET writes MODE once after reset; a second one is refused (R221, the spec's decision D17). -/
def Obligations.ModeSetOnce : Prop :=
  (∀ (s : State) (m : Mode), accepts (.modeSet m) s = true →
    exec (.modeSet m) s = .next { s with mode := m, modeSet := true, result := .ok .unit }) ∧
  (∀ (s : State) (m : Mode), s.modeSet = true →
    exec (.modeSet m) s = .next { s with result := .err .ioError })

/-- TAP2TTY whose first attempt succeeds: the frame is sent once, without a sleep (R226). -/
def Obligations.Tap2ttySendsFrame : Prop :=
  ∀ (s : State) (p : List Octet) (rest : List Turn), accepts (.tap2tty p) s = true →
    s.script = quiet (s.sq.length + 1) ++ echoScript (eframeWire s.cfg p) ++ rest →
    ∃ t, exec (.tap2tty p) s = .next t ∧ t.result = .ok .sent ∧ t.attempt = 0 ∧
      t.wire = s.wire ++ eframeWire s.cfg p ∧ t.sleeps = s.sleeps ∧ t.sq = [] ∧ t.script = rest ∧
      t = s.withTap t

/-- TAP2TTY never raises, and only the reset input leaves it in progress, whatever the environment does: what it did
on the channels is at most RETRY_MAX + 1 attempts with one backoff between each two, none before the first and none
after the last; every attempt but the last failed; Sent when the last went through, with the whole frame on the
wire, Dropped, with one entry in the log, when all RETRY_MAX + 1 failed (R226, R227). -/
def Obligations.Tap2ttyNeverRaises : Prop :=
  ∀ (s : State) (p : List Octet) (t : State), accepts (.tap2tty p) s = true →
    exec (.tap2tty p) s = .next t →
    t.wire = s.wire ++ wireOf (since s t) ∧ (t.wait = none ∨ t.wait = some .reset) ∧
    (t.wait = none →
      ∃ (fs : List (List Xact)) (a : List Xact) (bs : List (List Xact)),
        fs.length = t.attempt ∧ bs.length = t.attempt ∧ t.attempt ≤ s.cfg.retryMax ∧
        (∀ f ∈ fs, attemptFailed s.cfg p f) ∧ (∀ b ∈ bs, isBackoff s.cfg b) ∧
        ((t.result = .ok .sent ∧ since s t = interleave (fs ++ [a]) bs ∧ attemptOk s.cfg p a) ∨
         (t.result = .ok .dropped ∧ since s t = interleave (fs ++ [a]) bs ++ [.logDropped] ∧
           attemptFailed s.cfg p a ∧ t.attempt = s.cfg.retryMax)))

/-- BRG.STEP with a frame at the network interface sends it on the path of the mode; in Emulated mode the network
interface is served first even when SQ is not empty (R223; the choice is the spec's decision D21, R224). -/
def Obligations.BrgStepTransmits : Prop :=
  (∀ (s : State) (p : List Octet) (ps : List (List Octet)) (rest : List Turn), accepts .brgStep s = true →
    s.mode = .emulated → s.netIn = p :: ps →
    s.script = quiet (s.sq.length + 3) ++ echoScript (eframeWire s.cfg p) ++ rest →
    ∃ t, exec .brgStep s = .next t ∧ t.result = .ok .unit ∧ t.netIn = ps ∧ t.sq = [] ∧
      t.wire = s.wire ++ eframeWire s.cfg p ∧ t.halted = s.halted ∧ t.script = rest) ∧
  (∀ (s : State) (p : List Octet) (ps : List (List Octet)) (rest : List Turn), accepts .brgStep s = true →
    s.mode = .native → s.netIn = p :: ps → s.sense = s.cfg.senseReady → s.script = quiet 4 ++ rest →
    ∃ t, exec .brgStep s = .next t ∧ t.result = .ok .unit ∧ t.netIn = ps ∧ t.sq = s.sq ∧
      t.wire = s.wire ++ nframeWire p ∧ t.halted = s.halted ∧ t.script = rest)

/-- BRG.STEP on the serial side receives one frame on the path of the mode and delivers it exactly once; a frame that
the decoder rejects is dropped without an error (R223, R224, R228). Which frames it accepts at the spec's N = 16 is
the law the spec derives (R173); the choice of the serial side when both are ready in Native mode is the spec's
decision D21, and the delivery of an empty native frame its decision D19 (log 27). -/
def Obligations.BrgStepReceives : Prop :=
  (∀ (s : State) (p tail : List Octet) (rest : List Turn), accepts .brgStep s = true → s.cfg.ok →
    s.cfg.crcWidth = 16 → s.mode = .emulated → s.netIn = [] → Memory.wf s.rxbuf → p.length ≤ s.cfg.mtu →
    s.sq = eframeWire s.cfg p ++ tail →
    s.script = quiet (2 * (eframeWire s.cfg p).length + 2) ++ rest →
    ∃ t, exec .brgStep s = .next t ∧ t.result = .ok .unit ∧ t.sq = tail ∧ t.wire = s.wire ∧
      t.halted = s.halted ∧
      (frameAccepted s.cfg p → t.delivered = s.delivered ++ [p]) ∧
      (¬ frameAccepted s.cfg p → t.delivered = s.delivered)) ∧
  (∀ (s : State) (p q : List Octet) (b : Bool) (ts : List Turn), accepts .brgStep s = true → s.cfg.ok →
    s.mode = .native → (s.netIn = [] ∨ b = true) → Memory.wf s.nbuf → p.length ≤ s.cfg.mtu →
    s.sq = nframeWire p ++ q → s.script = { serFirst := b } :: ts → still ts →
    2 * (p.length + 2) + 1 ≤ ts.length →
    ∃ t, exec .brgStep s = .next t ∧ t.result = .ok .unit ∧ t.sq = q ∧ t.wire = s.wire ∧
      t.halted = s.halted ∧ t.delivered = s.delivered ++ [p])

/-- The only error of BRG.STEP is the fatal IOError, after which the host issues nothing until reset (R229, the spec's
decision D23; that a step then faults is the model's choice, log 17). -/
def Obligations.BrgStepErrorIsFatal : Prop :=
  (∀ s t : State, accepts .brgStep s = true → exec .brgStep s = .next t → t.wait = none →
    (t.result = .ok .unit ∧ t.halted = s.halted) ∨ (t.result = .err .ioError ∧ t.halted = true)) ∧
  (∀ s : State, s.halted = true → s.issue.head? ≠ some .reset → step s = .fault .hostStopped)

/-! ## The whole machine -/

/-- A request outside the described use is refused: no transaction, nothing changes but RESULT (R97, the spec's
decision D17). `accepts`
lists the grounds: an operation in progress, before MODE.SET, a second MODE.SET, the other mode, n > MTU,
k > max(MTU, 2); the reserved code 0x0 is refused alike. -/
def Obligations.RefusedRequestsChangeOnlyResult : Prop :=
  (∀ (i : Instr) (s : State), formatOf i = .cmd4 → accepts i s = false →
    exec i s = .next { s with result := .err .ioError }) ∧
  (∀ (s : State) (c : Octet) (w : List Octet) (rest : List Issue),
    s.issue = .word .cmd4 (c :: w) :: rest → s.halted = false → s.wait = none → c.toNat = 0 →
    step s = .next { s with issue := rest, result := .err .ioError })

/-- The model's choice (logs 12, 14): a step inside an operation that is not selected, and a command octet above 0xF,
are refused like R97's requests. -/
def Obligations.UnselectedStepsAreRefused : Prop :=
  (∀ (i : Instr) (s : State), formatOf i ≠ .cmd4 → accepts i s = false →
    exec i s = .next { s with result := .err .ioError }) ∧
  (∀ (s : State) (c : Octet) (w : List Octet) (rest : List Issue),
    s.issue = .word .cmd4 (c :: w) :: rest → s.halted = false → s.wait = none → 16 ≤ c.toNat →
    step s = .next { s with issue := rest, result := .err .ioError })

/-- Which operation can end in which error (R242, which the spec derives from the operations); Timeout on the sense line
needs a finite NAT_WAIT_LIMIT. -/
def Obligations.ErrorsByOperation : Prop :=
  ∀ (i : Instr) (s t : State) (e : Err), accepts i s = true → formatOf i = .cmd4 → exec i s = .next t →
    t.wait = none → t.result = .err e →
    e ∈ mayRaise i ∧
    (s.cfg.natWaitLimit = none → (i = .sensePoll ∨ ∃ p, i = .natTx p) → e ≠ .timeout)

/-- The operations of one mode leave the registers used only in the other alone (R258, the spec's decision D17). -/
def Obligations.ModesKeepApart : Prop :=
  ∀ (i : Instr) (s t : State), exec i s = .next t →
    (isNative i = true → sameEmulated s t) ∧ (isEmulated i = true → sameNative s t) ∧
    (i = .brgStep → s.mode = .native → sameEmulated s t) ∧ (i = .brgStep → s.mode = .emulated → sameNative s t)

/-- The frame of the octet transport and of the stuffed octets: nothing changes but the channels, RESULT and, for
what transmits, TXLAST; FLUSH and RX.RAW write nothing; only the reset input leaves one in progress (log 18). The
stuffed octets as steps of their own are the model's choice (log 13). -/
def Obligations.OctetTransportFrame : Prop :=
  ∀ s t : State,
    (∀ o, exec (.txRaw o) s = .next t → t = { s.withTx t with wait := t.wait } ∧ overOrCut s t) ∧
    (∀ b, exec (.encOctet b) s = .next t → t = { s.withTx t with wait := t.wait } ∧ overOrCut s t) ∧
    (∀ b, exec (.stuffPlain b) s = .next t → t = { s.withTx t with wait := t.wait } ∧ overOrCut s t) ∧
    (∀ b, exec (.stuffEscaped b) s = .next t → t = { s.withTx t with wait := t.wait } ∧ overOrCut s t) ∧
    (exec .rxRaw s = .next t →
      t = { s.withChannels t with wait := t.wait } ∧ overOrCut s t ∧ t.wire = s.wire) ∧
    (exec .flush s = .next t →
      t = { s.withChannels t with wait := t.wait } ∧ overOrCut s t ∧ t.wire = s.wire)

/-- The frame of the encoder: nothing changes but the channels, RESULT, ACC, TXLAST, TXPHASE and TXIDX, and for
TAP2TTY also ATTEMPT; no octet of RXBUF or NBUF; only the reset input leaves one in progress (log 18). EFRAME as a
step of its own is the model's choice (log 13). -/
def Obligations.EncoderFrame : Prop :=
  ∀ (s t : State) (p : List Octet),
    (exec (.encFrame p) s = .next t → t = { s.withEnc t with wait := t.wait } ∧ overOrCut s t) ∧
    (exec (.eframe p) s = .next t → t = { s.withEnc t with wait := t.wait } ∧ overOrCut s t) ∧
    (exec (.tap2tty p) s = .next t → t = { s.withTap t with wait := t.wait } ∧ overOrCut s t)

/-- The frame of the decoder: nothing changes but the channels, RESULT, ACC, RXBUF, RXCNT and DSTATE; nothing is
written to the wire; RXBUF changes only at the indices DEC.FRAME stores to, those below the number of octets the
decoder stores of the octets it took; only the reset input leaves it in progress (log 18). -/
def Obligations.DecoderFrame : Prop :=
  ∀ s t : State, exec .decFrame s = .next t →
    t = { s.withDec t with wait := t.wait } ∧ overOrCut s t ∧ t.wire = s.wire ∧
    agreeOutside s.rxbuf t.rxbuf (· < storedBy s.cfg (since s t))

/-- The frame of the native receiver: nothing changes but the channels, RESULT, NBUF, NCNT and, for NAT.RX and
its classes, LEN and NSTATE; NBUF changes only at the indices stored to; nothing is written to the wire; only the
reset input leaves one in progress (log 18). The classes as steps of their own are the model's choice (log 13). -/
def Obligations.NativeReceiverFrame : Prop :=
  ∀ s t : State,
    (∀ k : Word16, exec (.rdBytes k) s = .next t →
      t = { s.withRead t with wait := t.wait } ∧ overOrCut s t ∧ t.wire = s.wire ∧
        agreeOutside s.nbuf t.nbuf (· < k.toNat)) ∧
    (exec .natRx s = .next t →
      t = { s.withNatRx t with wait := t.wait } ∧ overOrCut s t ∧ t.wire = s.wire ∧
        agreeOutside s.nbuf t.nbuf fun a => a < 2 ∨ (t.len.toNat ≤ s.cfg.mtu ∧ a < t.len.toNat)) ∧
    (∀ n : Word16, exec (.natLenOk n) s = .next t →
      t = { s.withNatRx t with wait := t.wait } ∧ overOrCut s t ∧ t.wire = s.wire ∧
        agreeOutside s.nbuf t.nbuf (· < n.toNat)) ∧
    (∀ n : Word16, exec (.natLenOver n) s = .next t →
      t = s.withNatRx t ∧ t.nbuf = s.nbuf ∧ t.wire = s.wire)

/-- The frame of the native transmitter: nothing changes but the channels, RESULT, NSTATE (not for SENSE.POLL) and
the operation left in progress, its own wait (log 10) or cut by the reset input (log 18); SQ only grows, and
SENSE.POLL writes nothing. NFRAME as a step of its own is the model's choice (log 13). -/
def Obligations.NativeTransmitterFrame : Prop :=
  ∀ s t : State,
    (∀ p, exec (.natTx p) s = .next t →
      t = { s.withNatTx t with wait := t.wait } ∧ (overOrCut s t ∨ t.wait = some (.natTx p)) ∧ s.sq <+: t.sq) ∧
    (∀ p, exec (.nframe p) s = .next t →
      t = { s.withNatTx t with wait := t.wait } ∧ overOrCut s t ∧ s.sq <+: t.sq) ∧
    (exec .sensePoll s = .next t →
      t = { s.withChannels t with wait := t.wait } ∧ (overOrCut s t ∨ t.wait = some .sense) ∧ s.sq <+: t.sq ∧
        t.wire = s.wire)

/-- The frame of BRG.STEP, by its mode and by whether it read a frame from the network interface: beside the channels,
RESULT, the operation left in progress and the host's stop, only the registers of the path taken change, those of
TAP2TTY, DEC.FRAME, NAT.TX or NAT.RX; on the two receive paths RXBUF and NBUF change only at the indices these
operations store to, and on the transmit paths not at all. What can be left in progress is log 10's, or log 18's. -/
def Obligations.BridgeFrame : Prop :=
  ∀ s t : State, exec .brgStep s = .next t →
    (overOrCut s t ∨ t.wait = some .brgAny ∨ ∃ p, t.wait = some (.brgTx p)) ∧
    (t.halted = s.halted ∨ (t.halted = true ∧ t.result = .err .ioError)) ∧
    ((∃ r, Xact.netRead r ∈ since s t) →
      (s.mode = .emulated → t = { s.withTap t with wait := t.wait, halted := t.halted }) ∧
      (s.mode = .native → t = { s.withNatTx t with wait := t.wait, halted := t.halted })) ∧
    ((¬ ∃ r, Xact.netRead r ∈ since s t) →
      (s.mode = .emulated →
        t = { s.withDec t with wait := t.wait, halted := t.halted } ∧
          agreeOutside s.rxbuf t.rxbuf (· < storedBy s.cfg (since s t))) ∧
      (s.mode = .native →
        t = { s.withNatRx t with wait := t.wait, halted := t.halted } ∧
          agreeOutside s.nbuf t.nbuf fun a => a < 2 ∨ (t.len.toNat ≤ s.cfg.mtu ∧ a < t.len.toNat)))

/-- MODE is written once and never again until reset, and the parameters never change (R32, R35). -/
def Obligations.ModeFixedUntilReset : Prop :=
  ∀ s t : State, step s = .next t →
    t.cfg = s.cfg ∧
    (s.modeSet = true → s.issue.head? ≠ some .reset → s.wait ≠ some .reset →
      t.mode = s.mode ∧ t.modeSet = true)

/-- WIRE never shrinks but by a reset, which empties it (R56; the spec's decision D10), and an operation whose rule has
no SerWrite puts nothing on it. The same of the log of transactions, the model's own ghost (log 19). -/
def Obligations.WireOnlyGrows : Prop :=
  (∀ s t : State, step s = .next t → s.issue.head? ≠ some .reset → s.wait ≠ some .reset →
    s.wire <+: t.wire ∧ s.trace <+: t.trace) ∧
  (∀ (i : Instr) (s t : State), exec i s = .next t → transmits i = false → t.wire = s.wire)

/-- The invariant holds after reset. -/
def Obligations.ResetMeetsInvariant : Prop := StateInv State.reset

/-- Every step keeps the invariant. -/
def Obligations.StepKeepsInvariant : Prop := ∀ s t : State, StateInv s → step s = .next t → StateInv t

/-- What reset leaves (R40, R281, the spec's decision D10; only the values the spec gives), with the parameters the
source fixes (R9); and the reset input: it leaves the same, keeps SQ and the parameters, and abandons what is in
progress. A reset that comes in the turn of an operation's transaction cuts the operation there, with what it had
written still on the wire; the next step is the reset. That it acts at the end of the transaction is the model's
choice (log 18). -/
def Obligations.ResetLeavesAndAbandons : Prop :=
  (State.reset.dstate = .idle ∧ State.reset.txphase = .idle ∧ State.reset.nstate = .idle ∧
    State.reset.rxcnt = 0 ∧ State.reset.ncnt = 0 ∧ State.reset.txidx = 0 ∧ State.reset.attempt = 0 ∧
    State.escf State.reset = false ∧ State.reset.result = .ok (.num 0) ∧ State.reset.wire = [] ∧
    State.reset.wait = none ∧ State.reset.modeSet = false ∧ State.reset.cfg.fromSource ∧ State.reset.cfg.ok) ∧
  (∀ s : State, s.issue.head? = some .reset ∨ (s.wait = some .reset ∧ s.halted = false) →
    ∃ t, step s = .next t ∧
      t.issue = (if s.issue.head? = some .reset then s.issue.tail else s.issue) ∧ t.sq = s.sq ∧ t.cfg = s.cfg ∧
      t.dstate = .idle ∧ t.txphase = .idle ∧ t.nstate = .idle ∧ t.rxcnt = 0 ∧ t.ncnt = 0 ∧ t.txidx = 0 ∧
      t.attempt = 0 ∧ t.result = .ok (.num 0) ∧ t.wire = [] ∧ t.modeSet = false ∧ t.wait = none ∧
      t.halted = false) ∧
  (∀ (i : Instr) (s : State) (a : Turn) (rest : List Turn), accepts i s = true → beginsWithTurn i = true →
    s.script = a :: rest → a.reset = true →
    ∃ t, exec i s = .next t ∧ t.wait = some .reset ∧ t.script = rest ∧ t.issue = s.issue ∧
      t.halted = s.halted) ∧
  (∀ (s : State) (o : Octet) (w a : Turn) (rest : List Turn), accepts (.txRaw o) s = true →
    s.script = w :: a :: rest → w.fail = false → w.short ≠ some 0 → w.reset = false → a.reset = true →
    ∃ t, exec (.txRaw o) s = .next t ∧ t.wait = some .reset ∧ t.wire = s.wire ++ [o] ∧
      t.sq = s.sq ++ w.rx ++ a.rx ∧ t.script = rest)

/-- A step runs the decoded instruction: the word at the head of `issue` is taken from it and its instruction is
executed; with nothing to issue the block waits (log 15); the bridge loop's entry runs BRG.STEP (R229, R282) and
stays (log 28); an operation in progress goes on first (log 10). A word of an internal format that is no word of it
is refused by name (log 13). The issue list and these four rules of it are the model's choices. -/
def Obligations.StepRunsDecoded : Prop :=
  (∀ (s : State) (f : Format) (w : List Octet) (rest : List Issue) (i : Instr),
    s.issue = .word f w :: rest → s.halted = false → s.wait = none →
    decode { dstate := s.dstate, cfg := s.cfg } f w = .ok i →
    step s = exec i { s with issue := rest }) ∧
  (∀ s : State, s.issue = [] → s.halted = false → s.wait = none → step s = .next s) ∧
  (∀ (s : State) (rest : List Issue), s.issue = .bridge :: rest → s.halted = false → s.wait = none →
    step s = exec .brgStep s) ∧
  (∀ (s : State) (w : Wait), s.wait = some w → s.halted = false → s.issue.head? ≠ some .reset →
    step s = .next (resume w s)) ∧
  (∀ (s : State) (f : Format) (w : List Octet) (rest : List Issue) (e : DecodeErr),
    s.issue = .word f w :: rest → s.halted = false → s.wait = none → f ≠ .cmd4 →
    decode { dstate := s.dstate, cfg := s.cfg } f w = .error e →
    step s = .refused (.noSuchWord f e))

/-- Decoding the words of a well-formed instruction gives it back, for every instruction and every operand. -/
def Obligations.DecodeEncodeRoundTrip : Prop :=
  ∀ (c : DecodeCtx) (i : Instr), c.cfg.ok → WellFormed c.cfg i = true → readsAs c i = true →
    decode c (formatOf i) (encode c.cfg i) = .ok i

/-- A word means one thing: what decodes is well formed and of the word's format; an internal word is the encoding of
what it decodes to; a command word has its instruction's code, and what stands behind its operands is not looked
at. The layout of the operands on the command port is the model's choice (log 12). -/
def Obligations.DecodedWordsMeanOneThing : Prop :=
  ∀ (c : DecodeCtx) (f : Format) (w : List Octet) (i : Instr), decode c f w = .ok i →
    WellFormed c.cfg i = true ∧ formatOf i = f ∧
    (f ≠ .cmd4 → encode c.cfg i = w ∧ readsAs c i = true) ∧
    (f = .cmd4 → (encode c.cfg i).head? = w.head? ∧ ∀ u, decode c .cmd4 (w ++ u) = .ok i)

/-- Words written out from the spec's encodings decode to what they stand for (R81, R82, R86, R92, R94, R96); how a
command word carries its operands is the model's choice (log 12). -/
def Obligations.SpecWordsDecode : Prop :=
  (∀ c : DecodeCtx,
    decode c .cmd4 [0x01] = .ok .crcInit ∧
    decode c .cmd4 [0x02, 0x41] = .ok (.crcUpdate 0x41) ∧
    decode c .cmd4 [0x04, 0xFE] = .ok (.txRaw 0xFE) ∧
    decode c .cmd4 [0x07, 0x00, 0x03, 0xFE, 0xFF, 0x00] = .ok (.encFrame [0xFE, 0xFF, 0x00]) ∧
    decode c .cmd4 [0x08] = .ok .decFrame ∧
    decode c .cmd4 [0x09, 0x01, 0x2C] = .ok (.rdBytes 300#16) ∧
    decode c .cmd4 [0x0E] = .ok .brgStep ∧
    decode c .cmd4 [0x00] = .error .reservedCode ∧
    decode c .nframe [0x00, 0x03, 0xDE, 0xAD, 0xBE] = .ok (.nframe [0xDE, 0xAD, 0xBE])) ∧
  decode tableCtx .stuff [0x41] = .ok (.stuffPlain 0x41) ∧
  decode tableCtx .stuff [0xFE, 0xFF] = .ok (.stuffEscaped 0xFF) ∧
  decode tableCtx .sym8 [0xFF] = .ok .symEnd ∧
  decode tableCtx .sym8 [0xFE] = .ok .symEsc ∧
  decode tableCtx .sym8 [0xFD] = .ok (.symData 0xFD) ∧
  decode { tableCtx with dstate := .escaped } .sym8 [0xFF] = .ok (.symLit 0xFF) ∧
  decode { tableCtx with dstate := .idle } .sym8 [0xFF] = .error .notDecoding ∧
  decode tableCtx .eframe [0x0E, 0x00, 0x3E, 0xFF] = .ok (.eframe [0x0E]) ∧
  decode tableCtx .len16 [0x08, 0x00] = .ok (.natLenOk 2048#16) ∧
  decode tableCtx .len16 [0x08, 0x01] = .ok (.natLenOver 2049#16)
end

