-- ==== Sys2Proof/Laws/Memory.lean ====
section
/-! SUPPORT. The octet buffers: the laws of read and write, and the canonical form. -/

namespace Sys2Proof.Machine

/-- An index below every listed one reads as nothing written. -/
theorem Memory.read_low {m : Memory} {a : Nat} (h : ∀ c ∈ m, a < c.1) : Memory.read m a = Memory.blank := by
  induction m with
  | nil => rfl
  | cons c m ih =>
    obtain ⟨k, x⟩ := c
    have hk : a < k := h (k, x) (List.mem_cons_self ..)
    simp [Memory.read, show k ≠ a by omega, ih fun c hc => h c (List.mem_cons_of_mem _ hc)]

/-- The octet written is read back. -/
theorem Memory.read_write_same {m : Memory} (a : Nat) (v : Octet) (h : Memory.wf m) :
    Memory.read (Memory.write m a v) a = v := by
  have hp := h.1
  clear h
  induction m with
  | nil =>
    unfold Memory.write
    split_ifs with hv
    · exact hv.symm
    · simp [Memory.read]
  | cons c m ih =>
    obtain ⟨k, x⟩ := c
    have hk := (List.pairwise_cons.1 hp).1
    unfold Memory.write
    split_ifs with h1 h2 h3 h4
    · rw [h2]
      refine Memory.read_low fun c hc => ?_
      rcases List.mem_cons.1 hc with rfl | hc
      · exact h1
      · exact lt_trans h1 (hk c hc)
    · simp [Memory.read]
    · rw [h4]
      exact Memory.read_low fun c hc => h3 ▸ hk c hc
    · simp [Memory.read]
    · simp [Memory.read, Ne.symm h3, ih (List.pairwise_cons.1 hp).2]

/-- A write leaves every other octet alone. -/
theorem Memory.read_write_ne {m : Memory} (a b : Nat) (v : Octet) (h : b ≠ a) :
    Memory.read (Memory.write m a v) b = Memory.read m b := by
  induction m with
  | nil =>
    simp only [Memory.write]
    split_ifs
    · rfl
    · simp [Memory.read, Ne.symm h]
  | cons c m ih =>
    obtain ⟨k, x⟩ := c
    unfold Memory.write
    split_ifs with h1 h2 h3 h4
    · rfl
    · simp [Memory.read, Ne.symm h]
    · subst h3
      simp [Memory.read, Ne.symm h]
    · subst h3
      simp [Memory.read, Ne.symm h]
    · simp only [Memory.read, ih]

theorem Memory.read_write {m : Memory} (a b : Nat) (v : Octet) (h : Memory.wf m) :
    Memory.read (Memory.write m a v) b = if b = a then v else Memory.read m b := by
  split_ifs with hb
  · exact hb ▸ Memory.read_write_same a v h
  · exact Memory.read_write_ne a b v hb

theorem Memory.mem_write {m : Memory} {a : Nat} {v : Octet} {c : Host.Cell}
    (h : c ∈ Memory.write m a v) : c ∈ m ∨ (c = (a, v) ∧ v ≠ Memory.blank) := by
  induction m with
  | nil =>
    unfold Memory.write at h
    split_ifs at h with hv
    · cases h
    · exact .inr ⟨by simpa using h, hv⟩
  | cons d m ih =>
    obtain ⟨k, x⟩ := d
    unfold Memory.write at h
    split_ifs at h with h1 h2 h3 h4
    · exact .inl h
    · rcases List.mem_cons.1 h with h | h
      · exact .inr ⟨h, h2⟩
      · exact .inl h
    · exact .inl (List.mem_cons_of_mem _ h)
    · rcases List.mem_cons.1 h with h | h
      · exact .inr ⟨h, h4⟩
      · exact .inl (List.mem_cons_of_mem _ h)
    · rcases List.mem_cons.1 h with h | h
      · exact .inl (h ▸ List.mem_cons_self ..)
      · rcases ih h with h | h
        · exact .inl (List.mem_cons_of_mem _ h)
        · exact .inr h

/-- A write keeps the canonical form. -/
theorem Memory.wf_write {m : Memory} (a : Nat) (v : Octet) (h : Memory.wf m) :
    Memory.wf (Memory.write m a v) := by
  refine ⟨?_, fun c hc => ?_⟩
  · have hp := h.1
    clear h
    induction m with
    | nil => unfold Memory.write; split_ifs <;> simp
    | cons d m ih =>
      obtain ⟨k, x⟩ := d
      have hk := (List.pairwise_cons.1 hp).1
      have hm := (List.pairwise_cons.1 hp).2
      unfold Memory.write
      split_ifs with h1 h2 h3 h4
      · exact hp
      · refine List.pairwise_cons.2 ⟨fun c hc => ?_, hp⟩
        rcases List.mem_cons.1 hc with rfl | hc
        · exact h1
        · exact lt_trans h1 (hk c hc)
      · exact hm
      · exact List.pairwise_cons.2 ⟨fun c hc => h3 ▸ hk c hc, hm⟩
      · refine List.pairwise_cons.2 ⟨fun c hc => ?_, ih hm⟩
        rcases Memory.mem_write hc with hc | ⟨rfl, _⟩
        · exact hk c hc
        · simp only; omega
  · rcases Memory.mem_write hc with hc | ⟨rfl, hv⟩
    · exact h.2 c hc
    · exact hv

theorem Memory.below_write {m : Memory} {a cap : Nat} {v : Octet} (h : Memory.below m cap) (ha : a < cap) :
    Memory.below (Memory.write m a v) cap := by
  intro c hc
  rcases Memory.mem_write hc with hc | ⟨rfl, _⟩
  · exact h c hc
  · exact ha

theorem Memory.wf_writeList {m : Memory} (a : Nat) (vs : List Octet) (h : Memory.wf m) :
    Memory.wf (Memory.writeList m a vs) := by
  induction vs generalizing m a with
  | nil => exact h
  | cons v vs ih => exact ih _ (Memory.wf_write a v h)

theorem Memory.below_writeList {m : Memory} {a cap : Nat} {vs : List Octet} (h : Memory.below m cap)
    (ha : a + vs.length ≤ cap) : Memory.below (Memory.writeList m a vs) cap := by
  induction vs generalizing m a with
  | nil => exact h
  | cons v vs ih =>
    simp only [List.length_cons] at ha
    exact ih (Memory.below_write h (by omega)) (by omega)

/-- Octets outside those written are left alone. -/
theorem Memory.read_writeList_ne {m : Memory} {a b : Nat} {vs : List Octet} (h : b < a ∨ a + vs.length ≤ b) :
    Memory.read (Memory.writeList m a vs) b = Memory.read m b := by
  induction vs generalizing m a with
  | nil => rfl
  | cons v vs ih =>
    simp only [List.length_cons] at h
    simp only [Memory.writeList]
    rw [ih (by omega), Memory.read_write_ne _ _ _ (by omega)]

/-- The first octets, one more at a time. -/
theorem Memory.prefixOf_succ (m : Memory) (n : Nat) :
    Memory.prefixOf m (n + 1) = Memory.prefixOf m n ++ [Memory.read m n] := by
  simp [Memory.prefixOf, List.range_succ]

theorem Memory.prefixOf_congr {m m' : Memory} {n : Nat} (h : ∀ a < n, Memory.read m a = Memory.read m' a) :
    Memory.prefixOf m n = Memory.prefixOf m' n := by
  simp only [Memory.prefixOf]
  exact List.map_congr_left fun a ha => h a (List.mem_range.1 ha)

theorem Memory.prefixOf_write {m : Memory} (hm : Memory.wf m) (n : Nat) (v : Octet) :
    Memory.prefixOf (Memory.write m n v) (n + 1) = Memory.prefixOf m n ++ [v] := by
  rw [Memory.prefixOf_succ, Memory.read_write_same _ _ hm,
    Memory.prefixOf_congr fun a ha => Memory.read_write_ne _ _ _ (by omega)]

theorem Memory.prefixOf_writeList {m : Memory} (hm : Memory.wf m) (n : Nat) (vs : List Octet) :
    Memory.prefixOf (Memory.writeList m n vs) (n + vs.length) = Memory.prefixOf m n ++ vs := by
  induction vs generalizing m n with
  | nil => simp [Memory.writeList]
  | cons v vs ih =>
    have h := ih (Memory.wf_write n v hm) (n + 1)
    rw [Memory.prefixOf_write hm] at h
    simp only [Memory.writeList, List.length_cons]
    rw [show n + (vs.length + 1) = n + 1 + vs.length by omega, h]
    simp

theorem Memory.prefixOf_length (m : Memory) (n : Nat) : (Memory.prefixOf m n).length = n := by
  simp [Memory.prefixOf]

end Sys2Proof.Machine
end

