-- ==== Sys2Proof/Laws/State.lean ====
section
/-! SUPPORT. What each shared update of the state does to each field. -/

namespace Sys2Proof.Machine

/-! ## `State.record` -/

@[simp] theorem record_cfg (s : State) (x : Xact) : (s.record x).cfg = s.cfg := rfl
@[simp] theorem record_acc (s : State) (x : Xact) : (s.record x).acc = s.acc := rfl
@[simp] theorem record_rxbuf (s : State) (x : Xact) : (s.record x).rxbuf = s.rxbuf := rfl
@[simp] theorem record_rxcnt (s : State) (x : Xact) : (s.record x).rxcnt = s.rxcnt := rfl
@[simp] theorem record_dstate (s : State) (x : Xact) : (s.record x).dstate = s.dstate := rfl
@[simp] theorem record_txlast (s : State) (x : Xact) : (s.record x).txlast = s.txlast := rfl
@[simp] theorem record_txphase (s : State) (x : Xact) : (s.record x).txphase = s.txphase := rfl
@[simp] theorem record_txidx (s : State) (x : Xact) : (s.record x).txidx = s.txidx := rfl
@[simp] theorem record_len (s : State) (x : Xact) : (s.record x).len = s.len := rfl
@[simp] theorem record_nbuf (s : State) (x : Xact) : (s.record x).nbuf = s.nbuf := rfl
@[simp] theorem record_ncnt (s : State) (x : Xact) : (s.record x).ncnt = s.ncnt := rfl
@[simp] theorem record_nstate (s : State) (x : Xact) : (s.record x).nstate = s.nstate := rfl
@[simp] theorem record_mode (s : State) (x : Xact) : (s.record x).mode = s.mode := rfl
@[simp] theorem record_modeSet (s : State) (x : Xact) : (s.record x).modeSet = s.modeSet := rfl
@[simp] theorem record_result (s : State) (x : Xact) : (s.record x).result = s.result := rfl
@[simp] theorem record_attempt (s : State) (x : Xact) : (s.record x).attempt = s.attempt := rfl
@[simp] theorem record_sq (s : State) (x : Xact) : (s.record x).sq = s.sq := rfl
@[simp] theorem record_wire (s : State) (x : Xact) : (s.record x).wire = s.wire := rfl
@[simp] theorem record_sense (s : State) (x : Xact) : (s.record x).sense = s.sense := rfl
@[simp] theorem record_netIn (s : State) (x : Xact) : (s.record x).netIn = s.netIn := rfl
@[simp] theorem record_issue (s : State) (x : Xact) : (s.record x).issue = s.issue := rfl
@[simp] theorem record_wait (s : State) (x : Xact) : (s.record x).wait = s.wait := rfl
@[simp] theorem record_halted (s : State) (x : Xact) : (s.record x).halted = s.halted := rfl
@[simp] theorem record_script (s : State) (x : Xact) : (s.record x).script = s.script := rfl
@[simp] theorem record_tick (s : State) (x : Xact) : (s.record x).tick = s.tick := rfl
@[simp] theorem record_trace (s : State) (x : Xact) : (s.record x).trace = s.trace ++ [x] := rfl

/-! ## `State.elapse` -/

@[simp] theorem elapse_cfg (s : State) : (s.elapse).cfg = s.cfg := rfl
@[simp] theorem elapse_acc (s : State) : (s.elapse).acc = s.acc := rfl
@[simp] theorem elapse_rxbuf (s : State) : (s.elapse).rxbuf = s.rxbuf := rfl
@[simp] theorem elapse_rxcnt (s : State) : (s.elapse).rxcnt = s.rxcnt := rfl
@[simp] theorem elapse_dstate (s : State) : (s.elapse).dstate = s.dstate := rfl
@[simp] theorem elapse_txlast (s : State) : (s.elapse).txlast = s.txlast := rfl
@[simp] theorem elapse_txphase (s : State) : (s.elapse).txphase = s.txphase := rfl
@[simp] theorem elapse_txidx (s : State) : (s.elapse).txidx = s.txidx := rfl
@[simp] theorem elapse_len (s : State) : (s.elapse).len = s.len := rfl
@[simp] theorem elapse_nbuf (s : State) : (s.elapse).nbuf = s.nbuf := rfl
@[simp] theorem elapse_ncnt (s : State) : (s.elapse).ncnt = s.ncnt := rfl
@[simp] theorem elapse_nstate (s : State) : (s.elapse).nstate = s.nstate := rfl
@[simp] theorem elapse_mode (s : State) : (s.elapse).mode = s.mode := rfl
@[simp] theorem elapse_modeSet (s : State) : (s.elapse).modeSet = s.modeSet := rfl
@[simp] theorem elapse_result (s : State) : (s.elapse).result = if s.turn.intrude then .err .ioError else s.result := rfl
@[simp] theorem elapse_attempt (s : State) : (s.elapse).attempt = s.attempt := rfl
@[simp] theorem elapse_sq (s : State) : (s.elapse).sq = s.sq ++ s.turn.rx := rfl
@[simp] theorem elapse_wire (s : State) : (s.elapse).wire = s.wire := rfl
@[simp] theorem elapse_sense (s : State) : (s.elapse).sense = (s.sense ^^ decide (s.turn.flips % 2 = 1)) := rfl
@[simp] theorem elapse_netIn (s : State) : (s.elapse).netIn = s.netIn ++ s.turn.net.filter (fun p => decide (p.length ≤ s.cfg.mtu)) := rfl
@[simp] theorem elapse_issue (s : State) : (s.elapse).issue = s.issue := rfl
@[simp] theorem elapse_wait (s : State) : (s.elapse).wait = s.wait := rfl
@[simp] theorem elapse_halted (s : State) : (s.elapse).halted = s.halted := rfl
@[simp] theorem elapse_script (s : State) : (s.elapse).script = s.script.tail := rfl
@[simp] theorem elapse_tick (s : State) : (s.elapse).tick = if s.script = [] then s.tick + 1 else s.tick := rfl
@[simp] theorem elapse_trace (s : State) : (s.elapse).trace = s.trace ++ arrivals s.turn.rx := rfl

/-! ## `State.finish` -/

@[simp] theorem finish_cfg (s : State) (v : Value) : (s.finish v).cfg = s.cfg := rfl
@[simp] theorem finish_acc (s : State) (v : Value) : (s.finish v).acc = s.acc := rfl
@[simp] theorem finish_rxbuf (s : State) (v : Value) : (s.finish v).rxbuf = s.rxbuf := rfl
@[simp] theorem finish_rxcnt (s : State) (v : Value) : (s.finish v).rxcnt = s.rxcnt := rfl
@[simp] theorem finish_dstate (s : State) (v : Value) : (s.finish v).dstate = s.dstate := rfl
@[simp] theorem finish_txlast (s : State) (v : Value) : (s.finish v).txlast = s.txlast := rfl
@[simp] theorem finish_txphase (s : State) (v : Value) : (s.finish v).txphase = s.txphase := rfl
@[simp] theorem finish_txidx (s : State) (v : Value) : (s.finish v).txidx = s.txidx := rfl
@[simp] theorem finish_len (s : State) (v : Value) : (s.finish v).len = s.len := rfl
@[simp] theorem finish_nbuf (s : State) (v : Value) : (s.finish v).nbuf = s.nbuf := rfl
@[simp] theorem finish_ncnt (s : State) (v : Value) : (s.finish v).ncnt = s.ncnt := rfl
@[simp] theorem finish_nstate (s : State) (v : Value) : (s.finish v).nstate = s.nstate := rfl
@[simp] theorem finish_mode (s : State) (v : Value) : (s.finish v).mode = s.mode := rfl
@[simp] theorem finish_modeSet (s : State) (v : Value) : (s.finish v).modeSet = s.modeSet := rfl
@[simp] theorem finish_result (s : State) (v : Value) : (s.finish v).result = .ok v := rfl
@[simp] theorem finish_attempt (s : State) (v : Value) : (s.finish v).attempt = s.attempt := rfl
@[simp] theorem finish_sq (s : State) (v : Value) : (s.finish v).sq = s.sq := rfl
@[simp] theorem finish_wire (s : State) (v : Value) : (s.finish v).wire = s.wire := rfl
@[simp] theorem finish_sense (s : State) (v : Value) : (s.finish v).sense = s.sense := rfl
@[simp] theorem finish_netIn (s : State) (v : Value) : (s.finish v).netIn = s.netIn := rfl
@[simp] theorem finish_issue (s : State) (v : Value) : (s.finish v).issue = s.issue := rfl
@[simp] theorem finish_wait (s : State) (v : Value) : (s.finish v).wait = none := rfl
@[simp] theorem finish_halted (s : State) (v : Value) : (s.finish v).halted = s.halted := rfl
@[simp] theorem finish_script (s : State) (v : Value) : (s.finish v).script = s.script := rfl
@[simp] theorem finish_tick (s : State) (v : Value) : (s.finish v).tick = s.tick := rfl
@[simp] theorem finish_trace (s : State) (v : Value) : (s.finish v).trace = s.trace := rfl

/-! ## `State.raise` -/

@[simp] theorem raise_cfg (s : State) (e : Err) : (s.raise e).cfg = s.cfg := rfl
@[simp] theorem raise_acc (s : State) (e : Err) : (s.raise e).acc = s.acc := rfl
@[simp] theorem raise_rxbuf (s : State) (e : Err) : (s.raise e).rxbuf = s.rxbuf := rfl
@[simp] theorem raise_rxcnt (s : State) (e : Err) : (s.raise e).rxcnt = s.rxcnt := rfl
@[simp] theorem raise_dstate (s : State) (e : Err) : (s.raise e).dstate = s.dstate := rfl
@[simp] theorem raise_txlast (s : State) (e : Err) : (s.raise e).txlast = s.txlast := rfl
@[simp] theorem raise_txphase (s : State) (e : Err) : (s.raise e).txphase = s.txphase := rfl
@[simp] theorem raise_txidx (s : State) (e : Err) : (s.raise e).txidx = s.txidx := rfl
@[simp] theorem raise_len (s : State) (e : Err) : (s.raise e).len = s.len := rfl
@[simp] theorem raise_nbuf (s : State) (e : Err) : (s.raise e).nbuf = s.nbuf := rfl
@[simp] theorem raise_ncnt (s : State) (e : Err) : (s.raise e).ncnt = s.ncnt := rfl
@[simp] theorem raise_nstate (s : State) (e : Err) : (s.raise e).nstate = s.nstate := rfl
@[simp] theorem raise_mode (s : State) (e : Err) : (s.raise e).mode = s.mode := rfl
@[simp] theorem raise_modeSet (s : State) (e : Err) : (s.raise e).modeSet = s.modeSet := rfl
@[simp] theorem raise_result (s : State) (e : Err) : (s.raise e).result = .err e := rfl
@[simp] theorem raise_attempt (s : State) (e : Err) : (s.raise e).attempt = s.attempt := rfl
@[simp] theorem raise_sq (s : State) (e : Err) : (s.raise e).sq = s.sq := rfl
@[simp] theorem raise_wire (s : State) (e : Err) : (s.raise e).wire = s.wire := rfl
@[simp] theorem raise_sense (s : State) (e : Err) : (s.raise e).sense = s.sense := rfl
@[simp] theorem raise_netIn (s : State) (e : Err) : (s.raise e).netIn = s.netIn := rfl
@[simp] theorem raise_issue (s : State) (e : Err) : (s.raise e).issue = s.issue := rfl
@[simp] theorem raise_wait (s : State) (e : Err) : (s.raise e).wait = none := rfl
@[simp] theorem raise_halted (s : State) (e : Err) : (s.raise e).halted = s.halted := rfl
@[simp] theorem raise_script (s : State) (e : Err) : (s.raise e).script = s.script := rfl
@[simp] theorem raise_tick (s : State) (e : Err) : (s.raise e).tick = s.tick := rfl
@[simp] theorem raise_trace (s : State) (e : Err) : (s.raise e).trace = s.trace := rfl

/-! ## `State.refuse` -/

@[simp] theorem refuse_cfg (s : State) : (s.refuse).cfg = s.cfg := rfl
@[simp] theorem refuse_acc (s : State) : (s.refuse).acc = s.acc := rfl
@[simp] theorem refuse_rxbuf (s : State) : (s.refuse).rxbuf = s.rxbuf := rfl
@[simp] theorem refuse_rxcnt (s : State) : (s.refuse).rxcnt = s.rxcnt := rfl
@[simp] theorem refuse_dstate (s : State) : (s.refuse).dstate = s.dstate := rfl
@[simp] theorem refuse_txlast (s : State) : (s.refuse).txlast = s.txlast := rfl
@[simp] theorem refuse_txphase (s : State) : (s.refuse).txphase = s.txphase := rfl
@[simp] theorem refuse_txidx (s : State) : (s.refuse).txidx = s.txidx := rfl
@[simp] theorem refuse_len (s : State) : (s.refuse).len = s.len := rfl
@[simp] theorem refuse_nbuf (s : State) : (s.refuse).nbuf = s.nbuf := rfl
@[simp] theorem refuse_ncnt (s : State) : (s.refuse).ncnt = s.ncnt := rfl
@[simp] theorem refuse_nstate (s : State) : (s.refuse).nstate = s.nstate := rfl
@[simp] theorem refuse_mode (s : State) : (s.refuse).mode = s.mode := rfl
@[simp] theorem refuse_modeSet (s : State) : (s.refuse).modeSet = s.modeSet := rfl
@[simp] theorem refuse_result (s : State) : (s.refuse).result = .err .ioError := rfl
@[simp] theorem refuse_attempt (s : State) : (s.refuse).attempt = s.attempt := rfl
@[simp] theorem refuse_sq (s : State) : (s.refuse).sq = s.sq := rfl
@[simp] theorem refuse_wire (s : State) : (s.refuse).wire = s.wire := rfl
@[simp] theorem refuse_sense (s : State) : (s.refuse).sense = s.sense := rfl
@[simp] theorem refuse_netIn (s : State) : (s.refuse).netIn = s.netIn := rfl
@[simp] theorem refuse_issue (s : State) : (s.refuse).issue = s.issue := rfl
@[simp] theorem refuse_wait (s : State) : (s.refuse).wait = s.wait := rfl
@[simp] theorem refuse_halted (s : State) : (s.refuse).halted = s.halted := rfl
@[simp] theorem refuse_script (s : State) : (s.refuse).script = s.script := rfl
@[simp] theorem refuse_tick (s : State) : (s.refuse).tick = s.tick := rfl
@[simp] theorem refuse_trace (s : State) : (s.refuse).trace = s.trace := rfl

/-! ## `State.resetInput` -/

@[simp] theorem resetInput_acc (s : State) : s.resetInput.acc = 0 := rfl
@[simp] theorem resetInput_rxbuf (s : State) : s.resetInput.rxbuf = [] := rfl
@[simp] theorem resetInput_rxcnt (s : State) : s.resetInput.rxcnt = 0 := rfl
@[simp] theorem resetInput_dstate (s : State) : s.resetInput.dstate = .idle := rfl
@[simp] theorem resetInput_txlast (s : State) : s.resetInput.txlast = 0 := rfl
@[simp] theorem resetInput_txphase (s : State) : s.resetInput.txphase = .idle := rfl
@[simp] theorem resetInput_txidx (s : State) : s.resetInput.txidx = 0 := rfl
@[simp] theorem resetInput_len (s : State) : s.resetInput.len = 0 := rfl
@[simp] theorem resetInput_nbuf (s : State) : s.resetInput.nbuf = [] := rfl
@[simp] theorem resetInput_ncnt (s : State) : s.resetInput.ncnt = 0 := rfl
@[simp] theorem resetInput_nstate (s : State) : s.resetInput.nstate = .idle := rfl
@[simp] theorem resetInput_mode (s : State) : s.resetInput.mode = .emulated := rfl
@[simp] theorem resetInput_modeSet (s : State) : s.resetInput.modeSet = false := rfl
@[simp] theorem resetInput_result (s : State) : s.resetInput.result = .ok (.num 0) := rfl
@[simp] theorem resetInput_attempt (s : State) : s.resetInput.attempt = 0 := rfl
@[simp] theorem resetInput_wire (s : State) : s.resetInput.wire = [] := rfl
@[simp] theorem resetInput_wait (s : State) : s.resetInput.wait = none := rfl
@[simp] theorem resetInput_halted (s : State) : s.resetInput.halted = false := rfl
@[simp] theorem resetInput_trace (s : State) : s.resetInput.trace = [] := rfl
@[simp] theorem resetInput_cfg (s : State) : s.resetInput.cfg = s.cfg := rfl
@[simp] theorem resetInput_sq (s : State) : s.resetInput.sq = s.sq := rfl
@[simp] theorem resetInput_sense (s : State) : s.resetInput.sense = s.sense := rfl
@[simp] theorem resetInput_netIn (s : State) : s.resetInput.netIn = s.netIn := rfl
@[simp] theorem resetInput_issue (s : State) : s.resetInput.issue = s.issue := rfl
@[simp] theorem resetInput_script (s : State) : s.resetInput.script = s.script := rfl
@[simp] theorem resetInput_tick (s : State) : s.resetInput.tick = s.tick := rfl

/-! ## The script -/

@[simp] theorem arrivals_nil : arrivals [] = [] := rfl

theorem mem_arrivals {os : List Octet} {x : Xact} (h : x ∈ arrivals os) : x = .arrive os := by
  unfold arrivals at h
  split at h
  · cases h
  · exact List.mem_singleton.1 h

theorem turn_cons {s : State} {t : Turn} {ts : List Turn} (h : s.script = t :: ts) : s.turn = t := by
  simp [State.turn, h]

theorem elapse_quiet {s : State} {ts : List Turn} (h : s.script = {} :: ts) :
    s.elapse = { s with script := ts } := by
  simp [State.elapse, turn_cons h, h]

theorem admits_wait {s : State} {m : Option Mode} (h : s.admits m = true) : s.wait = none := by
  simp only [State.admits, Bool.and_eq_true] at h
  simpa using h.1.1

theorem admits_modeSet {s : State} {m : Option Mode} (h : s.admits m = true) : s.modeSet = true := by
  simp only [State.admits, Bool.and_eq_true] at h
  exact h.1.2

theorem admits_mode {s : State} {m : Mode} (h : s.admits (some m) = true) : s.mode = m := by
  simp only [State.admits, Bool.and_eq_true] at h
  have := h.2
  simp at this
  exact this.symm

end Sys2Proof.Machine
end

