-- ==== Sys2Proof/Laws/Ret.lean ====
section
/-! SUPPORT. Reasoning about pieces of operations: a condition on every state a piece can end in, carried through
`bind`, `onRaise` and `catching`. -/

namespace Sys2Proof.Machine

/-- Where a piece of an operation can end: `D` after a value, `E` after an error, `W` in an unfinished wait. -/
def Ret.ends {α : Type} (r : Ret α) (D : α → State → Prop) (E : Err → State → Prop) (W : Wait → State → Prop) :
    Prop :=
  match r with
  | .done a s => D a s
  | .raised e s => E e s
  | .waiting w s => W w s

/-- `P` holds wherever the piece ends. -/
def Ret.all {α : Type} (r : Ret α) (P : State → Prop) : Prop :=
  r.ends (fun _ => P) (fun _ => P) (fun _ => P)

variable {α β : Type}

@[simp] theorem ends_done (a : α) (s : State) (D : α → State → Prop) (E W) :
    (Ret.done a s).ends D E W ↔ D a s := Iff.rfl

@[simp] theorem ends_raised (e : Err) (s : State) (D : α → State → Prop) (E W) :
    (Ret.raised e s).ends D E W ↔ E e s := Iff.rfl

@[simp] theorem ends_waiting (w : Wait) (s : State) (D : α → State → Prop) (E W) :
    (Ret.waiting w s).ends D E W ↔ W w s := Iff.rfl

theorem ends_bind (r : Ret α) (f : α → State → Ret β) (D : β → State → Prop) (E W) :
    (r.bind f).ends D E W ↔ r.ends (fun a s => (f a s).ends D E W) E W := by cases r <;> rfl

theorem ends_onRaise (r : Ret α) (g : State → State) (D : α → State → Prop) (E W) :
    (r.onRaise g).ends D E W ↔ r.ends D (fun e s => E e (g s)) W := by cases r <;> rfl

theorem ends_catching (r : Ret α) (f : α → State → Ret β) (g : State → Ret β) (D : β → State → Prop) (E W) :
    (r.catching f g).ends D E W ↔
      r.ends (fun a s => (f a s).ends D E W) (fun _ s => (g s).ends D E W) W := by cases r <;> rfl

/-! ## The reset input inside a transaction -/

@[simp] theorem last_done (a : α) (s : State) : (Ret.done a s).last = s := rfl
@[simp] theorem last_raised (e : Err) (s : State) : (Ret.raised (α := α) e s).last = s := rfl
@[simp] theorem last_waiting (w : Wait) (s : State) : (Ret.waiting (α := α) w s).last = s := rfl

/-- Without the reset input a transaction is what it is. -/
theorem orReset_of_not {t : Turn} (h : t.reset = false) (r : Ret α) : r.orReset t = r := by
  simp [Ret.orReset, h]

/-- With it, the operation goes no further. -/
theorem orReset_of {t : Turn} (h : t.reset = true) (r : Ret α) : r.orReset t = .waiting .reset r.last := by
  simp [Ret.orReset, h]

/-- A transaction that leaves nothing waiting can be cut by the reset input only. -/
theorem ends_orReset {r : Ret α} {D : α → State → Prop} {E : Err → State → Prop} (t : Turn)
    (h : r.ends D E fun _ _ => False) : (r.orReset t).ends D E fun w _ => w = .reset := by
  unfold Ret.orReset
  split
  · exact rfl
  · cases r with
    | done a s => exact h
    | raised e s => exact h
    | waiting w s => exact h.elim

theorem Ret.ends.mono {r : Ret α} {D D' : α → State → Prop} {E E' : Err → State → Prop}
    {W W' : Wait → State → Prop} (h : r.ends D E W) (hD : ∀ a s, D a s → D' a s)
    (hE : ∀ e s, E e s → E' e s) (hW : ∀ w s, W w s → W' w s) : r.ends D' E' W' := by
  cases r with
  | done a s => exact hD _ _ h
  | raised e s => exact hE _ _ h
  | waiting w s => exact hW _ _ h

theorem Ret.ends.and {r : Ret α} {D D' : α → State → Prop} {E E' : Err → State → Prop}
    {W W' : Wait → State → Prop} (h : r.ends D E W) (h' : r.ends D' E' W') :
    r.ends (fun a s => D a s ∧ D' a s) (fun e s => E e s ∧ E' e s) (fun w s => W w s ∧ W' w s) := by
  cases r <;> exact ⟨h, h'⟩

@[simp] theorem all_done (a : α) (s : State) (P : State → Prop) : (Ret.done a s).all P ↔ P s := Iff.rfl
@[simp] theorem all_raised (e : Err) (s : State) (P : State → Prop) :
    (Ret.raised (α := α) e s).all P ↔ P s := Iff.rfl
@[simp] theorem all_waiting (w : Wait) (s : State) (P : State → Prop) :
    (Ret.waiting (α := α) w s).all P ↔ P s := Iff.rfl

theorem Ret.all.mono {r : Ret α} {P Q : State → Prop} (h : r.all P) (hPQ : ∀ s, P s → Q s) : r.all Q := by
  cases r <;> exact hPQ _ h

theorem all_orReset {r : Ret α} {P : State → Prop} (t : Turn) (h : r.all P) : (r.orReset t).all P := by
  unfold Ret.orReset
  split
  · cases r <;> exact h
  · exact h

/-- A transitive relation to the start is kept by `bind`. -/
theorem Ret.all.bind {r : Ret α} {f : α → State → Ret β} {R : State → State → Prop} {s : State}
    (trans : ∀ a b c, R a b → R b c → R a c) (h : r.all (R s)) (hf : ∀ a t, R s t → (f a t).all (R t)) :
    (r.bind f).all (R s) := by
  cases r with
  | done a t => exact (hf a t h).mono fun u hu => trans _ _ _ h hu
  | raised e t => exact h
  | waiting w t => exact h

theorem Ret.all.onRaise {r : Ret α} {g : State → State} {R : State → State → Prop} {s : State}
    (trans : ∀ a b c, R a b → R b c → R a c) (h : r.all (R s)) (hg : ∀ t, R t (g t)) :
    (r.onRaise g).all (R s) := by
  cases r with
  | done a t => exact h
  | raised e t => exact trans _ _ _ h (hg t)
  | waiting w t => exact h

theorem Ret.all.catching {r : Ret α} {f : α → State → Ret β} {g : State → Ret β} {R : State → State → Prop}
    {s : State} (trans : ∀ a b c, R a b → R b c → R a c) (h : r.all (R s))
    (hf : ∀ a t, R s t → (f a t).all (R t)) (hg : ∀ t, R s t → (g t).all (R t)) :
    (r.catching f g).all (R s) := by
  cases r with
  | done a t => exact (hf a t h).mono fun u hu => trans _ _ _ h hu
  | raised e t => exact (hg t h).mono fun u hu => trans _ _ _ h hu
  | waiting w t => exact h

end Sys2Proof.Machine
end

