-- ==== Sys2Proof/Laws/Channels.lean ====
section
/-! SUPPORT. What each channel primitive can do, said once: `Ran` relates a state to any later one that differs
from it in the channels and in the registers a frame function names. -/

namespace Sys2Proof.Machine

/-- Transactions that put nothing on the wire, deliver no frame, do not sleep and do not log. -/
abbrev kindRx (x : Xact) : Prop :=
  x.written = [] ∧ x.deliveredFrame = none ∧ x.slept = none ∧ x ≠ .logDropped

/-- Transactions that deliver no frame, do not sleep and do not log. -/
abbrev kindTx (x : Xact) : Prop := x.deliveredFrame = none ∧ x.slept = none ∧ x ≠ .logDropped

/-- Transactions that put nothing on the wire, do not sleep and do not log. -/
abbrev kindDeliver (x : Xact) : Prop := x.written = [] ∧ x.slept = none ∧ x ≠ .logDropped

/-- Transactions that deliver no frame. -/
abbrev kindHost (x : Xact) : Prop := x.deliveredFrame = none

/-- Any transaction. -/
abbrev kindAny (_ : Xact) : Prop := True

/-- `t` is reached from `s` by transactions of kind `K` and by writes of the registers `f` takes from `t`. -/
structure Ran (f : State → State → State) (K : Xact → Prop) (s t : State) : Prop where
  frame : t = f s t
  logged : ∃ xs, t.trace = s.trace ++ xs ∧ t.wire = s.wire ++ wireOf xs ∧ ∀ x ∈ xs, K x
  net : (∀ p ∈ s.netIn, p.length ≤ s.cfg.mtu) → ∀ p ∈ t.netIn, p.length ≤ s.cfg.mtu

/-- A frame function that leaves the parameters alone and forgets what came between. -/
structure FrameFn (f : State → State → State) : Prop where
  comp : ∀ s t u, f (f s t) u = f s u
  cfg : ∀ s t, (f s t).cfg = s.cfg

theorem wireOf_append (xs ys : List Xact) : wireOf (xs ++ ys) = wireOf xs ++ wireOf ys := by
  simp [wireOf, List.flatMap_append]

theorem Ran.trans {f : State → State → State} {K : Xact → Prop} (hf : FrameFn f) (s t u : State)
    (h : Ran f K s t) (h' : Ran f K t u) : Ran f K s u := by
  obtain ⟨xs, hx, hw, hk⟩ := h.logged
  obtain ⟨ys, hy, hv, hl⟩ := h'.logged
  have hc : t.cfg = s.cfg := by rw [h.frame]; exact hf.cfg s t
  refine ⟨?_, ⟨xs ++ ys, by rw [hy, hx, List.append_assoc], by
    rw [hv, hw, wireOf_append, List.append_assoc], fun x hm => ?_⟩, fun hn => ?_⟩
  · calc u = f t u := h'.frame
      _ = f (f s t) u := congrArg (fun x => f x u) h.frame
      _ = f s u := hf.comp s t u
  · exact (List.mem_append.1 hm).elim (hk x) (hl x)
  · have h1 := h'.net
    rw [hc] at h1
    exact h1 (h.net hn)

/-- A frame may be widened to one that names more registers and a kind to one that admits more. -/
theorem Ran.widen {f g : State → State → State} {K L : Xact → Prop} {s t : State} (h : Ran f K s t)
    (hg : ∀ s t, g s (f s t) = f s t)
    (hK : ∀ x, K x → L x := by
      first
        | exact fun _ h => h
        | exact fun _ h => h.2
        | exact fun _ h => ⟨h.1, h.2.2⟩
        | exact fun _ h => h.2.1
        | exact fun _ h => h.1
        | exact fun _ _ => trivial) : Ran g L s t :=
  ⟨by
    have := hg s t
    rw [← h.frame] at this
    exact this.symm, h.logged.imp fun _ hx => ⟨hx.1, hx.2.1, fun x hm => hK x (hx.2.2 x hm)⟩, h.net⟩

/-- What a step between transactions does when it writes only registers `f` names. -/
theorem Ran.of_write {f : State → State → State} {K : Xact → Prop} {s t : State} (h : t = f s t)
    (htr : t.trace = s.trace) (hw : t.wire = s.wire) (hn : t.netIn = s.netIn) : Ran f K s t :=
  ⟨h, ⟨[], by simp [htr], by simp [hw, wireOf], by simp⟩, fun hp => by rw [hn]; exact hp⟩

/-- Where nothing is written, WIRE stays as it was. -/
theorem Ran.wire_eq {f : State → State → State} {K : Xact → Prop} {s t : State} (h : Ran f K s t)
    (hK : ∀ x, K x → x.written = []) : t.wire = s.wire := by
  obtain ⟨xs, -, hw, hk⟩ := h.logged
  rw [hw, wireOf, List.flatMap_eq_nil_iff.2 fun x hx => hK x (hk x hx), List.append_nil]

theorem frameFn_withChannels : FrameFn State.withChannels := ⟨fun _ _ _ => rfl, fun _ _ => rfl⟩

theorem elapse_net {s : State} (h : ∀ p ∈ s.netIn, p.length ≤ s.cfg.mtu) :
    ∀ p ∈ s.elapse.netIn, p.length ≤ s.cfg.mtu := by
  intro p hp
  simp only [elapse_netIn, List.mem_append, List.mem_filter, decide_eq_true_eq] at hp
  exact hp.elim (h p) (·.2)

/-- What arrives puts nothing on the wire. -/
theorem wireOf_arrivals (os : List Octet) : wireOf (arrivals os) = [] :=
  List.flatMap_eq_nil_iff.2 fun x hx => by rw [mem_arrivals hx]; rfl

/-- A turn and one logged transaction that writes nothing and may take octets or frames. -/
theorem ran_elapse {K : Xact → Prop} (s : State) (x : Xact) (q : List Octet) (ns : List (List Octet))
    (hns : ∀ p ∈ ns, p ∈ s.elapse.netIn) (hx : x.written = []) (hK : K x) (hA : ∀ os, K (.arrive os)) :
    Ran State.withChannels K s ({ s.elapse with sq := q, netIn := ns }.record x) :=
  ⟨rfl, ⟨arrivals s.turn.rx ++ [x], by simp, by
      rw [wireOf_append, wireOf_arrivals]
      simp [wireOf, hx], fun y hy =>
    (List.mem_append.1 hy).elim (fun h => mem_arrivals h ▸ hA _) fun h => List.mem_singleton.1 h ▸ hK⟩,
    fun h p hp => elapse_net h p (hns p hp)⟩

/-- An arrival is of every kind. -/
theorem kindRx_arrive (os : List Octet) : kindRx (.arrive os) := ⟨rfl, rfl, rfl, nofun⟩

/-- A turn and one logged transaction of the kind that only reads. -/
theorem ran_rx (s : State) (x : Xact) (q : List Octet) (ns : List (List Octet))
    (hns : ∀ p ∈ ns, p ∈ s.elapse.netIn) (hx : kindRx x) :
    Ran State.withChannels kindRx s ({ s.elapse with sq := q, netIn := ns }.record x) :=
  ran_elapse s x q ns hns hx.1 hx kindRx_arrive

/-- The transactions that are of kind `kindRx` by their name. -/
theorem kindRx_of {x : Xact} (h : x.written = []) (h' : x.deliveredFrame = none := by rfl)
    (h'' : x.slept = none := by rfl) (hl : x ≠ .logDropped := by exact nofun) : kindRx x := ⟨h, h', h'', hl⟩

theorem ran_serWrite (bs : List Octet) (s : State) : (serWrite bs s).all (Ran State.withChannels kindTx s) := by
  refine all_orReset _ ⟨rfl, ⟨arrivals s.turn.rx ++ [.serWrite bs (writeOut bs s.turn)], by simp, ?_, ?_⟩, elapse_net⟩
  · rw [wireOf_append, wireOf_arrivals]
    simp [wireOf, Xact.written]
  · intro x hx
    rcases List.mem_append.1 hx with h | h
    · exact mem_arrivals h ▸ (kindRx_arrive _).2
    · rw [List.mem_singleton.1 h]
      exact ⟨rfl, rfl, nofun⟩

theorem ran_serWait (T : Nat) (s : State) : (serWait T s).all (Ran State.withChannels kindRx s) := by
  refine all_orReset _ ?_
  split <;> exact ran_rx s _ _ _ (fun _ h => h) (kindRx_of rfl)

theorem ran_serRead (m : Nat) (s : State) : (serRead m s).all (Ran State.withChannels kindRx s) := by
  refine all_orReset _ ?_
  split <;> exact ran_rx s _ _ _ (fun _ h => h) (kindRx_of rfl)

theorem ran_readOne (s : State) : (readOne s).all (Ran State.withChannels kindRx s) := by
  refine Ret.all.bind (Ran.trans frameFn_withChannels) (ran_serRead 1 s) fun bs t _ => ?_
  split <;> exact Ran.of_write rfl rfl rfl rfl

theorem ran_serPending (s : State) : (serPending s).all (Ran State.withChannels kindRx s) :=
  all_orReset _ (ran_rx s _ _ _ (fun _ h => h) (kindRx_of rfl))

theorem ran_senseLevel (s : State) : (senseLevel s).all (Ran State.withChannels kindRx s) := by
  refine all_orReset _ ?_
  split <;> exact ran_rx s _ _ _ (fun _ h => h) (kindRx_of rfl)

theorem ran_senseWait (s : State) : (senseWait s).all (Ran State.withChannels kindRx s) := by
  refine all_orReset _ ?_
  split <;> exact ran_rx s _ _ _ (fun _ h => h) (kindRx_of rfl)

theorem ran_netRead (s : State) : (netRead s).all (Ran State.withChannels kindRx s) := by
  refine all_orReset _ ?_
  split
  · exact ran_rx s _ _ _ (fun _ h => h) (kindRx_of rfl)
  · split
    next p ps h => exact ran_rx s _ _ _ (fun q hq => h ▸ List.mem_cons_of_mem p hq) (kindRx_of rfl)
    next h => exact ran_rx s _ _ _ (fun _ h => h) (kindRx_of rfl)

/-- The frame NetRead gives was readable, so it is within MTU. -/
theorem netRead_fits {s : State} (h : ∀ p ∈ s.netIn, p.length ≤ s.cfg.mtu) :
    (netRead s).ends (fun p _ => p.length ≤ s.cfg.mtu) (fun e _ => e = .ioError) (fun w _ => w = .reset) := by
  refine ends_orReset _ ?_
  split
  · rfl
  · split
    next p ps hq => exact elapse_net h p (by rw [hq]; exact List.mem_cons_self ..)
    next => rfl

theorem ran_netWrite (p : List Octet) (s : State) :
    (netWrite p s).all (Ran State.withChannels kindDeliver s) := by
  have hA (os : List Octet) : kindDeliver (.arrive os) := ⟨rfl, rfl, nofun⟩
  refine all_orReset _ ?_
  split <;> exact ran_elapse s _ _ _ (fun _ h => h) rfl ⟨rfl, rfl, nofun⟩ hA

theorem ran_turn (s : State) : Ran State.withChannels kindRx s s.elapse :=
  ⟨rfl, ⟨arrivals s.turn.rx, rfl, by simp [wireOf_arrivals], fun x hx => mem_arrivals hx ▸ kindRx_arrive _⟩,
    elapse_net⟩

theorem ran_anyReady (n : Nat) (s : State) : (anyReady n s).all (Ran State.withChannels kindRx s) := by
  induction n generalizing s with
  | zero => exact Ran.of_write rfl rfl rfl rfl
  | succ n ih =>
    unfold anyReady
    split_ifs
    · exact ran_turn s
    · exact ran_rx s _ _ _ (fun _ h => h) (kindRx_of rfl)
    · exact ran_rx s _ _ _ (fun _ h => h) (kindRx_of rfl)
    · exact (ih s.elapse).mono fun t ht => Ran.trans frameFn_withChannels _ _ _ (ran_turn s) ht

theorem ran_backoff (s : State) : (backoff s).all (Ran State.withChannels kindHost s) :=
  Ret.all.bind (Ran.trans frameFn_withChannels)
    (all_orReset _ (ran_elapse s (.rand12 s.draw) _ _ (fun _ h => h) rfl rfl fun _ => rfl))
    fun _ t _ => all_orReset _ (ran_elapse t _ _ _ (fun _ h => h) rfl rfl fun _ => rfl)

/-! ## How the primitives that raise can end -/

theorem serWait_ends (T : Nat) (s : State) :
    (serWait T s).ends (fun _ t => t.sq ≠ [] ∧ t.sq = s.sq ++ s.turn.rx)
      (fun e _ => e = .timeout ∨ e = .ioError) (fun w _ => w = .reset) := by
  refine ends_orReset _ ?_
  unfold serWaitOut
  split_ifs <;> simp_all

theorem serRead_ends (m : Nat) (s : State) :
    (serRead m s).ends
      (fun bs t => t.sq = (s.sq ++ s.turn.rx).drop bs.length ∧ bs = (s.sq ++ s.turn.rx).take bs.length ∧
        (s.sq ≠ [] → 0 < m → bs ≠ []) ∧ bs.length ≤ m)
      (fun e _ => e = .ioError) (fun w _ => w = .reset) := by
  refine ends_orReset _ ?_
  split
  · rfl
  · simp only [ends_done, record_sq, elapse_sq, readCount]
    set q := s.sq ++ s.turn.rx with hq
    have hk : min (max 1 (s.turn.short.getD m)) (min m q.length) ≤ q.length := by omega
    refine ⟨?_, ?_, fun hs hm h => ?_, ?_⟩
    · rw [List.length_take, Nat.min_eq_left hk]
    · rw [List.length_take, Nat.min_eq_left hk]
    · have hl : 0 < q.length := by
        rw [hq, List.length_append]
        have := List.length_pos_iff.2 hs
        omega
      have := congrArg List.length h
      rw [List.length_take, Nat.min_eq_left hk, List.length_nil] at this
      exact absurd this (Nat.ne_of_gt (lt_min (lt_max_of_lt_left Nat.one_pos) (lt_min hm hl)))
    · rw [List.length_take, Nat.min_eq_left hk]
      exact (Nat.min_le_right _ _).trans (Nat.min_le_left _ _)

theorem readOne_ends (s : State) :
    (readOne s).ends (fun o t => s.sq ++ s.turn.rx = o :: t.sq) (fun e _ => e = .ioError)
      (fun w _ => w = .reset) := by
  unfold readOne
  rw [ends_bind]
  refine (serRead_ends 1 s).mono (fun bs t h => ?_) (fun _ _ h => h) (fun _ _ h => h)
  obtain ⟨h1, h2, -, h4⟩ := h
  match bs, h2, h4 with
  | [], _, _ => rfl
  | [e], h2, _ =>
    match hq : s.sq ++ s.turn.rx with
    | [] => rw [hq] at h2; simp at h2
    | a :: q =>
      rw [hq] at h1 h2
      simp only [List.length_cons, List.length_nil, List.take_succ_cons, List.take_zero, List.cons.injEq,
        and_true, List.drop_succ_cons, List.drop_zero] at h1 h2
      simp [h1, h2]

theorem serWrite_ends (bs : List Octet) (s : State) :
    (serWrite bs s).ends (fun out _ => out = writeOut bs s.turn) (fun _ _ => False) (fun w _ => w = .reset) :=
  ends_orReset _ (by rfl)

theorem serPending_ends (s : State) :
    (serPending s).ends (fun k t => k = t.sq.length) (fun _ _ => False) (fun w _ => w = .reset) :=
  ends_orReset _ (by rfl)

theorem backoff_ends (s : State) :
    (backoff s).ends (fun _ _ => True) (fun _ _ => False) (fun w _ => w = .reset) := by
  rw [backoff, ends_bind]
  exact Ret.ends.mono (ends_orReset _ (D := fun _ _ => True) (E := fun _ _ => False) (by trivial))
    (fun _ t _ => ends_orReset _ (by trivial)) (fun _ _ h => h) fun _ _ h => h

theorem senseLevel_ends (s : State) :
    (senseLevel s).ends (fun v t => v = s.elapse.sense ∧ t = s.elapse.record (.senseLevel (some v)))
      (fun e _ => e = .ioError) (fun w _ => w = .reset) := by
  refine ends_orReset _ ?_
  split <;> simp

theorem senseWait_ends (s : State) :
    (senseWait s).ends (fun _ _ => True) (fun e _ => e = .ioError) (fun w _ => w = .reset) := by
  refine ends_orReset _ ?_
  split <;> simp

theorem netWrite_ends (p : List Octet) (s : State) :
    (netWrite p s).ends (fun _ _ => True) (fun e _ => e = .ioError) (fun w _ => w = .reset) := by
  refine ends_orReset _ ?_
  split <;> simp

end Sys2Proof.Machine
end

