-- ==== Sys2Proof/Laws/Units.lean ====
section
/-! SUPPORT. What each operation's body can do, said once: the registers it may write, that the ghost log and
WIRE grow together, and that the network interface's frames stay within MTU. -/

namespace Sys2Proof.Machine

theorem frameFn_withTx : FrameFn State.withTx := ⟨fun _ _ _ => rfl, fun _ _ => rfl⟩
theorem frameFn_withEnc : FrameFn State.withEnc := ⟨fun _ _ _ => rfl, fun _ _ => rfl⟩
theorem frameFn_withDec : FrameFn State.withDec := ⟨fun _ _ _ => rfl, fun _ _ => rfl⟩
theorem frameFn_withRead : FrameFn State.withRead := ⟨fun _ _ _ => rfl, fun _ _ => rfl⟩
theorem frameFn_withNatRx : FrameFn State.withNatRx := ⟨fun _ _ _ => rfl, fun _ _ => rfl⟩
theorem frameFn_withNatTx : FrameFn State.withNatTx := ⟨fun _ _ _ => rfl, fun _ _ => rfl⟩
theorem frameFn_withTap : FrameFn State.withTap := ⟨fun _ _ _ => rfl, fun _ _ => rfl⟩
theorem frameFn_withBridge : FrameFn State.withBridge := ⟨fun _ _ _ => rfl, fun _ _ => rfl⟩

theorem Ran.refl {f : State → State → State} {K : Xact → Prop} (hf : ∀ s, f s s = s) (s : State) :
    Ran f K s s := Ran.of_write (hf s).symm rfl rfl rfl

/-! ## OCT -/

theorem ran_awaitEcho (s : State) : (awaitEcho s).all (Ran State.withChannels kindRx s) :=
  Ret.all.bind (Ran.trans frameFn_withChannels) (ran_serWait _ s) fun _ t _ =>
    Ret.all.bind (Ran.trans frameFn_withChannels) (ran_readOne t) fun _ u _ => by
      split <;> exact Ran.of_write rfl rfl rfl rfl

theorem ran_afterWrite (out : WriteOut) (s : State) : (afterWrite out s).all (Ran State.withChannels kindRx s) := by
  unfold afterWrite
  split
  · exact Ran.of_write rfl rfl rfl rfl
  · exact Ran.of_write rfl rfl rfl rfl
  · exact ran_awaitEcho s

theorem ran_txRaw (o : Octet) (s : State) : (txRaw o s).all (Ran State.withTx kindTx s) := by
  refine Ret.all.bind (Ran.trans frameFn_withTx) ?_ fun out t _ =>
    (ran_afterWrite out t).mono fun _ hu => hu.widen fun _ _ => rfl
  exact (ran_serWrite [o] _).mono fun t ht =>
    Ran.trans frameFn_withTx _ _ _ (Ran.of_write (t := { s with txlast := o }) rfl rfl rfl rfl)
      (ht.widen fun _ _ => rfl)

theorem ran_rxRaw (s : State) : (rxRaw s).all (Ran State.withChannels kindRx s) :=
  Ret.all.bind (Ran.trans frameFn_withChannels) (ran_serWait _ s) fun _ t _ => ran_readOne t

theorem ran_discard (n : Nat) (s : State) : (discard n s).all (Ran State.withChannels kindRx s) := by
  induction n generalizing s with
  | zero => exact Ran.of_write rfl rfl rfl rfl
  | succ n ih =>
    exact Ret.all.bind (Ran.trans frameFn_withChannels) (ran_readOne s) fun _ t _ => ih t

theorem ran_flush (s : State) : (flush s).all (Ran State.withChannels kindRx s) :=
  Ret.all.bind (Ran.trans frameFn_withChannels) (ran_serPending s) fun _ t _ =>
    Ret.all.bind (Ran.trans frameFn_withChannels) (ran_discard _ t) fun _ _ _ => Ran.of_write rfl rfl rfl rfl

/-! ## EMU, encoder -/

theorem ran_encOctet (b : Octet) (s : State) : (encOctet b s).all (Ran State.withTx kindTx s) := by
  unfold encOctet sendEscaped sendPlain
  split
  · exact Ret.all.bind (Ran.trans frameFn_withTx) (ran_txRaw _ s) fun _ t _ => ran_txRaw b t
  · exact ran_txRaw b s

theorem ran_encOctet_enc (b : Octet) (s t : State) (h : Ran State.withEnc kindTx s t) :
    (encOctet b t).all (Ran State.withEnc kindTx s) :=
  (ran_encOctet b t).mono fun _ hu => Ran.trans frameFn_withEnc _ _ _ h (hu.widen fun _ _ => rfl)

theorem ran_sendPayload (i : Nat) (p : List Octet) (s : State) :
    (sendPayload i p s).all (Ran State.withEnc kindTx s) := by
  induction p generalizing i s with
  | nil => exact Ran.of_write rfl rfl rfl rfl
  | cons b bs ih =>
    refine Ret.all.bind (Ran.trans frameFn_withEnc)
      (ran_encOctet_enc b s _ (Ran.of_write rfl rfl rfl rfl)) fun _ t _ => ?_
    exact (ih (i + 1) _).mono fun u hu =>
      Ran.trans frameFn_withEnc _ _ _ (Ran.of_write (t := feedAcc b t) rfl rfl rfl rfl) hu

theorem ran_sendTail (s : State) : (sendTail s).all (Ran State.withEnc kindTx s) := by
  refine Ret.all.bind (Ran.trans frameFn_withEnc)
    (ran_encOctet_enc _ s _ (Ran.of_write rfl rfl rfl rfl)) fun _ t _ => ?_
  refine Ret.all.bind (Ran.trans frameFn_withEnc)
    (ran_encOctet_enc _ t _ (Ran.of_write rfl rfl rfl rfl)) fun _ u _ => ?_
  refine Ret.all.bind (Ran.trans frameFn_withEnc) ?_ fun _ v _ => Ran.of_write rfl rfl rfl rfl
  exact (ran_txRaw u.cfg.endOctet _).mono fun v hv =>
    Ran.trans frameFn_withEnc _ _ _ (Ran.of_write (t := { u with txphase := .term }) rfl rfl rfl rfl)
      (hv.widen fun _ _ => rfl)

theorem ran_sendFrame (p : List Octet) (s : State) : (sendFrame p s).all (Ran State.withEnc kindTx s) := by
  refine Ret.all.onRaise (Ran.trans frameFn_withEnc) ?_ fun t => Ran.of_write rfl rfl rfl rfl
  refine Ret.all.bind (Ran.trans frameFn_withEnc) ?_ fun _ t _ => ran_sendTail t
  exact (ran_sendPayload 0 p _).mono fun t ht =>
    Ran.trans frameFn_withEnc _ _ _
      (Ran.of_write (t := { seedAcc s with txphase := .payload }) rfl rfl rfl rfl) ht

theorem ran_encFrame (p : List Octet) (s : State) : (encFrame p s).all (Ran State.withEnc kindTx s) := by
  refine Ret.all.bind (Ran.trans frameFn_withEnc) ?_ fun _ t _ => ran_sendFrame p t
  refine Ret.all.onRaise (Ran.trans frameFn_withEnc) ?_ fun t => Ran.of_write rfl rfl rfl rfl
  exact (ran_flush _).mono fun t ht =>
    Ran.trans frameFn_withEnc _ _ _ (Ran.of_write (t := { s with txphase := .drain }) rfl rfl rfl rfl)
      (ht.widen fun _ _ => rfl)

/-! ## EMU, decoder -/

theorem ran_storeOctet (o : Octet) (s : State) : (storeOctet o s).all (Ran State.withDec kindRx s) := by
  unfold storeOctet
  split <;> exact Ran.of_write rfl rfl rfl rfl

theorem ran_symLit (o : Octet) (s : State) : (symLit o s).all (Ran State.withDec kindRx s) :=
  (ran_storeOctet o _).mono fun _ ht =>
    Ran.trans frameFn_withDec _ _ _ (Ran.of_write (t := { s with dstate := .awaitOctet }) rfl rfl rfl rfl) ht

theorem ran_symEnd (s : State) : (symEnd s).all (Ran State.withDec kindRx s) := by
  unfold symEnd
  split <;> exact Ran.of_write rfl rfl rfl rfl

theorem ran_decLoop (n : Nat) (s : State) : (decLoop n s).all (Ran State.withDec kindRx s) := by
  induction n generalizing s with
  | zero => exact Ran.of_write rfl rfl rfl rfl
  | succ n ih =>
    refine Ret.all.bind (Ran.trans frameFn_withDec) ?_ fun o t _ => ?_
    · refine Ret.all.onRaise (Ran.trans frameFn_withDec) ?_ fun t => Ran.of_write rfl rfl rfl rfl
      exact (ran_rxRaw s).mono fun t ht => ht.widen fun _ _ => rfl
    · split_ifs
      · exact Ret.all.bind (Ran.trans frameFn_withDec) (ran_symLit o t) fun _ u _ => ih u
      · exact (ih _).mono fun u hu =>
          Ran.trans frameFn_withDec _ _ _ (Ran.of_write (t := symEsc t) rfl rfl rfl rfl) hu
      · exact ran_symEnd t
      · exact Ret.all.bind (Ran.trans frameFn_withDec) (ran_storeOctet o t) fun _ u _ => ih u

theorem ran_decFrame (s : State) : (decFrame s).all (Ran State.withDec kindRx s) :=
  (ran_decLoop _ _).mono fun _ ht =>
    Ran.trans frameFn_withDec _ _ _ (Ran.of_write (t := decStart s) rfl rfl rfl rfl) ht

/-! ## NAT -/

theorem ran_readLoop (n k : Nat) (s : State) : (readLoop n k s).all (Ran State.withRead kindRx s) := by
  induction n generalizing s with
  | zero => exact Ran.of_write rfl rfl rfl rfl
  | succ n ih =>
    unfold readLoop
    split
    · refine Ret.all.bind (Ran.trans frameFn_withRead)
        ((ran_serWait _ s).mono fun t ht => ht.widen fun _ _ => rfl) fun _ t _ => ?_
      refine Ret.all.bind (Ran.trans frameFn_withRead)
        ((ran_serRead _ t).mono fun u hu => hu.widen fun _ _ => rfl) fun bs u _ => ?_
      exact (ih _).mono fun v hv =>
        Ran.trans frameFn_withRead _ _ _ (Ran.of_write (t := storeRead bs u) rfl rfl rfl rfl) hv
    · exact Ran.of_write rfl rfl rfl rfl

theorem ran_rdBytes (k : Nat) (s : State) : (rdBytes k s).all (Ran State.withRead kindRx s) :=
  (ran_readLoop k k _).mono fun _ ht =>
    Ran.trans frameFn_withRead _ _ _ (Ran.of_write (t := { s with ncnt := 0 }) rfl rfl rfl rfl) ht

theorem ran_natLenOk (n : Word16) (s : State) : (natLenOk n s).all (Ran State.withNatRx kindDeliver s) := by
  refine Ret.all.onRaise (Ran.trans frameFn_withNatRx) ?_ fun t => Ran.of_write rfl rfl rfl rfl
  refine Ret.all.bind (Ran.trans frameFn_withNatRx) ?_ fun _ t _ => ?_
  · exact (ran_rdBytes _ _).mono fun t ht =>
      Ran.trans frameFn_withNatRx _ _ _
        (Ran.of_write (t := { s with len := n, nstate := .payload }) rfl rfl rfl rfl) (ht.widen fun _ _ => rfl)
  · exact Ret.all.bind (Ran.trans frameFn_withNatRx)
      ((ran_netWrite _ t).mono fun u hu => hu.widen fun _ _ => rfl)
      fun _ u _ => Ran.of_write rfl rfl rfl rfl

theorem ran_natLenOver (n : Word16) (s : State) : (natLenOver n s).all (Ran State.withNatRx kindDeliver s) :=
  Ran.of_write rfl rfl rfl rfl

theorem ran_natRx (s : State) : (natRx s).all (Ran State.withNatRx kindDeliver s) := by
  refine Ret.all.bind (Ran.trans frameFn_withNatRx) ?_ fun _ t _ => ?_
  · refine Ret.all.onRaise (Ran.trans frameFn_withNatRx) ?_ fun t => Ran.of_write rfl rfl rfl rfl
    exact (ran_rdBytes _ _).mono fun t ht =>
      Ran.trans frameFn_withNatRx _ _ _
        (Ran.of_write (t := { s with nstate := .lenPrefix }) rfl rfl rfl rfl) (ht.widen fun _ _ => rfl)
  · split
    · exact ran_natLenOk _ t
    · exact ran_natLenOver _ t

theorem ran_pollLoop (w : Wait) (n k : Nat) (s : State) :
    (pollLoop w n k s).all (Ran State.withChannels kindRx s) := by
  induction n generalizing k s with
  | zero => exact Ran.of_write rfl rfl rfl rfl
  | succ n ih =>
    refine Ret.all.bind (Ran.trans frameFn_withChannels) (ran_senseLevel s) fun v t _ => ?_
    split_ifs
    · exact Ran.of_write rfl rfl rfl rfl
    · exact Ran.of_write rfl rfl rfl rfl
    · exact Ret.all.bind (Ran.trans frameFn_withChannels) (ran_senseWait t) fun _ u _ => ih (k + 1) u

theorem ran_sensePoll (w : Wait) (s : State) : (sensePoll w s).all (Ran State.withChannels kindRx s) :=
  ran_pollLoop w _ 0 s

theorem ran_afterNatWrite (n : Nat) (out : WriteOut) (s : State) :
    (afterNatWrite n out s).all (Ran State.withNatTx kindTx s) := by
  unfold afterNatWrite
  split
  · exact Ran.of_write rfl rfl rfl rfl
  · split_ifs <;> exact Ran.of_write rfl rfl rfl rfl

theorem ran_sendNFrame (p : List Octet) (s : State) : (sendNFrame p s).all (Ran State.withNatTx kindTx s) := by
  refine Ret.all.onRaise (Ran.trans frameFn_withNatTx) ?_ fun t => Ran.of_write rfl rfl rfl rfl
  exact Ret.all.bind (Ran.trans frameFn_withNatTx)
    ((ran_serWrite _ s).mono fun t ht => ht.widen fun _ _ => rfl) fun out t _ => ran_afterNatWrite _ out t

theorem ran_natTx (w : Wait) (p : List Octet) (s : State) : (natTx w p s).all (Ran State.withNatTx kindTx s) := by
  refine Ret.all.bind (Ran.trans frameFn_withNatTx) ?_ fun _ t _ => ?_
  · refine Ret.all.onRaise (Ran.trans frameFn_withNatTx) ?_ fun t => Ran.of_write rfl rfl rfl rfl
    exact (ran_sensePoll w _).mono fun t ht =>
      Ran.trans frameFn_withNatTx _ _ _
        (Ran.of_write (t := { s with nstate := .senseWait }) rfl rfl rfl rfl) (ht.widen fun _ _ => rfl)
  · exact (ran_sendNFrame p _).mono fun u hu =>
      Ran.trans frameFn_withNatTx _ _ _ (Ran.of_write (t := { t with nstate := .write }) rfl rfl rfl rfl) hu

/-! ## Host agent -/

theorem ran_attempts (n : Nat) (p : List Octet) (s : State) : (attempts n p s).all (Ran State.withTap kindHost s) := by
  induction n generalizing s with
  | zero =>
    have h := ran_encFrame p s
    unfold attempts
    split <;> rename_i heq <;> rw [heq] at h
    · exact h.widen fun _ _ => rfl
    · exact Ran.trans frameFn_withTap _ _ _ (h.widen fun _ _ => rfl)
        ⟨rfl, ⟨[.logDropped], rfl, by simp [wireOf, Xact.written],
          fun x hx => by rw [List.mem_singleton.1 hx]; rfl⟩, id⟩
    · exact h.widen fun _ _ => rfl
  | succ n ih =>
    have h := ran_encFrame p s
    unfold attempts
    split <;> rename_i heq <;> rw [heq] at h
    · exact h.widen fun _ _ => rfl
    next e t =>
      have h1 : Ran State.withTap kindHost s t := h.widen fun _ _ => rfl
      have h2 : Ran State.withTap kindHost t { t with attempt := t.attempt + 1 } := Ran.of_write rfl rfl rfl rfl
      refine Ret.all.bind (Ran.trans frameFn_withTap) ?_ fun _ u _ => ih u
      exact (ran_backoff _).mono fun u hu =>
        Ran.trans frameFn_withTap _ _ _ h1 (Ran.trans frameFn_withTap _ _ _ h2 (hu.widen fun _ _ => rfl))
    · exact h.widen fun _ _ => rfl

theorem ran_tap2tty (p : List Octet) (s : State) : (tap2tty p s).all (Ran State.withTap kindHost s) :=
  (ran_attempts _ p _).mono fun _ ht =>
    Ran.trans frameFn_withTap _ _ _ (Ran.of_write (t := { s with attempt := 0 }) rfl rfl rfl rfl) ht

theorem ran_bridgeSend (p : List Octet) (s : State) : (bridgeSend p s).all (Ran State.withBridge kindAny s) := by
  unfold bridgeSend
  split
  · exact Ret.all.catching (Ran.trans frameFn_withBridge)
      ((ran_tap2tty p s).mono fun t ht => ht.widen fun _ _ => rfl)
      (fun _ t _ => Ran.of_write rfl rfl rfl rfl) (fun t _ => Ran.of_write rfl rfl rfl rfl)
  · exact Ret.all.catching (Ran.trans frameFn_withBridge)
      ((ran_natTx _ p s).mono fun t ht => ht.widen fun _ _ => rfl)
      (fun _ t _ => Ran.of_write rfl rfl rfl rfl) (fun t _ => Ran.of_write rfl rfl rfl rfl)

theorem ran_bridgeReceive (s : State) : (bridgeReceive s).all (Ran State.withBridge kindAny s) := by
  unfold bridgeReceive
  split
  · exact Ret.all.catching (Ran.trans frameFn_withBridge)
      ((ran_decFrame s).mono fun t ht => ht.widen fun _ _ => rfl)
      (fun n t _ => Ret.all.bind (Ran.trans frameFn_withBridge)
        ((ran_netWrite _ t).mono fun u hu => hu.widen fun _ _ => rfl)
        fun _ u _ => Ran.of_write rfl rfl rfl rfl)
      (fun t _ => Ran.of_write rfl rfl rfl rfl)
  · exact Ret.all.catching (Ran.trans frameFn_withBridge)
      ((ran_natRx s).mono fun t ht => ht.widen fun _ _ => rfl)
      (fun _ t _ => Ran.of_write rfl rfl rfl rfl) (fun t _ => Ran.of_write rfl rfl rfl rfl)

theorem ran_brgStep (s : State) : (brgStep s).all (Ran State.withBridge kindAny s) := by
  refine Ret.all.bind (Ran.trans frameFn_withBridge)
    ((ran_anyReady _ s).mono fun t ht => ht.widen fun _ _ => rfl) fun d t _ => ?_
  split
  · exact Ret.all.bind (Ran.trans frameFn_withBridge)
      ((ran_netRead t).mono fun u hu => hu.widen fun _ _ => rfl) fun p u _ => ran_bridgeSend p u
  · exact ran_bridgeReceive t

end Sys2Proof.Machine
end

