-- ==== Sys2Proof/Laws/Outcomes.lean ====
section
/-! SUPPORT. How each operation's body can end: with which errors, in which phase, and which of them can be left
waiting (spec/60_exceptions.md R242, 70_reset_and_hazards.md R302). -/

namespace Sys2Proof.Machine

theorem transmitErrors_of_read {e : Err} (h : e = .timeout ∨ e = .ioError) : e ∈ transmitErrors := by
  rcases h with rfl | rfl <;> decide

theorem awaitEcho_ends (s : State) :
    (awaitEcho s).ends (fun _ _ => True) (fun e _ => e ∈ transmitErrors) (fun w _ => w = .reset) := by
  rw [awaitEcho, ends_bind]
  refine (serWait_ends _ s).mono (fun _ t _ => ?_) (fun e _ h => transmitErrors_of_read h) fun _ _ h => h
  rw [ends_bind]
  refine (readOne_ends t).mono (fun o u _ => ?_) (fun e _ h => h ▸ by decide) fun _ _ h => h
  split
  · show Err.lineContention ∈ transmitErrors
    decide
  · trivial

/-- TX.RAW: the four errors of R132, left in progress only by a reset. -/
theorem txRaw_ends (o : Octet) (s : State) :
    (txRaw o s).ends (fun _ _ => True) (fun e _ => e ∈ transmitErrors) (fun w _ => w = .reset) := by
  rw [txRaw, ends_bind]
  refine (serWrite_ends _ _).mono (fun out t _ => ?_) (fun _ _ h => h.elim) fun _ _ h => h
  unfold afterWrite
  split
  · show Err.ioError ∈ transmitErrors
    decide
  · show Err.busy ∈ transmitErrors
    decide
  · exact awaitEcho_ends _

theorem rxRaw_ends (s : State) :
    (rxRaw s).ends (fun _ _ => True) (fun e _ => e = .timeout ∨ e = .ioError) (fun w _ => w = .reset) := by
  rw [rxRaw, ends_bind]
  exact (serWait_ends _ s).mono (fun _ t _ => (readOne_ends t).mono (fun _ _ _ => trivial) (fun _ _ h => .inr h)
    fun _ _ h => h) (fun _ _ h => h) fun _ _ h => h

theorem discard_ends (n : Nat) (s : State) :
    (discard n s).ends (fun _ _ => True) (fun e _ => e = .ioError) (fun w _ => w = .reset) := by
  induction n generalizing s with
  | zero => trivial
  | succ n ih =>
    rw [discard, ends_bind]
    exact (readOne_ends s).mono (fun _ t _ => ih t) (fun _ _ h => h) fun _ _ h => h

theorem flush_ends (s : State) :
    (flush s).ends (fun _ _ => True) (fun e _ => e = .ioError) (fun w _ => w = .reset) := by
  rw [flush, ends_bind]
  refine (serPending_ends s).mono (fun k t _ => ?_) (fun _ _ h => h.elim) fun _ _ h => h
  rw [ends_bind]
  exact (discard_ends k t).mono (fun _ _ _ => trivial) (fun _ _ h => h) fun _ _ h => h

theorem encOctet_ends (b : Octet) (s : State) :
    (encOctet b s).ends (fun _ _ => True) (fun e _ => e ∈ transmitErrors) (fun w _ => w = .reset) := by
  unfold encOctet sendEscaped sendPlain
  split
  · rw [ends_bind]
    exact (txRaw_ends _ s).mono (fun _ t _ => txRaw_ends b t) (fun _ _ h => h) fun _ _ h => h
  · exact txRaw_ends b s

theorem sendPayload_ends (i : Nat) (p : List Octet) (s : State) :
    (sendPayload i p s).ends (fun _ _ => True) (fun e _ => e ∈ transmitErrors) (fun w _ => w = .reset) := by
  induction p generalizing i s with
  | nil => trivial
  | cons b bs ih =>
    rw [sendPayload, ends_bind]
    exact (encOctet_ends b _).mono (fun _ _ _ => ih _ _) (fun _ _ h => h) fun _ _ h => h

theorem sendTail_ends (s : State) :
    (sendTail s).ends (fun _ t => t.txphase = .done) (fun e _ => e ∈ transmitErrors) (fun w _ => w = .reset) := by
  rw [sendTail, ends_bind]
  refine (encOctet_ends _ _).mono (fun _ t _ => ?_) (fun _ _ h => h) fun _ _ h => h
  rw [ends_bind]
  refine (encOctet_ends _ _).mono (fun _ u _ => ?_) (fun _ _ h => h) fun _ _ h => h
  rw [ends_bind]
  exact (txRaw_ends _ _).mono (fun _ _ _ => rfl) (fun _ _ h => h) fun _ _ h => h

/-- The frame after the drain: `Done` on success, `Failed` on an error (R156). -/
theorem sendFrame_ends (p : List Octet) (s : State) :
    (sendFrame p s).ends (fun _ t => t.txphase = .done)
      (fun e t => e ∈ transmitErrors ∧ t.txphase = .failed) (fun w _ => w = .reset) := by
  rw [sendFrame, ends_onRaise, ends_bind]
  exact (sendPayload_ends 0 p _).mono
    (fun _ t _ => (sendTail_ends t).mono (fun _ _ h => h) (fun _ _ h => ⟨h, rfl⟩) fun _ _ h => h)
    (fun _ _ h => ⟨h, rfl⟩) fun _ _ h => h

theorem encFrame_ends (p : List Octet) (s : State) :
    (encFrame p s).ends (fun _ t => t.txphase = .done)
      (fun e t => e ∈ transmitErrors ∧ t.txphase = .failed) (fun w _ => w = .reset) := by
  rw [encFrame, ends_bind, ends_onRaise]
  exact (flush_ends _).mono (fun _ t _ => sendFrame_ends p t) (fun _ _ h => ⟨h ▸ by decide, rfl⟩) fun _ _ h => h

/-- TAP2TTY raises nothing, and only a reset leaves it in progress (R226). -/
theorem attempts_ends (n : Nat) (p : List Octet) (s : State) :
    (attempts n p s).ends (fun v _ => v = .sent ∨ v = .dropped) (fun _ _ => False) (fun w _ => w = .reset) := by
  induction n generalizing s with
  | zero =>
    have h := encFrame_ends p s
    unfold attempts
    split <;> rename_i heq <;> rw [heq] at h
    · exact .inl rfl
    · exact .inr rfl
    · exact h
  | succ n ih =>
    have h := encFrame_ends p s
    unfold attempts
    split <;> rename_i heq <;> rw [heq] at h
    · exact .inl rfl
    · rw [ends_bind]
      exact (backoff_ends _).mono (fun _ t _ => ih t) (fun _ _ h => h) fun _ _ h => h
    · exact h

theorem tap2tty_ends (p : List Octet) (s : State) :
    (tap2tty p s).ends (fun v _ => v = .sent ∨ v = .dropped) (fun _ _ => False) (fun w _ => w = .reset) :=
  attempts_ends _ _ _

/-! ## Decoder -/

theorem storeOctet_ends (o : Octet) (s : State) (h : s.rxcnt ≤ s.cfg.rxbufCap) :
    (storeOctet o s).ends
      (fun _ t => t.cfg = s.cfg ∧ t.dstate = s.dstate ∧ t.rxcnt = s.rxcnt + 1 ∧ t.rxcnt ≤ t.cfg.rxbufCap)
      (fun e t => e = .bufferExceeded ∧ t.dstate = .failed ∧ t.rxcnt = 0) (fun w _ => w = .reset) := by
  unfold storeOctet
  split
  · exact ⟨rfl, rfl, rfl⟩
  next hne => exact ⟨rfl, rfl, rfl, Nat.lt_of_le_of_ne h hne⟩

theorem symEnd_ends (s : State) :
    (symEnd s).ends
      (fun n t => t.cfg = s.cfg ∧ t.dstate = .done ∧ t.rxcnt = s.rxcnt ∧ s.rxcnt = n + 2 ∧ t.acc = 0)
      (fun e t => e = .frameCorrupt ∧ t.dstate = .failed ∧ t.rxcnt = 0) (fun w _ => w = .reset) := by
  unfold symEnd acceptsAtEnd
  split
  next h =>
    simp only [Bool.and_eq_true, decide_eq_true_eq, beq_iff_eq] at h
    exact ⟨rfl, rfl, rfl, by omega, h.2⟩
  · exact ⟨rfl, rfl, rfl⟩

/-- Fields that RX.RAW leaves alone and the decoder's loop reads. -/
theorem rxRaw_keeps (s : State) :
    (rxRaw s).all fun t => t.cfg = s.cfg ∧ t.rxcnt = s.rxcnt ∧ t.dstate = s.dstate ∧ t.rxbuf = s.rxbuf := by
  refine (ran_rxRaw s).mono fun t h => ?_
  rw [h.frame]
  exact ⟨rfl, rfl, rfl, rfl⟩

/-- The decoder's loop with enough octets allowed: on a frame, two trailer octets are counted, they and the
payload fit the buffer, and the residue is zero; on an error, the buffer is discarded (R166, R169, R170, R171). -/
theorem decLoop_ends (n : Nat) (s : State) (h : s.rxcnt ≤ s.cfg.rxbufCap) :
    (decLoop n s).ends
      (fun k t => t.dstate = .done ∧ t.rxcnt = k + 2 ∧ k + 2 ≤ s.cfg.rxbufCap ∧ t.acc = 0)
      (fun e t => e ∈ mayRaise .decFrame ∧ t.dstate = .failed ∧ t.rxcnt = 0) (fun w _ => w = .reset) := by
  induction n generalizing s with
  | zero => exact ⟨by decide, rfl, rfl⟩
  | succ n ih =>
    rw [decLoop, ends_bind, ends_onRaise]
    have hk := rxRaw_keeps s
    refine ((rxRaw_ends s).and hk).mono (fun o t ht => ?_)
      (fun e _ he => ⟨he.1.elim (fun h => h ▸ by decide) fun h => h ▸ by decide, rfl, rfl⟩) fun _ _ hw => hw.1
    obtain ⟨-, hc, hx, -, -⟩ := ht
    have hle : t.rxcnt ≤ t.cfg.rxbufCap := by rw [hc, hx]; exact h
    split_ifs
    · rw [ends_bind]
      refine (storeOctet_ends o { t with dstate := .awaitOctet } hle).mono (fun _ u hu => ?_)
        (fun e _ he => ⟨he.1 ▸ by decide, he.2⟩) fun _ _ hw => hw
      have := ih u hu.2.2.2
      rwa [hu.1.trans hc] at this
    · have := ih (symEsc t) hle
      rwa [show (symEsc t).cfg = s.cfg from hc] at this
    · refine (symEnd_ends t).mono (fun k u hu => ⟨hu.2.1, by omega, ?_, hu.2.2.2.2⟩)
        (fun e _ he => ⟨he.1 ▸ by decide, he.2⟩) fun _ _ hw => hw
      have h1 := hu.2.2.2.1
      rw [hc] at hle
      omega
    · rw [ends_bind]
      refine (storeOctet_ends o t hle).mono (fun _ u hu => ?_)
        (fun e _ he => ⟨he.1 ▸ by decide, he.2⟩) fun _ _ hw => hw
      have := ih u hu.2.2.2
      rwa [hu.1.trans hc] at this

theorem decFrame_ends (s : State) :
    (decFrame s).ends
      (fun k t => t.dstate = .done ∧ t.rxcnt = k + 2 ∧ k + 2 ≤ s.cfg.rxbufCap ∧ t.acc = 0)
      (fun e t => e ∈ mayRaise .decFrame ∧ t.dstate = .failed ∧ t.rxcnt = 0) (fun w _ => w = .reset) :=
  decLoop_ends _ (decStart s) (Nat.zero_le _)

/-! ## NAT -/

theorem readLoop_ends (n k : Nat) (s : State) :
    (readLoop n k s).ends (fun _ _ => True) (fun e _ => e = .timeout ∨ e = .ioError) (fun w _ => w = .reset) := by
  induction n generalizing s with
  | zero => trivial
  | succ n ih =>
    unfold readLoop
    split
    · rw [ends_bind]
      refine (serWait_ends _ s).mono (fun _ t _ => ?_) (fun _ _ h => h) fun _ _ h => h
      rw [ends_bind]
      exact (serRead_ends _ t).mono (fun bs u _ => ih _) (fun _ _ h => .inr h) fun _ _ h => h
    · trivial

theorem natLenOk_ends (n : Word16) (s : State) :
    (natLenOk n s).ends (fun v t => v = .delivered n.toNat ∧ t.nstate = .done)
      (fun e t => (e = .timeout ∨ e = .ioError) ∧ t.nstate = .failed) (fun w _ => w = .reset) := by
  rw [natLenOk, ends_onRaise, ends_bind]
  refine (readLoop_ends _ _ _).mono (fun _ t _ => ?_) (fun _ _ h => ⟨h, rfl⟩) fun _ _ h => h
  rw [ends_bind]
  exact (netWrite_ends _ _).mono (fun _ _ _ => ⟨rfl, rfl⟩) (fun _ _ h => ⟨.inr h, rfl⟩) fun _ _ h => h

theorem natRx_ends (s : State) :
    (natRx s).ends (fun v t => (v = .discarded ∨ ∃ n, v = .delivered n) ∧ t.nstate = .done)
      (fun e t => (e = .timeout ∨ e = .ioError) ∧ t.nstate = .failed) (fun w _ => w = .reset) := by
  rw [natRx, ends_bind, ends_onRaise]
  refine (readLoop_ends _ _ _).mono (fun _ t _ => ?_) (fun _ _ h => ⟨h, rfl⟩) fun _ _ h => h
  split
  · exact (natLenOk_ends _ t).mono (fun _ _ h => ⟨.inr ⟨_, h.1⟩, h.2⟩) (fun _ _ h => h) fun _ _ h => h
  · exact ⟨.inl rfl, rfl⟩

/-- SENSE.POLL can end in Timeout only at the limit (R200). -/
theorem pollLoop_ends (w : Wait) (n k : Nat) (s : State) :
    (pollLoop w n k s).ends (fun _ _ => True)
      (fun e _ => e = .ioError ∨ (e = .timeout ∧ s.cfg.natWaitLimit ≠ none)) (fun v _ => v = w ∨ v = .reset) := by
  induction n generalizing k s with
  | zero => exact .inl rfl
  | succ n ih =>
    rw [pollLoop, ends_bind]
    refine (senseLevel_ends s).mono (fun v t ht => ?_) (fun _ _ h => .inl h) fun _ _ h => .inr h
    have hc : t.cfg = s.cfg := by rw [ht.2]; rfl
    split_ifs with h1 h2
    · trivial
    · refine .inr ⟨rfl, fun hn => ?_⟩
      rw [hc, hn] at h2
      exact nomatch h2
    · rw [ends_bind]
      have hr := ran_senseWait t
      refine ((senseWait_ends t).and hr).mono (fun _ u hu => ?_) (fun _ _ h => .inl h.1) fun _ _ h => .inr h.1
      have hcu : u.cfg = s.cfg := by
        have h := hu.2.frame
        rw [h]
        exact hc
      have := ih (k + 1) u
      rwa [hcu] at this

theorem afterNatWrite_ends (n : Nat) (out : WriteOut) (s : State) :
    (afterNatWrite n out s).ends (fun v t => v = .num n ∧ t.nstate = .done)
      (fun e _ => e = .busy ∨ e = .ioError) (fun _ _ => False) := by
  unfold afterNatWrite
  split
  · exact .inr rfl
  · split_ifs
    · exact .inl rfl
    · exact .inr rfl
    · exact ⟨rfl, rfl⟩

theorem sendNFrame_ends (p : List Octet) (s : State) :
    (sendNFrame p s).ends (fun v t => v = .num p.length ∧ t.nstate = .done)
      (fun e t => (e = .busy ∨ e = .ioError) ∧ t.nstate = .failed) (fun w _ => w = .reset) := by
  rw [sendNFrame, ends_onRaise, ends_bind]
  refine (serWrite_ends _ s).mono (fun out t _ => ?_) (fun _ _ h => h.elim) fun _ _ h => h
  exact (afterNatWrite_ends _ out t).mono (fun _ _ h => h) (fun _ _ h => ⟨h, rfl⟩) fun _ _ h => h.elim

theorem natTx_ends (w : Wait) (p : List Octet) (s : State) :
    (natTx w p s).ends (fun v t => v = .num p.length ∧ t.nstate = .done)
      (fun e t => (e = .busy ∨ e = .ioError ∨ (e = .timeout ∧ s.cfg.natWaitLimit ≠ none)) ∧ t.nstate = .failed)
      (fun v t => (v = w ∧ t.nstate = .senseWait) ∨ v = .reset) := by
  rw [natTx, ends_bind, ends_onRaise]
  have hr := ran_sensePoll w { s with nstate := .senseWait }
  refine ((pollLoop_ends w _ 0 _).and hr).mono (fun _ t _ => ?_)
    (fun e _ h => ⟨h.1.elim (fun h => .inr (.inl h)) fun h => .inr (.inr h), rfl⟩)
    fun v t h => h.1.imp (fun hv => ⟨hv, by have := h.2.frame; rw [this]; rfl⟩) id
  exact (sendNFrame_ends p _).mono (fun _ _ h => h)
    (fun _ _ h => ⟨h.1.elim .inl fun h => .inr (.inl h), h.2⟩) fun _ _ h => .inr h

/-! ## Host agent -/

theorem anyReady_ends (n : Nat) (s : State) :
    (anyReady n s).ends (fun _ _ => True) (fun e _ => e = .ioError)
      (fun w _ => w = .brgAny ∨ w = .reset) := by
  induction n generalizing s with
  | zero => exact .inl rfl
  | succ n ih =>
    unfold anyReady
    split_ifs
    · exact .inr rfl
    · exact rfl
    · trivial
    · exact ih s.elapse

end Sys2Proof.Machine
end

