-- ==== Sys2Proof/Laws/Bounds.lean ====
section
/-! SUPPORT. The counters and buffers stay in their ranges (spec/10_state.md R20, 20_memory.md R62). -/

namespace Sys2Proof.Machine

variable {α : Type}

/-- A fact kept by every later piece. -/
theorem Ret.all.then {β : Type} {r : Ret α} {f : α → State → Ret β} {P Q : State → Prop} (h : r.all P)
    (hf : ∀ a t, P t → (f a t).all Q) (hP : ∀ t, P t → Q t) : (r.bind f).all Q := by
  cases r with
  | done a t => exact hf a t h
  | raised e t => exact hP t h
  | waiting w t => exact hP t h

/-! ## TXIDX, TXPHASE, ATTEMPT -/

theorem encOctet_txidx (b : Octet) (s : State) : (encOctet b s).all fun t => t.txidx = s.txidx :=
  (ran_encOctet b s).mono fun t h => by rw [h.frame]; rfl

theorem sendPayload_txidx (i : Nat) (p : List Octet) (s : State) :
    (sendPayload i p s).all fun t => t.txidx = s.txidx ∨ t.txidx < i + p.length := by
  induction p generalizing i s with
  | nil => exact .inl rfl
  | cons b bs ih =>
    refine (encOctet_txidx b { s with txidx := i }).then (fun _ t ht => ?_) fun t ht => .inr ?_
    · refine (ih (i + 1) (feedAcc b t)).mono fun u hu => .inr ?_
      have : (feedAcc b t).txidx = i := ht
      rw [List.length_cons]
      omega
    · rw [List.length_cons, ht]
      exact Nat.lt_add_of_pos_right (Nat.succ_pos _)

theorem sendTail_txidx (s : State) : (sendTail s).all fun t => t.txidx = s.txidx := by
  refine (encOctet_txidx _ { s with txphase := .crcHi }).then (fun _ t ht => ?_) fun _ h => h
  refine (encOctet_txidx _ { t with txphase := .crcLo }).then (fun _ u hu => ?_) fun _ h => h.trans ht
  refine Ret.all.then (P := fun v => v.txidx = u.txidx) ?_ (fun _ v hv => hv.trans (hu.trans ht))
    fun _ h => h.trans (hu.trans ht)
  exact (ran_txRaw u.cfg.endOctet { u with txphase := .term }).mono fun v h => by rw [h.frame]; rfl

theorem onRaise_all {r : Ret α} {g : State → State} {P : State → Prop} (h : r.all P) (hg : ∀ t, P t → P (g t)) :
    (r.onRaise g).all P := by
  cases r with
  | done a t => exact h
  | raised e t => exact hg t h
  | waiting w t => exact h

theorem sendFrame_txidx (p : List Octet) (s : State) :
    (sendFrame p s).all fun t => t.txidx = s.txidx ∨ t.txidx < p.length := by
  refine onRaise_all ?_ fun _ h => h
  refine (sendPayload_txidx 0 p { seedAcc s with txphase := .payload }).then (fun _ t ht => ?_) fun t ht => ?_
  · refine (sendTail_txidx t).mono fun u hu => ?_
    rw [hu]
    simpa [seedAcc] using ht
  · simpa [seedAcc] using ht

/-- TXIDX stays below the payload's length, or as it was. -/
theorem encFrame_txidx (p : List Octet) (s : State) :
    (encFrame p s).all fun t => t.txidx = s.txidx ∨ t.txidx < p.length := by
  refine Ret.all.then (P := fun t => t.txidx = s.txidx) ?_ (fun _ t ht => ?_) fun t ht => .inl ht
  · refine onRaise_all ?_ fun _ h => h
    exact (ran_flush _).mono fun t h => by rw [h.frame]; rfl
  · rw [← ht]
    exact sendFrame_txidx p t

theorem encFrame_attempt (p : List Octet) (s : State) : (encFrame p s).all fun t => t.attempt = s.attempt :=
  (ran_encFrame p s).mono fun t h => by rw [h.frame]; rfl

/-- After TAP2TTY's attempts: the retries are counted, TXIDX is in range, and the encoder is at rest unless a reset is
due. -/
theorem attempts_bounds (n : Nat) (p : List Octet) (s : State) :
    (attempts n p s).ends
      (fun _ t => t.attempt ≤ s.attempt + n ∧ (t.txphase = .done ∨ t.txphase = .failed) ∧
        (t.txidx = s.txidx ∨ t.txidx < p.length))
      (fun _ _ => False)
      (fun w t => w = .reset ∧ t.attempt ≤ s.attempt + n ∧ (t.txidx = s.txidx ∨ t.txidx < p.length)) := by
  induction n generalizing s with
  | zero =>
    have h := encFrame_ends p s
    have ha := encFrame_attempt p s
    have hi := encFrame_txidx p s
    unfold attempts
    split <;> rename_i heq <;> rw [heq] at h ha hi
    · exact ⟨Nat.le_of_eq ha, .inl h, hi⟩
    · exact ⟨Nat.le_of_eq ha, .inr h.2, hi⟩
    · exact ⟨h, Nat.le_of_eq ha, hi⟩
  | succ n ih =>
    have h := encFrame_ends p s
    have ha := encFrame_attempt p s
    have hi := encFrame_txidx p s
    unfold attempts
    split <;> rename_i heq <;> rw [heq] at h ha hi
    · exact ⟨(Nat.le_of_eq ha).trans (Nat.le_add_right _ _), .inl h, hi⟩
    next e t =>
      have h1 : t.attempt = s.attempt := ha
      have h2 : t.txidx = s.txidx ∨ t.txidx < p.length := hi
      have hb : (backoff { t with attempt := t.attempt + 1 }).all fun u =>
          u.attempt = s.attempt + 1 ∧ u.txidx = t.txidx :=
        (ran_backoff _).mono fun u hu => by
          rw [hu.frame, ← h1]
          exact ⟨rfl, rfl⟩
      rw [ends_bind]
      refine ((backoff_ends _).and hb).mono (fun _ u hu => ?_) (fun _ _ h => h.1)
        fun _ u hu => ⟨hu.1, by omega, by omega⟩
      have hu1 : u.attempt = s.attempt + 1 := hu.2.1
      have hu2 : u.txidx = t.txidx := hu.2.2
      exact (ih u).mono (fun _ v hv => ⟨by omega, hv.2.1, by omega⟩) (fun _ _ h => h)
        fun _ v hv => ⟨hv.1, by omega, by omega⟩
    · exact ⟨h, (Nat.le_of_eq ha).trans (Nat.le_add_right _ _), hi⟩

/-! ## RXBUF, RXCNT -/

/-- RXBUF keeps its form and its bound, RXCNT its range. -/
abbrev rxFits (s : State) : Prop :=
  Memory.wf s.rxbuf ∧ Memory.below s.rxbuf s.cfg.rxbufCap ∧ s.rxcnt ≤ s.cfg.rxbufCap

theorem storeOctet_fits (o : Octet) (s : State) (h : rxFits s) : (storeOctet o s).all rxFits := by
  unfold storeOctet
  split
  · exact ⟨h.1, h.2.1, Nat.zero_le _⟩
  next hne =>
    have hlt : s.rxcnt < s.cfg.rxbufCap := Nat.lt_of_le_of_ne h.2.2 hne
    exact ⟨Memory.wf_write _ _ h.1, Memory.below_write h.2.1 hlt, hlt⟩

theorem decLoop_fits (n : Nat) (s : State) (h : rxFits s) : (decLoop n s).all rxFits := by
  induction n generalizing s with
  | zero => exact ⟨h.1, h.2.1, Nat.zero_le _⟩
  | succ n ih =>
    have hr : (rxRaw s).all rxFits := (rxRaw_keeps s).mono fun t ht => by
      obtain ⟨h1, h2, -, h4⟩ := ht
      unfold rxFits
      rw [h1, h2, h4]
      exact h
    refine Ret.all.then (onRaise_all hr fun t ht => ⟨ht.1, ht.2.1, Nat.zero_le _⟩) (fun o t ht => ?_) fun _ h => h
    split_ifs
    · exact (storeOctet_fits o { t with dstate := .awaitOctet } ht).then (fun _ u hu => ih u hu) fun _ h => h
    · exact ih (symEsc t) ht
    · unfold symEnd
      split
      · exact ht
      · exact ⟨ht.1, ht.2.1, Nat.zero_le _⟩
    · exact (storeOctet_fits o t ht).then (fun _ u hu => ih u hu) fun _ h => h

theorem decFrame_fits (s : State) (h : rxFits s) : (decFrame s).all rxFits :=
  decLoop_fits _ (decStart s) ⟨h.1, h.2.1, Nat.zero_le _⟩

/-! ## NBUF, NCNT -/

/-- NBUF keeps its form and its bound, NCNT its range. -/
abbrev nFits (s : State) : Prop :=
  Memory.wf s.nbuf ∧ Memory.below s.nbuf s.cfg.nbufCap ∧ s.ncnt ≤ s.cfg.nbufCap

theorem readLoop_fits (n k : Nat) (s : State) (h : nFits s) (hk : k ≤ s.cfg.nbufCap) :
    (readLoop n k s).all nFits := by
  induction n generalizing s with
  | zero => exact h
  | succ n ih =>
    unfold readLoop
    split
    next hlt =>
      have keep : ∀ {u v : State}, Ran State.withChannels kindRx u v → nFits u →
          nFits v ∧ v.cfg = u.cfg ∧ v.ncnt = u.ncnt := fun hr hu => by
        rw [hr.frame]
        exact ⟨hu, rfl, rfl⟩
      refine Ret.all.then (P := fun t => nFits t ∧ t.cfg = s.cfg ∧ t.ncnt = s.ncnt)
        ((ran_serWait _ s).mono fun t ht => keep ht h) (fun _ t ht => ?_) fun _ h => h.1
      have hr := ran_serRead (k - t.ncnt) t
      have he := serRead_ends (k - t.ncnt) t
      cases hd : serRead (k - t.ncnt) t with
      | raised e u =>
        rw [hd] at hr
        exact (keep hr ht.1).1
      | waiting w u =>
        rw [hd] at hr
        exact (keep hr ht.1).1
      | done bs u =>
        rw [hd] at hr he
        obtain ⟨hu, hc, hn⟩ := keep hr ht.1
        have hl : bs.length ≤ k - t.ncnt := he.2.2.2
        have hcu : u.cfg = s.cfg := hc.trans ht.2.1
        have hle : u.ncnt + bs.length ≤ u.cfg.nbufCap := by
          rw [hcu, hn]
          have := ht.2.2
          omega
        exact ih (storeRead bs u) ⟨Memory.wf_writeList _ _ hu.1, Memory.below_writeList hu.2.1 hle, hle⟩
          (by rw [show (storeRead bs u).cfg = s.cfg from hcu]; exact hk)
    · exact h

theorem rdBytes_fits (k : Nat) (s : State) (h : nFits s) (hk : k ≤ s.cfg.nbufCap) : (rdBytes k s).all nFits :=
  readLoop_fits k k _ ⟨h.1, h.2.1, Nat.zero_le _⟩ hk

theorem natLenOk_fits (n : Word16) (s : State) (h : nFits s) (hn : lenOk s.cfg.mtu n = true) :
    (natLenOk n s).all nFits := by
  refine onRaise_all ?_ fun _ h => h
  have hk : n.toNat ≤ s.cfg.nbufCap := (of_decide_eq_true hn).trans (Nat.le_max_left _ _)
  refine (rdBytes_fits n.toNat { s with len := n, nstate := .payload } h hk).then (fun _ t ht => ?_) fun _ h => h
  refine Ret.all.then (P := nFits) ((ran_netWrite _ t).mono fun u hu => ?_) (fun _ u hu => hu) fun _ h => h
  rw [hu.frame]
  exact ht

theorem natRx_fits (s : State) (h : nFits s) : (natRx s).all nFits := by
  refine Ret.all.then (P := nFits) (onRaise_all (rdBytes_fits 2 { s with nstate := .lenPrefix } h (Nat.le_max_right _ _))
    fun _ h => h) (fun _ t ht => ?_) fun _ h => h
  split
  next hl => exact natLenOk_fits _ t ht hl
  · exact ht

end Sys2Proof.Machine
end

