-- ==== Sys2Proof/Laws/Echo.lean ====
section
/-! SUPPORT. The transmit path on a quiet, healthy bus: what each operation's body gives when every octet has
its echo (spec/00_scope.md R17, IdealEcho), and the drain under quiet turns. -/

namespace Sys2Proof.Machine

/-- The transactions of a TX.RAW of each octet of `w` that has its echo. -/
def echoLog (T : Nat) (w : List Octet) : List Xact :=
  w.flatMap fun o => [.serWrite [o] (.accepted 1), .arrive [o], .serWait T .ready, .serRead 1 (some [o])]

@[simp] theorem echoLog_nil (T : Nat) : echoLog T [] = [] := rfl

theorem echoLog_append (T : Nat) (v w : List Octet) : echoLog T (v ++ w) = echoLog T v ++ echoLog T w := by
  simp [echoLog]

theorem echoScript_append (v w : List Octet) : echoScript (v ++ w) = echoScript v ++ echoScript w := by
  simp [echoScript]

@[simp] theorem echoScript_nil : echoScript [] = [] := rfl

theorem echoScript_cons (o : Octet) (w : List Octet) : echoScript (o :: w) = echoOf o ++ echoScript w := by
  simp [echoScript]

theorem sleeps_echoLog (T : Nat) (w : List Octet) : (echoLog T w).filterMap Xact.slept = [] := by
  simp [echoLog, List.filterMap_flatMap, Xact.slept]

/-- What is logged on such a bus meets the premise IdealEcho (spec/00_scope.md R17). -/
theorem echoFrom_echoLog (T : Nat) (w v : List Octet) : echoFrom v v (echoLog T w) = true := by
  induction w generalizing v with
  | nil => rfl
  | cons o w ih => simpa [echoLog, echoFrom] using ih (v ++ [o])

theorem idealEcho_echoLog (T : Nat) (w : List Octet) : IdealEcho (echoLog T w) := echoFrom_echoLog T w []

/-- TX.RAW of an octet that has its echo, with nothing pending. -/
theorem txRaw_echo {s : State} {o : Octet} {rest : List Turn} (hq : s.sq = []) (h : s.script = echoOf o ++ rest) :
    txRaw o s = .done () { s with
      txlast := o
      wire := s.wire ++ [o]
      script := rest
      trace := s.trace ++ echoLog s.cfg.tOctet [o] } := by
  simp [txRaw, serWrite, writeOut, State.elapse, State.turn, h, echoOf, afterWrite, awaitEcho, serWait, serWaitOut, hq,
    Ret.bind, readOne, serRead, readCount, State.record, ecc, WriteOut.count, echoLog, Ret.orReset, arrivals]

/-- ENC.OCTET on a healthy bus: the stuffed form is on the wire. -/
theorem encOctet_echo {s : State} {b : Octet} {rest : List Turn} (hq : s.sq = [])
    (h : s.script = echoScript (stuff s.cfg b) ++ rest) :
    encOctet b s = .done () { s with
      txlast := b
      wire := s.wire ++ stuff s.cfg b
      script := rest
      trace := s.trace ++ echoLog s.cfg.tOctet (stuff s.cfg b) } := by
  unfold encOctet stuff at *
  split_ifs at * with hb
  · unfold sendEscaped
    rw [echoScript_cons, echoScript_cons, echoScript_nil, List.append_nil, List.append_assoc] at h
    rw [txRaw_echo hq h]
    simp only [Ret.bind]
    rw [txRaw_echo (rest := rest) (by simpa using hq) rfl]
    simp [echoLog]
  · rw [echoScript_cons, echoScript_nil, List.append_nil] at h
    exact txRaw_echo hq h

/-- The payload loop on a healthy bus: every octet stuffed, ACC updated over the unescaped values. -/
theorem sendPayload_echo {p : List Octet} {i : Nat} {s : State} {rest : List Turn} (hq : s.sq = [])
    (h : s.script = echoScript (p.flatMap (stuff s.cfg)) ++ rest) :
    sendPayload i p s = .done () { s with
      txlast := p.getLast?.getD s.txlast
      txidx := if p = [] then s.txidx else i + p.length - 1
      acc := p.foldl (accUpdate s.cfg) s.acc
      wire := s.wire ++ p.flatMap (stuff s.cfg)
      script := rest
      trace := s.trace ++ echoLog s.cfg.tOctet (p.flatMap (stuff s.cfg)) } := by
  induction p generalizing i s with
  | nil =>
    obtain rfl : s.script = rest := h
    simp [sendPayload]
  | cons b bs ih =>
    simp only [List.flatMap_cons, echoScript_append, List.append_assoc] at h
    unfold sendPayload
    rw [encOctet_echo (s := { s with txidx := i }) hq h]
    simp only [Ret.bind]
    rw [ih (by simpa [feedAcc] using hq) (by simp [feedAcc])]
    cases bs with
    | nil => simp [feedAcc, List.flatMap_cons]
    | cons c cs =>
      simp only [feedAcc, List.flatMap_cons, echoLog_append, List.append_assoc, List.foldl_cons,
        List.getLast?_cons_cons, reduceCtorEq, if_false, List.length_cons]
      congr 2
      · simp
        omega

/-- Trailer and END on a healthy bus. -/
theorem sendTail_echo {s : State} {rest : List Turn} (hq : s.sq = [])
    (h : s.script = echoScript ((trailer s.acc).flatMap (stuff s.cfg) ++ [s.cfg.endOctet]) ++ rest) :
    sendTail s = .done () { s with
      txlast := s.cfg.endOctet
      txphase := .done
      wire := s.wire ++ ((trailer s.acc).flatMap (stuff s.cfg) ++ [s.cfg.endOctet])
      script := rest
      trace := s.trace ++ echoLog s.cfg.tOctet ((trailer s.acc).flatMap (stuff s.cfg) ++ [s.cfg.endOctet]) } := by
  simp only [trailer, List.flatMap_cons, List.flatMap_nil, List.append_nil, echoScript_append,
    List.append_assoc] at h
  unfold sendTail
  rw [encOctet_echo (s := { s with txphase := .crcHi }) hq h]
  simp only [Ret.bind]
  rw [encOctet_echo (rest := echoScript [s.cfg.endOctet] ++ rest) (by simpa using hq) rfl]
  simp only
  rw [txRaw_echo (rest := rest) (by simpa using hq) (by simp [echoScript])]
  simp [trailer, echoLog_append]

/-- The whole frame after the drain, on a healthy bus. -/
theorem sendFrame_echo {p : List Octet} {s : State} {rest : List Turn} (hq : s.sq = [])
    (h : s.script = echoScript (eframeWire s.cfg p) ++ rest) :
    sendFrame p s = .done () { s with
      txlast := s.cfg.endOctet
      txphase := .done
      txidx := if p = [] then s.txidx else p.length - 1
      acc := crcFold s.cfg p
      wire := s.wire ++ eframeWire s.cfg p
      script := rest
      trace := s.trace ++ echoLog s.cfg.tOctet (eframeWire s.cfg p) } := by
  simp only [eframeWire, frameOctets, List.flatMap_append, echoScript_append, List.append_assoc] at h
  unfold sendFrame
  rw [sendPayload_echo (s := { seedAcc s with txphase := .payload }) (by simpa [seedAcc] using hq)
    (by simpa [seedAcc] using h)]
  simp only [Ret.bind, seedAcc]
  rw [sendTail_echo (rest := rest) (by simpa using hq) (by simp [crcFold, echoScript_append])]
  simp [Ret.onRaise, crcFold, eframeWire, frameOctets, echoLog_append]

/-- The transactions of a drain of `q` whose reads go through whole. -/
def drainLog (q : List Octet) : List Xact :=
  .serPending q.length :: q.map fun o => .serRead 1 (some [o])

theorem sleeps_drainLog (q : List Octet) : (drainLog q).filterMap Xact.slept = [] := by
  simp [drainLog, List.filterMap_cons, List.filterMap_map, Xact.slept]

theorem discard_quiet (q : List Octet) {s : State} {rest : List Turn} (hq : s.sq = q)
    (h : s.script = quiet q.length ++ rest) :
    discard q.length s = .done () { s with
      sq := []
      script := rest
      trace := s.trace ++ q.map fun o => .serRead 1 (some [o]) } := by
  induction q generalizing s with
  | nil =>
    obtain rfl : s.script = rest := h
    show Ret.done () s = _
    rw [show s.trace ++ List.map (fun o => Xact.serRead 1 (some [o])) [] = s.trace by simp]
    congr 1
    cases s
    simpa using hq
  | cons o q ih =>
    simp only [quiet, List.length_cons, List.replicate_succ, List.cons_append] at h
    have hr : readOne s = .done o { s with
        sq := q
        script := quiet q.length ++ rest
        trace := s.trace ++ [.serRead 1 (some [o])] } := by
      simp [readOne, serRead, turn_cons h, elapse_quiet h, Ret.bind, readCount, State.record, hq, quiet, Ret.orReset]
    simp only [List.length_cons, discard, hr, Ret.bind]
    rw [ih rfl rfl]
    simp

/-- FLUSH under quiet turns: everything pending is discarded. -/
theorem flush_quiet {s : State} {rest : List Turn} (h : s.script = quiet (s.sq.length + 1) ++ rest) :
    flush s = .done s.sq.length { s with
      sq := []
      script := rest
      trace := s.trace ++ drainLog s.sq } := by
  simp only [quiet, List.replicate_succ, List.cons_append] at h
  simp only [flush, serPending, elapse_quiet h, turn_cons h, State.record, Ret.orReset, Bool.false_eq_true, if_false,
    Ret.bind]
  have hd := discard_quiet s.sq (rest := rest)
    (s := { s with
      script := List.replicate s.sq.length {} ++ rest, trace := s.trace ++ [.serPending s.sq.length] }) rfl rfl
  rw [hd]
  simp [drainLog]

/-- ENC.FRAME's body with any stale octets pending, under quiet turns and then a healthy bus. -/
theorem encFrame_echo {p : List Octet} {s : State} {rest : List Turn}
    (h : s.script = quiet (s.sq.length + 1) ++ (echoScript (eframeWire s.cfg p) ++ rest)) :
    encFrame p s = .done () { s with
      sq := []
      txlast := s.cfg.endOctet
      txphase := .done
      txidx := if p = [] then s.txidx else p.length - 1
      acc := crcFold s.cfg p
      wire := s.wire ++ eframeWire s.cfg p
      script := rest
      trace := s.trace ++ drainLog s.sq ++ echoLog s.cfg.tOctet (eframeWire s.cfg p) } := by
  unfold encFrame
  rw [flush_quiet (s := { s with txphase := .drain }) h]
  simp only [Ret.onRaise, Ret.bind]
  rw [sendFrame_echo (rest := rest) rfl rfl]

/-- An attempt that goes through is the last. -/
theorem attempts_sent {p : List Octet} {s t : State} (n : Nat) (h : encFrame p s = .done () t) :
    attempts n p s = .done .sent t := by cases n <;> simp [attempts, h]

/-- TAP2TTY's body when its first attempt succeeds. -/
theorem tap2tty_echo {p : List Octet} {s : State} {rest : List Turn}
    (h : s.script = quiet (s.sq.length + 1) ++ (echoScript (eframeWire s.cfg p) ++ rest)) :
    tap2tty p s = .done .sent { s with
      attempt := 0
      sq := []
      txlast := s.cfg.endOctet
      txphase := .done
      txidx := if p = [] then s.txidx else p.length - 1
      acc := crcFold s.cfg p
      wire := s.wire ++ eframeWire s.cfg p
      script := rest
      trace := s.trace ++ drainLog s.sq ++ echoLog s.cfg.tOctet (eframeWire s.cfg p) } := by
  exact attempts_sent _ (encFrame_echo (s := { s with attempt := 0 }) h)

end Sys2Proof.Machine
end

