-- ==== Sys2Proof/Laws/Encoding.lean ====
section
/-! SUPPORT. Halves and concatenation, the length operand, and that stuffing loses nothing. -/

namespace Sys2Proof

theorem cat_toNat (h l : Octet) : (cat h l).toNat = h.toNat * 256 + l.toNat := by
  simp only [cat, BitVec.toNat_append]
  rw [← Nat.shiftLeft_add_eq_or_of_lt l.isLt, Nat.shiftLeft_eq]

theorem hi_toNat (v : Word16) : (hi v).toNat = v.toNat / 256 := by
  have := v.isLt
  simp [hi, Nat.shiftRight_eq_div_pow]
  omega

theorem lo_toNat (v : Word16) : (lo v).toNat = v.toNat % 256 := by simp [lo]

theorem cat_hi_lo (v : Word16) : cat (hi v) (lo v) = v := by
  apply BitVec.eq_of_toNat_eq
  rw [cat_toNat, hi_toNat, lo_toNat]
  omega

theorem hi_cat (h l : Octet) : hi (cat h l) = h := by
  apply BitVec.eq_of_toNat_eq
  have := l.isLt
  rw [hi_toNat, cat_toNat]
  omega

theorem lo_cat (h l : Octet) : lo (cat h l) = l := by
  apply BitVec.eq_of_toNat_eq
  have := l.isLt
  rw [lo_toNat, cat_toNat]
  omega

theorem pair_cat (h l : Octet) : pair (cat h l) = [h, l] := by simp [pair, hi_cat, lo_cat]

theorem lenOf_toNat {p : List Octet} (h : p.length < 65536) : (lenOf p).toNat = p.length := by
  simp [lenOf, Nat.mod_eq_of_lt h]

theorem needsEsc_iff (c : Config) (b : Octet) : needsEsc c b = true ↔ b = c.endOctet ∨ b = c.escOctet := by
  simp [needsEsc]

/-- Reading one stuffed form back. -/
theorem unstuff_stuff (c : Config) (b : Octet) (rest : List Octet) :
    unstuff c (stuff c b ++ rest) = (unstuff c rest).map (b :: ·) := by
  unfold stuff
  split
  · simp [unstuff]
  next h =>
    rw [needsEsc_iff, not_or] at h
    rw [List.cons_append, List.nil_append]
    conv_lhs => unfold unstuff
    rw [if_neg h.2, if_neg h.1]

theorem unstuff_flatMap_stuff (c : Config) (l : List Octet) : unstuff c (l.flatMap (stuff c)) = some l := by
  induction l with
  | nil => rfl
  | cons b l ih => rw [List.flatMap_cons, unstuff_stuff, ih]; rfl

theorem frameBody_eframeWire (c : Config) (p : List Octet) : frameBody c (eframeWire c p) = some p := by
  rw [frameBody, eframeWire, List.dropLast_concat, unstuff_flatMap_stuff]
  simp [frameOctets, trailer]

theorem length_nframeWire (p : List Octet) : (nframeWire p).length = p.length + 2 := by
  simp [nframeWire, pair]

theorem length_flatMap_stuff (c : Config) (l : List Octet) :
    (l.flatMap (stuff c)).length = l.length + l.countP (needsEsc c) := by
  induction l with
  | nil => rfl
  | cons b l ih =>
    simp only [List.flatMap_cons, List.length_append, ih, List.countP_cons, stuff, List.length_cons]
    split <;> simp <;> omega

theorem crcFold_snoc (c : Config) (st : List Octet) (o : Octet) :
    crcFold c (st ++ [o]) = accUpdate c (crcFold c st) o := by simp [crcFold]

/-- At N = 16 the swap is the one of R12. -/
theorem swap_eq_cat (v : Word16) : swap v = cat (lo v) (hi v) := by
  apply BitVec.eq_of_getLsbD_eq
  intro i h
  rw [cat, BitVec.getLsbD_append]
  by_cases h8 : i < 8
  · simp [swap, hi, h8]
  · have hl : i - 8 < 8 := by omega
    have hv : v.getLsbD (8 + i) = false := BitVec.getLsbD_of_ge v _ (by omega)
    simp only [swap, lo, BitVec.getLsbD_or, BitVec.getLsbD_shiftLeft, BitVec.getLsbD_ushiftRight,
      BitVec.getLsbD_extractLsb', h8, h, hl, hv]
    simp

/-- At N = 16 ACC is seeded with the whole seed. -/
theorem accSeed_of_width {c : Config} (h : c.crcWidth = 16) : accSeed c = c.crcSeed := by
  simp [accSeed, BitVec.setWidth_setWidth_of_le, h]

/-- At N = 16 ACC takes `crc_update` of what it holds. -/
theorem accUpdate_of_width {c : Config} (h : c.crcWidth = 16) (a : Word16) (o : Octet) :
    accUpdate c a o = crcUpdate c.crcExt a o := by
  unfold accUpdate
  rw [h]
  simp

/-- At N = 16 the fold is the one of R114. -/
theorem crcFold_of_width {c : Config} (h : c.crcWidth = 16) (s : List Octet) :
    crcFold c s = s.foldl (crcUpdate c.crcExt) c.crcSeed := by
  unfold crcFold
  rw [accSeed_of_width h, show accUpdate c = crcUpdate c.crcExt from funext fun a => funext (accUpdate_of_width h a)]

end Sys2Proof
end

