-- ==== Sys2Proof/Laws/PerInstr.lean ====
section
/-! SUPPORT. The family CommandCode: the code of each instruction's row, one lemma for each constructor. -/

namespace Sys2Proof.Laws.CommandCode

/-- The 4-bit command code `cmd[3:0]` of an operation (spec/30_encoding.md R96); the ten internal rows have none. -/
def codeOf : Instr → Option Octet
  | .crcInit => some 0x1
  | .crcUpdate _ => some 0x2
  | .flush => some 0x3
  | .txRaw _ => some 0x4
  | .rxRaw => some 0x5
  | .encOctet _ => some 0x6
  | .encFrame _ => some 0x7
  | .decFrame => some 0x8
  | .rdBytes _ => some 0x9
  | .natRx => some 0xA
  | .natTx _ => some 0xB
  | .sensePoll => some 0xC
  | .tap2tty _ => some 0xD
  | .brgStep => some 0xE
  | .modeSet _ => some 0xF
  | .symEnd => none
  | .symEsc => none
  | .symData _ => none
  | .symLit _ => none
  | .stuffPlain _ => none
  | .stuffEscaped _ => none
  | .eframe _ => none
  | .nframe _ => none
  | .natLenOk _ => none
  | .natLenOver _ => none

/-- An operation's word begins with its code, in the command port's format; an internal row has another format. -/
def Statement (i : Instr) : Prop :=
  match codeOf i with
  | some code => formatOf i = .cmd4 ∧ ∀ c, (encode c i).head? = some code
  | none => formatOf i ≠ .cmd4

theorem crcInit : Statement .crcInit := ⟨rfl, fun _ => rfl⟩
theorem crcUpdate (x : Octet) : Statement (.crcUpdate x) := ⟨rfl, fun _ => rfl⟩
theorem flush : Statement .flush := ⟨rfl, fun _ => rfl⟩
theorem txRaw (x : Octet) : Statement (.txRaw x) := ⟨rfl, fun _ => rfl⟩
theorem rxRaw : Statement .rxRaw := ⟨rfl, fun _ => rfl⟩
theorem encOctet (x : Octet) : Statement (.encOctet x) := ⟨rfl, fun _ => rfl⟩
theorem encFrame (x : List Octet) : Statement (.encFrame x) := ⟨rfl, fun _ => rfl⟩
theorem decFrame : Statement .decFrame := ⟨rfl, fun _ => rfl⟩
theorem rdBytes (x : Word16) : Statement (.rdBytes x) := ⟨rfl, fun _ => rfl⟩
theorem natRx : Statement .natRx := ⟨rfl, fun _ => rfl⟩
theorem natTx (x : List Octet) : Statement (.natTx x) := ⟨rfl, fun _ => rfl⟩
theorem sensePoll : Statement .sensePoll := ⟨rfl, fun _ => rfl⟩
theorem tap2tty (x : List Octet) : Statement (.tap2tty x) := ⟨rfl, fun _ => rfl⟩
theorem brgStep : Statement .brgStep := ⟨rfl, fun _ => rfl⟩
theorem modeSet (x : Mode) : Statement (.modeSet x) := ⟨rfl, fun _ => rfl⟩
theorem symEnd : Statement .symEnd := nofun
theorem symEsc : Statement .symEsc := nofun
theorem symData (x : Octet) : Statement (.symData x) := nofun
theorem symLit (x : Octet) : Statement (.symLit x) := nofun
theorem stuffPlain (x : Octet) : Statement (.stuffPlain x) := nofun
theorem stuffEscaped (x : Octet) : Statement (.stuffEscaped x) := nofun
theorem eframe (x : List Octet) : Statement (.eframe x) := nofun
theorem nframe (x : List Octet) : Statement (.nframe x) := nofun
theorem natLenOk (x : Word16) : Statement (.natLenOk x) := nofun
theorem natLenOver (x : Word16) : Statement (.natLenOver x) := nofun

end Sys2Proof.Laws.CommandCode
end

