-- ==== Sys2Proof/Laws/Poll.lean ====
section
/-! SUPPORT. SENSE.POLL, turn by turn (spec/43_native_transport.md R200, R201). -/

namespace Sys2Proof.Machine

/-- At least one poll is made in a step. -/
theorem pollBudget_succ (s : State) : ∃ n, pollBudget s = n + 1 := by
  unfold pollBudget
  split
  · exact ⟨_, rfl⟩
  · exact ⟨max 1 ((s.script.length + 1) / 2) - 1, by omega⟩

/-- Enough polls are made in a step for `k` waits and one more read of the level. -/
theorem pollBudget_waits {s : State} {k : Nat} {qs ts : List Turn} (h : s.script = qs ++ ts) (hk : qs.length = 2 * k)
    (ht : ts ≠ []) (hl : ∀ l, s.cfg.natWaitLimit = some l → k ≤ l) : ∃ n, pollBudget s = n + 1 + k := by
  unfold pollBudget
  split
  next l hlim => exact ⟨l - k, by have := hl l hlim; omega⟩
  next =>
    have h1 : s.script.length = 2 * k + ts.length := by rw [h, List.length_append, hk]
    have h2 : 0 < ts.length := List.length_pos_iff.2 ht
    exact ⟨max 1 ((s.script.length + 1) / 2) - k - 1, by omega⟩

/-- The level read is the ready one: the poll is over. -/
theorem sensePoll_ready (w : Wait) {s : State} {a : Turn} {rest : List Turn} (h : s.script = a :: rest)
    (ha : a.fail = false) (hr : a.reset = false) (hs : (s.sense ^^ decide (a.flips % 2 = 1)) = s.cfg.senseReady) :
    sensePoll w s = .done () (s.elapse.record (.senseLevel (some s.cfg.senseReady))) := by
  obtain ⟨n, hb⟩ := pollBudget_succ s
  simp [sensePoll, hb, pollLoop, senseLevel, turn_cons h, ha, hr, hs, Ret.bind, Ret.orReset]

/-- One more turn of the line. -/
theorem senseAfter_cons (v : Bool) (a : Turn) (ts : List Turn) :
    senseAfter v (a :: ts) = senseAfter (v ^^ decide (a.flips % 2 = 1)) ts := by
  have h : ∀ n m : Nat, decide ((n + m) % 2 = 1) = (decide (n % 2 = 1) ^^ decide (m % 2 = 1)) := fun n m => by
    rcases Nat.mod_two_eq_zero_or_one n with hn | hn <;> rcases Nat.mod_two_eq_zero_or_one m with hm | hm <;>
      simp [Nat.add_mod, hn, hm]
  simp [senseAfter, h]

@[simp] theorem senseAfter_nil (v : Bool) : senseAfter v [] = v := by simp [senseAfter]

/-- A level read that works. -/
theorem senseLevel_ok {s : State} (hf : s.turn.fail = false) (hr : s.turn.reset = false) :
    senseLevel s = .done s.elapse.sense (s.elapse.record (.senseLevel (some s.elapse.sense))) := by
  simp [senseLevel, hf, hr, Ret.orReset]

/-- A wait for an edge that works. -/
theorem senseWait_ok {s : State} (hf : s.turn.fail = false) (hr : s.turn.reset = false) :
    senseWait s = .done () (s.elapse.record
      (.senseWait s.cfg.tSense (if s.turn.flips = 0 then .expired else .ready))) := by
  simp [senseWait, hf, hr, Ret.orReset]

/-- One poll that finds the line unready, and its wait, however that ends. -/
theorem pollLoop_wait (w : Wait) (n j : Nat) {s : State} {a b : Turn} {ts : List Turn}
    (h : s.script = a :: b :: ts) (ha : a.rx = [] ∧ a.fail = false ∧ a.reset = false)
    (hb : b.rx = [] ∧ b.fail = false ∧ b.reset = false) (hs : senseAfter s.sense [a] ≠ s.cfg.senseReady)
    (hl : s.cfg.natWaitLimit ≠ some j) :
    ∃ u, pollLoop w (n + 1) j s = pollLoop w n (j + 1) u ∧ u = s.withChannels u ∧ u.script = ts ∧
      u.sense = senseAfter s.sense [a, b] ∧ u.trace = s.trace ++ pollLog s.cfg [a, b] ∧ u.wire = s.wire ∧
      u.sq = s.sq := by
  rw [senseAfter_cons, senseAfter_nil] at hs
  have h1 := senseLevel_ok (s := s) (by rw [turn_cons h, ha.2.1]) (by rw [turn_cons h, ha.2.2])
  set v := s.elapse.record (.senseLevel (some s.elapse.sense)) with hv
  have hvs : v.script = b :: ts := by simp [hv, h]
  have hvl : s.elapse.sense = !s.cfg.senseReady := by
    rw [elapse_sense, turn_cons h]
    revert hs
    cases (s.sense ^^ decide (a.flips % 2 = 1)) <;> cases s.cfg.senseReady <;> simp
  refine ⟨v.elapse.record (.senseWait s.cfg.tSense (if b.flips = 0 then .expired else .ready)), ?_, rfl, ?_, ?_, ?_,
    rfl, ?_⟩
  · rw [pollLoop, h1]
    simp only [Ret.bind]
    rw [if_neg (by rw [hvl]; simp [hv]), if_neg (by exact hl)]
    rw [senseWait_ok (by rw [turn_cons hvs, hb.2.1]) (by rw [turn_cons hvs, hb.2.2]), turn_cons hvs]
    rfl
  · simp [hvs]
  · rw [senseAfter_cons, senseAfter_cons, senseAfter_nil, record_sense, elapse_sense, turn_cons hvs, hv, record_sense,
      elapse_sense, turn_cons h]
  · rw [record_trace, elapse_trace, turn_cons hvs, hb.1, hv, record_trace, elapse_trace, turn_cons h, ha.1, hvl]
    simp [pollLog]
  · rw [record_sq, elapse_sq, turn_cons hvs, hb.1, hv, record_sq, elapse_sq, turn_cons h, ha.1, List.append_nil,
      List.append_nil]

/-- `k` polls that find the line unready, none of them the last allowed, each wait ended by an edge or its bound. -/
theorem pollLoop_still (w : Wait) (k n j : Nat) {s : State} {qs ts : List Turn} (h : s.script = qs ++ ts)
    (hk : qs.length = 2 * k) (hq : still qs)
    (hs : ∀ i < k, senseAfter s.sense (qs.take (2 * i + 1)) ≠ s.cfg.senseReady)
    (hl : ∀ l, s.cfg.natWaitLimit = some l → j + k ≤ l) :
    ∃ u, pollLoop w (n + k) j s = pollLoop w n (j + k) u ∧ u = s.withChannels u ∧ u.script = ts ∧
      u.sense = senseAfter s.sense qs ∧ u.trace = s.trace ++ pollLog s.cfg qs ∧ u.wire = s.wire ∧ u.sq = s.sq := by
  induction k generalizing j s qs with
  | zero =>
    obtain rfl := List.length_eq_zero_iff.1 hk
    exact ⟨s, rfl, rfl, h, by simp, by simp [pollLog], rfl, rfl⟩
  | succ k ih =>
    match qs, hk with
    | a :: b :: qs, hk =>
      have hne : s.cfg.natWaitLimit ≠ some j := fun hh => by
        have := hl _ hh
        omega
      obtain ⟨u, h1, hf, hu, hse, htr, hw, hsq⟩ := pollLoop_wait w (n + k) j h (hq a (by simp)) (hq b (by simp))
        (by simpa using hs 0 (by omega)) hne
      have hc : u.cfg = s.cfg := by rw [hf]; rfl
      obtain ⟨v, h1', hf', hv, hse', htr', hw', hsq'⟩ := ih (j + 1) (s := u) (qs := qs) hu (by simp only [List.length_cons] at hk; omega)
        (fun t ht => hq t (by simp [ht]))
        (fun i hi => by
          rw [hse, hc]
          have := hs (i + 1) (by omega)
          rw [show 2 * (i + 1) + 1 = 2 * i + 1 + 1 + 1 by omega, List.take_succ_cons, List.take_succ_cons] at this
          simpa [senseAfter_cons] using this)
        fun l hh => by
          have := hl l (hc ▸ hh)
          omega
      refine ⟨v, ?_, ?_, hv, ?_, ?_, hw'.trans hw, hsq'.trans hsq⟩
      · rw [show n + (k + 1) = n + k + 1 by omega, h1, h1', show j + 1 + k = j + (k + 1) by omega]
      · calc v = u.withChannels v := hf'
          _ = (s.withChannels u).withChannels v := congrArg (State.withChannels · v) hf
          _ = s.withChannels v := rfl
      · rw [hse', hse]
        simp [senseAfter_cons]
      · rw [htr', htr, hc]
        simp [pollLog]

/-- `k` waits on a line that stays unready, none of them the last allowed. -/
theorem pollLoop_waits (w : Wait) (k n j : Nat) {s : State} {ts : List Turn} (h : s.script = quiet (2 * k) ++ ts)
    (hs : s.sense ≠ s.cfg.senseReady) (hl : ∀ l, s.cfg.natWaitLimit = some l → j + k ≤ l) :
    pollLoop w (n + k) j s = pollLoop w n (j + k) { s with
      script := ts
      trace := s.trace ++ (List.replicate k
        [Xact.senseLevel (some s.sense), Xact.senseWait s.cfg.tSense .expired]).flatten } := by
  induction k generalizing j s with
  | zero =>
    obtain rfl : s.script = ts := h
    simp
  | succ k ih =>
    have h' : s.script = {} :: {} :: (quiet (2 * k) ++ ts) := by
      rw [h]
      simp [quiet, Nat.mul_add, List.replicate_succ]
    have hne : s.cfg.natWaitLimit ≠ some j := fun hh => by
      have := hl _ hh
      omega
    have h1 : senseLevel s = .done s.sense { s with
        script := {} :: (quiet (2 * k) ++ ts)
        trace := s.trace ++ [.senseLevel (some s.sense)] } := by
      simp [senseLevel, turn_cons h', elapse_quiet h', State.record, Ret.orReset]
    have h2 : ∀ u : State, u.script = {} :: (quiet (2 * k) ++ ts) → senseWait u = .done () { u with
        script := quiet (2 * k) ++ ts
        trace := u.trace ++ [.senseWait u.cfg.tSense .expired] } := fun u hu => by
      simp [senseWait, turn_cons hu, elapse_quiet hu, State.record, Ret.orReset]
    rw [show n + (k + 1) = n + k + 1 by omega, pollLoop, h1]
    simp only [Ret.bind, hs, hne, if_false]
    rw [h2 _ rfl]
    simp only
    have hi := ih (j + 1) (s := { s with
      script := quiet (2 * k) ++ ts
      trace := s.trace ++ [.senseLevel (some s.sense)] ++ [.senseWait s.cfg.tSense .expired] }) rfl hs
      fun l hh => by
        have := hl l hh
        omega
    rw [hi]
    congr 1
    · omega
    · simp [List.replicate_succ]

end Sys2Proof.Machine
end

