-- ==== Sys2Proof/Tests/Slice0.lean ====
section
/-! SUPPORT. Tests: ill-formed terms, words written out from the spec's encodings, single steps with results from
spec/95_test_vectors.md, and a state and operands that meet the hypotheses of each obligation. -/

namespace Sys2Proof.Tests

open Sys2Proof.Machine

/-! ## Helpers -/

/-- A small configuration: MTU 4, so RXBUF_CAP is 6. -/
def cfg : Config where
  crcWidth := 16
  crcSeed := 0xFFFF
  crcExt := .sign
  endOctet := 0xFF
  escOctet := 0xFE
  mtu := 4
  rxbufCap := 6
  tOctet := 5000
  tRead := 20000
  tSense := 500000
  senseReady := true
  natWaitLimit := some 2
  retryMax := 3
  backoffRandMax := 4095
  backoffFixed := 10000

/-- The same with the native poll unbounded. -/
def cfgUnbounded : Config := { cfg with natWaitLimit := none }

/-- Emulated mode, nothing pending. -/
def emu : State := { State.reset with cfg := cfg, modeSet := true }

/-- Native mode, the sense line ready. -/
def nat : State := { emu with mode := .native, sense := true }

/-- A decode in progress. -/
def decoding : State := { emu with dstate := .awaitOctet, acc := 0xFFFF }

/-- What a run leaves, seen through `f`. -/
def seen {α : Type} (f : State → α) : Host.Outcome State Fault Refusal → Option α
  | .next s => some (f s)
  | .fault _ => none
  | .refused _ => none

/-- The reset input comes in this turn. -/
def cut : Turn := { reset := true }

/-! ## WellFormed: every check refuses an ill-formed term -/

theorem long_refused (o : Octet) {n : Nat} (h : 65536 ≤ n) : payloadFits (List.replicate n o) = false := by
  simp [payloadFits, h]

theorem test_wf_encFrame_long : WellFormed cfg (.encFrame (List.replicate 65536 0)) = false :=
  long_refused 0 (Nat.le_refl _)
theorem test_wf_natTx_long : WellFormed cfg (.natTx (List.replicate 65536 0)) = false :=
  long_refused 0 (Nat.le_refl _)
theorem test_wf_tap2tty_long : WellFormed cfg (.tap2tty (List.replicate 65536 0)) = false :=
  long_refused 0 (Nat.le_refl _)
theorem test_wf_eframe_long : WellFormed cfg (.eframe (List.replicate 65536 0)) = false :=
  long_refused 0 (Nat.le_refl _)
theorem test_wf_nframe_long : WellFormed cfg (.nframe (List.replicate 65536 0)) = false :=
  long_refused 0 (Nat.le_refl _)
theorem test_wf_symData_esc : WellFormed cfg (.symData 0xFE) = false := by decide
theorem test_wf_stuffPlain_end : WellFormed cfg (.stuffPlain 0xFF) = false := by decide
theorem test_wf_stuffEscaped_plain : WellFormed cfg (.stuffEscaped 0xFD) = false := by decide

/-! ## Decode: the words of 30_encoding.md (R81, R82, R86, R92, R94, R96) -/

theorem test_decode_host_operations (c : DecodeCtx) :
    decode c .cmd4 [0x01] = .ok .crcInit ∧
    decode c .cmd4 [0x02, 0x41] = .ok (.crcUpdate 0x41) ∧
    decode c .cmd4 [0x03] = .ok .flush ∧
    decode c .cmd4 [0x04, 0xFF] = .ok (.txRaw 0xFF) ∧
    decode c .cmd4 [0x05] = .ok .rxRaw ∧
    decode c .cmd4 [0x06, 0xFE] = .ok (.encOctet 0xFE) ∧
    decode c .cmd4 [0x07, 0x00, 0x02, 0x0E, 0x3E] = .ok (.encFrame [0x0E, 0x3E]) ∧
    decode c .cmd4 [0x08] = .ok .decFrame := ⟨rfl, rfl, rfl, rfl, rfl, rfl, rfl, rfl⟩

theorem test_decode_more_host_operations (c : DecodeCtx) :
    decode c .cmd4 [0x09, 0x01, 0x2C] = .ok (.rdBytes 300) ∧
    decode c .cmd4 [0x0A] = .ok .natRx ∧
    decode c .cmd4 [0x0B, 0x00, 0x00] = .ok (.natTx []) ∧
    decode c .cmd4 [0x0C] = .ok .sensePoll ∧
    decode c .cmd4 [0x0D, 0x00, 0x01, 0x0E] = .ok (.tap2tty [0x0E]) ∧
    decode c .cmd4 [0x0E] = .ok .brgStep ∧
    decode c .cmd4 [0x0F, 0x00] = .ok (.modeSet .emulated) ∧
    decode c .cmd4 [0x0F, 0x01] = .ok (.modeSet .native) := ⟨rfl, rfl, rfl, rfl, rfl, rfl, rfl, rfl⟩

theorem test_decode_command_refused (c : DecodeCtx) :
    decode c .cmd4 [] = .error .empty ∧
    decode c .cmd4 [0x00] = .error .reservedCode ∧
    decode c .cmd4 [0x10] = .error .noCode ∧
    decode c .cmd4 [0x04] = .error .noOperand ∧
    decode c .cmd4 [0x09, 0x01] = .error .noOperand ∧
    decode c .cmd4 [0x07, 0x00, 0x02, 0x0E] = .error .shortPayload := ⟨rfl, rfl, rfl, rfl, rfl, rfl⟩

theorem test_decode_symbols :
    decode tableCtx .sym8 [0xFF] = .ok .symEnd ∧
    decode tableCtx .sym8 [0xFE] = .ok .symEsc ∧
    decode tableCtx .sym8 [0x00] = .ok (.symData 0x00) ∧
    decode tableCtx .sym8 [0xFD] = .ok (.symData 0xFD) ∧
    decode { tableCtx with dstate := .escaped } .sym8 [0x41] = .ok (.symLit 0x41) ∧
    decode { tableCtx with dstate := .escaped } .sym8 [0xFE] = .ok (.symLit 0xFE) ∧
    decode { tableCtx with dstate := .done } .sym8 [0x41] = .error .notDecoding ∧
    decode tableCtx .sym8 [0x41, 0x42] = .error .badLength := by decide

theorem test_decode_stuffed :
    decode tableCtx .stuff [0xFD] = .ok (.stuffPlain 0xFD) ∧
    decode tableCtx .stuff [0xFE, 0xFE] = .ok (.stuffEscaped 0xFE) ∧
    decode tableCtx .stuff [0xFE, 0xFF] = .ok (.stuffEscaped 0xFF) ∧
    decode tableCtx .stuff [0xFE, 0x41] = .error .notStuffed ∧
    decode tableCtx .stuff [0xFF] = .error .notStuffed := by decide

/-- Vectors E1, E3, E5 of Part 2.3; E2's frame with the trailer the other way round (S12) is no frame. -/
theorem test_decode_frames :
    decode tableCtx .eframe [0xFE, 0xFF, 0xFE, 0xFF, 0xFF] = .ok (.eframe []) ∧
    decode tableCtx .eframe [0xFE, 0xFF, 0x00, 0x00, 0xFF] = .ok (.eframe [0xFF]) ∧
    decode tableCtx .eframe [0x41, 0x42, 0x43, 0xF5, 0x08, 0xFF] = .ok (.eframe [0x41, 0x42, 0x43]) ∧
    decode tableCtx .eframe [0x41, 0x15, 0xB9, 0xFF] = .error .notEFrame ∧
    decode tableCtx .nframe [0x00, 0x02, 0xFF, 0xFE] = .ok (.nframe [0xFF, 0xFE]) ∧
    decode tableCtx .nframe [0x00, 0x02, 0xFF] = .error .notNFrame := by decide

theorem test_decode_prefixes :
    decode tableCtx .len16 [0x08, 0x00] = .ok (.natLenOk 2048) ∧
    decode tableCtx .len16 [0x08, 0x01] = .ok (.natLenOver 2049) ∧
    decode tableCtx .len16 [0x00, 0x00] = .ok (.natLenOk 0) ∧
    decode tableCtx .len16 [0x08] = .error .badLength := by decide

theorem test_table_words :
    decodeTableWord 8 0x04 = some (.txRaw 0) ∧
    decodeTableWord 8 0x0F = some (.modeSet .emulated) ∧
    decodeTableWord 8 0xFF = some .symEnd ∧
    decodeTableWord 8 0x00 = some (.symData 0) ∧
    decodeTableWord 16 0xFEFF = some (.stuffEscaped 0xFF) ∧
    decodeTableWord 16 0x012C = some (.natLenOk 300) := by decide

/-! ## CRC16 (vectors K4, K12, F9) -/

theorem test_crcInit_seeds : seen State.acc (exec .crcInit { emu with acc := 0x1234 }) = some 0xFFFF := by decide
theorem test_crcUpdate_sign : seen State.acc (exec (.crcUpdate 0x80) { emu with acc := 0xFFFF }) = some 0x8F78 := by
  decide
theorem test_crcUpdate_zero :
    seen State.acc (exec (.crcUpdate 0xFF) { emu with cfg := { cfg with crcExt := .zero }, acc := 0x00FF }) =
      some 0xE1F0 := by decide
theorem test_crcFold :
    crcFold cfg [0xFE, 0xFF, 0x00] = 0x2A3F ∧
    crcFold { cfg with crcExt := .zero } [0xFE, 0xFF, 0x00] = 0x3730 := by decide
/-- R12's swap; and the parameter N is read: R111's steps by hand in 8 bits are 00, 41, 45, 45, E5 (log 1). -/
theorem test_crcWidth :
    swap 0x1234#16 = 0x3412 ∧ accUpdate { cfg with crcWidth := 8 } 0x1234 0x41 = 0x00E5 ∧
    accSeed { cfg with crcWidth := 8 } = 0x00FF := by decide

/-! ## OCT and ECC (vectors T5, T6, T10, T11, T13) -/

theorem test_txRaw_contention :
    seen (fun t => (t.result, t.wire, t.sq))
      (exec (.txRaw 0x41) { emu with script := [{}, { rx := [0x40] }, {}] }) =
      some (.err .lineContention, [0x41], []) := by decide
theorem test_txRaw_stale :
    seen (fun t => (t.result, t.wire, t.sq))
      (exec (.txRaw 0x42) { emu with sq := [0x41], script := [{}, { rx := [0x42] }, {}] }) =
      some (.err .lineContention, [0x42], [0x42]) := by decide
theorem test_rxRaw_octet :
    seen (fun t => (t.result, t.sq)) (exec .rxRaw { emu with sq := [0x0E, 0xFF], script := quiet 2 }) =
      some (.ok (.num 0x0E), [0xFF]) := by decide
theorem test_rxRaw_timeout :
    seen State.result (exec .rxRaw { emu with script := quiet 1 }) = some (.err .timeout) := by decide
theorem test_flush_snapshot :
    seen (fun t => (t.result, t.sq))
      (exec .flush { emu with sq := [0x41, 0xB9], script := [{}, { rx := [0x55] }, {}] }) =
      some (.ok (.num 2), [0x55]) := by decide
theorem test_flush_fail :
    seen State.result (exec .flush { emu with sq := [0x41, 0xB9], script := [{}, {}, { fail := true }] }) =
      some (.err .ioError) := by decide

/-! ## EMU, encoder (vectors S1, E3, E6, E16) -/

theorem test_encOctet_end :
    seen State.wire (exec (.encOctet 0xFF) { emu with script := echoScript [0xFE, 0xFF] }) = some [0xFE, 0xFF] := by
  decide
theorem test_encFrame_escapes :
    seen (fun t => (t.result, t.wire, t.acc, t.txphase))
      (exec (.encFrame [0xFF])
        { emu with sq := [0x55], script := quiet 2 ++ echoScript [0xFE, 0xFF, 0x00, 0x00, 0xFF] }) =
      some (.ok (.num 1), [0xFE, 0xFF, 0x00, 0x00, 0xFF], 0x0000, .done) := by decide
theorem test_encFrame_collision :
    seen (fun t => (t.result, t.wire, t.txphase, t.txidx, t.txlast))
      (exec (.encFrame [0x41, 0xFF, 0x43])
        { emu with script := quiet 1 ++ echoScript [0x41, 0xFE] ++ [{}, { rx := [0xF7] }, {}] }) =
      some (.err .lineContention, [0x41, 0xFE, 0xFF], .failed, 1, 0xFF) := by decide
theorem test_stuffPlain :
    seen State.wire (exec (.stuffPlain 0x41) { emu with script := echoScript [0x41] }) = some [0x41] := by decide
theorem test_stuffEscaped :
    seen State.wire (exec (.stuffEscaped 0xFE) { emu with script := echoScript [0xFE, 0xFE] }) =
      some [0xFE, 0xFE] := by decide
theorem test_eframe :
    seen State.wire
      (exec (.eframe [0x0E]) { emu with txphase := .drain, script := echoScript [0x0E, 0x00, 0x3E, 0xFF] }) =
      some [0x0E, 0x00, 0x3E, 0xFF] := by decide

/-! ## EMU, decoder (vectors DV1, DV13, E10's full buffer, DV20) -/

theorem test_decFrame_accepts :
    seen (fun t => (t.result, Memory.prefixOf t.rxbuf 3, t.rxcnt, t.acc, t.sq))
      (exec .decFrame { emu with sq := [0x0E, 0x00, 0x3E, 0xFF, 0x0F], script := quiet 8 }) =
      some (.ok (.num 1), [0x0E, 0x00, 0x3E], 3, 0x0000, [0x0F]) := by decide
theorem test_decFrame_one_octet :
    seen (fun t => (t.result, t.rxcnt, t.sq))
      (exec .decFrame { emu with sq := [0xFE, 0xFF, 0xFF], script := quiet 6 }) =
      some (.err .frameCorrupt, 0, []) := by decide
theorem test_symEsc_full_buffer :
    seen (fun t => (t.dstate, t.rxcnt)) (exec .symEsc { decoding with rxcnt := 6 }) = some (.escaped, 6) := by decide
theorem test_symLit_end_is_data :
    seen (fun t => (t.dstate, Memory.read t.rxbuf 0, t.rxcnt, t.acc))
      (exec (.symLit 0xFF) { decoding with dstate := .escaped }) = some (.awaitOctet, 0xFF, 1, 0x0000) := by decide
theorem test_symData_stores :
    seen (fun t => (Memory.read t.rxbuf 0, t.rxcnt, t.acc)) (exec (.symData 0x0E) decoding) =
      some (0x0E, 1, 0x003E) := by decide
theorem test_symData_overflow :
    seen (fun t => (t.result, t.rxcnt, t.dstate)) (exec (.symData 0x07) { decoding with rxcnt := 6 }) =
      some (.err .bufferExceeded, 0, .failed) := by decide
theorem test_symEnd_full_buffer :
    seen State.result (exec .symEnd { decoding with rxcnt := 6, acc := 0xD71C }) = some (.err .frameCorrupt) := by
  decide
theorem test_symEnd_length : seen State.result (exec .symEnd { decoding with rxcnt := 2, acc := 0 }) =
    some (.ok (.num 0)) := by decide

/-! ## NAT (vectors NV1, NV3, NV5, NV8, NV14, NV16, NV20, NV22; P6) -/

theorem test_rdBytes_split_reads :
    seen (fun t => (t.result, Memory.prefixOf t.nbuf 2, t.ncnt))
      (exec (.rdBytes 2) { nat with sq := [0x01, 0x2C], script := [{}, { short := some 1 }, {}, {}] }) =
      some (.ok (.inNbuf 2), [0x01, 0x2C], 2) := by decide
theorem test_rdBytes_short :
    seen (fun t => (t.result, t.sq)) (exec (.rdBytes 3) { nat with sq := [0xAA, 0xBB], script := quiet 3 }) =
      some (.err .timeout, []) := by decide
theorem test_natRx_delivers :
    seen (fun t => (t.result, State.delivered t, t.sq))
      (exec .natRx { nat with sq := [0x00, 0x03, 0xAA, 0xFF, 0xFE, 0x07], script := quiet 5 }) =
      some (.ok (.delivered 3), [[0xAA, 0xFF, 0xFE]], [0x07]) := by decide
theorem test_natRx_oversize :
    seen (fun t => (t.result, State.delivered t, t.len, t.sq))
      (exec .natRx { nat with sq := [0x00, 0x05, 0xAA], script := quiet 2 }) =
      some (.ok .discarded, [], 5, [0xAA]) := by decide
theorem test_natLenOk_mtu :
    seen State.delivered
      (exec (.natLenOk 4) { nat with nstate := .lenPrefix, sq := [1, 2, 3, 4, 5], script := quiet 3 }) =
      some [[1, 2, 3, 4]] := by decide
theorem test_natLenOver_mtu :
    seen (fun t => (t.result, t.sq)) (exec (.natLenOver 5) { nat with nstate := .lenPrefix, sq := [1] }) =
      some (.ok .discarded, [1]) := by decide
/-- Two waits, both ended by an edge (Woke): after each the level is read again (R200). -/
theorem test_sensePoll_woke :
    seen (fun t => (t.result, t.trace))
      (exec .sensePoll { nat with sense := false, script := [{}, { flips := 2 }, {}, { flips := 1 }, {}] }) =
      some (.ok .unit, [.senseLevel (some false), .senseWait 500000 .ready, .senseLevel (some false),
        .senseWait 500000 .ready, .senseLevel (some true)]) := by decide
theorem test_sensePoll_gives_up :
    seen (fun t => (t.result, t.trace.length)) (exec .sensePoll { nat with sense := false, script := quiet 5 }) =
      some (.err .timeout, 5) := by decide
theorem test_natTx_no_stuffing :
    seen (fun t => (t.result, t.wire)) (exec (.natTx [0xFF, 0xFE]) { nat with script := quiet 2 }) =
      some (.ok (.num 2), [0x00, 0x02, 0xFF, 0xFE]) := by decide
theorem test_natTx_short_write :
    seen (fun t => (t.result, t.wire)) (exec (.natTx [1, 2, 3, 4]) { nat with script := [{}, { short := some 5 }] }) =
      some (.err .ioError, [0x00, 0x04, 1, 2, 3]) := by decide
theorem test_nframe :
    seen State.wire (exec (.nframe [0xDE, 0xAD, 0xBE]) { nat with nstate := .write, script := quiet 1 }) =
      some [0x00, 0x03, 0xDE, 0xAD, 0xBE] := by decide

/-! ## Host agent (vectors H1, H2, H6, H7; P4, P5) -/

theorem test_modeSet_first :
    seen (fun t => (t.mode, t.modeSet)) (exec (.modeSet .native) State.reset) = some (.native, true) := by decide
theorem test_modeSet_second :
    seen (fun t => (t.mode, t.result)) (exec (.modeSet .native) emu) = some (.emulated, .err .ioError) := by decide
theorem test_tap2tty_retry :
    seen (fun t => (t.result, t.wire, t.attempt, State.sleeps t))
      (exec (.tap2tty [0x0E]) { emu with
        script := [{}, {}, { rx := [0x0C] }, {}, { rand := 7 }, { rx := [0xAA, 0xBB] }] ++ quiet 3 ++
          echoScript [0x0E, 0x00, 0x3E, 0xFF] }) =
      some (.ok .sent, [0x0E, 0x0E, 0x00, 0x3E, 0xFF], 1, [10007]) := by decide
theorem test_tap2tty_drops :
    seen (fun t => (t.result, t.wire, t.attempt, State.drops t, (State.sleeps t).length))
      (exec (.tap2tty [0x0E]) { emu with script := quiet 18 }) =
      some (.ok .dropped, [0x0E, 0x0E, 0x0E, 0x0E], 3, 1, 3) := by decide
theorem test_brgStep_net_first :
    seen (fun t => (t.result, t.wire, t.sq, t.netIn))
      (exec .brgStep { emu with
        netIn := [[0x0E]], sq := [0x41, 0xB9], script := quiet 5 ++ echoScript [0x0E, 0x00, 0x3E, 0xFF] }) =
      some (.ok .unit, [0x0E, 0x00, 0x3E, 0xFF], [], []) := by decide
theorem test_brgStep_rejects :
    seen (fun t => (t.result, State.delivered t, t.sq))
      (exec .brgStep { emu with sq := [0x41, 0xB9, 0x15, 0xFF], script := quiet 9 }) =
      some (.ok .unit, [], []) := by decide

/-- R241: 0 Ok, 1 Busy, up to 6 IOError. -/
theorem test_result_numbers :
    (Result.ok .unit).number = 0 ∧ (Result.err .busy).number = 1 ∧ (Result.err .timeout).number = 2 ∧
    (Result.err .lineContention).number = 3 ∧ (Result.err .frameCorrupt).number = 4 ∧
    (Result.err .bufferExceeded).number = 5 ∧ (Result.err .ioError).number = 6 := by decide

/-! ## Placed words run first (assumption log 15) -/

theorem test_first_step_runs_the_word :
    seen (fun t => (t.mode, t.modeSet)) (step (State.reset.withFetchWord 8 0x0F)) = some (.emulated, true) ∧
    seen (fun t => (t.dstate, t.issue)) (step (State.reset.withFetchWord 8 0xFE)) = some (.escaped, []) ∧
    seen State.len (step (State.reset.withFetchWord 16 0x0801)) = some 0x0801 := by decide

/-! ## Witnesses: the hypotheses of each obligation can be met -/

theorem witness_CrcInitSeedsAcc :
    accepts .crcInit emu = true ∧ accepts .crcInit nat = true ∧ cfg.crcWidth = 16 := by decide

theorem witness_CrcUpdateFeedsAcc : accepts (.crcUpdate 0xFF) emu = true ∧ cfg.crcWidth = 16 := by decide

theorem witness_CrcResidueLaw : cfg.crcWidth = 16 := rfl

theorem witness_CrcExtensionsDiffer : (0x7F#8).toNat < 0x80 ∧ 0x80 ≤ (0x80#8).toNat := by decide

theorem witness_SingleOctetErrorChangesFold : cfg.crcWidth = 16 ∧ (0x0E#8) ≠ 0x0F#8 := by decide

/-- The echo while TX.RAW waits; the echo before its write returns, which IdealEcho admits too; no echo at all. -/
theorem witness_TxRawVerifiesEcho :
    accepts (.txRaw 0xFF) { emu with script := echoOf 0xFF ++ [] } = true ∧
    seen (fun t => (t.result, t.wait, decide (IdealEcho (since emu t) ∧ readsWork (since emu t))))
      (exec (.txRaw 0xFF) { emu with script := [{ rx := [0xFF] }, {}, {}] }) = some (.ok .unit, none, true) ∧
    seen (fun t => (t.result, t.wait, decide (NoEcho (since emu t))))
      (exec (.txRaw 0xFF) { emu with script := quiet 2 }) = some (.err .timeout, none, true) := by decide

/-- Each clause: the write fails, accepts nothing, is not echoed, is echoed, and the read fails. -/
theorem witness_TxRawComparesOldestOctet :
    accepts (.txRaw 1) { emu with script := [{ fail := true }, {}, {}] } = true ∧
    accepts (.txRaw 1) { emu with script := [{ short := some 0 }, {}, {}] } = true ∧
    accepts (.txRaw 1) { emu with script := [{}, {}, {}] } = true ∧
    accepts (.txRaw 1) { emu with script := [{}, { rx := [1] }, {}] } = true ∧
    accepts (.txRaw 1) { emu with script := [{ short := some 1 }, { rx := [2] }, { fail := true }] } = true ∧
    ({} : Turn).reset = false := by decide

theorem witness_RxRawReturnsOldestOctet :
    accepts .rxRaw { emu with sq := [0xFF], script := quiet 2 } = true ∧ ({} : Turn).fail = false ∧
    ({} : Turn).reset = false ∧
    accepts .rxRaw { emu with sq := [0xFF], script := [{}, { fail := true }] } = true ∧
    accepts .rxRaw { emu with script := { fail := true } :: quiet 1 } = true := by decide

theorem witness_FlushDiscardsSnapshot :
    accepts .flush { emu with sq := [1], script := { rx := [2] } :: quiet 2 ++ [] } = true ∧
    (quiet 2).length = ([1#8] ++ [2#8]).length ∧ (∀ t ∈ quiet 2, t.fail = false ∧ t.reset = false) ∧
    accepts .flush { emu with sq := [1, 2], script := {} :: quiet 1 ++ { fail := true } :: [] } = true ∧
    (quiet 1).length < [1#8, 2#8].length := by decide

theorem witness_EncOctetWritesStuffedForm :
    accepts (.encOctet 0xFF) { emu with script := echoScript (stuff cfg 0xFF) ++ [] } = true := by decide

theorem witness_StuffedFormsAreSent :
    accepts (.stuffPlain 0xFD) { emu with script := echoOf 0xFD } = true ∧
    accepts (.stuffEscaped 0xFE) { emu with script := echoOf 0xFE ++ echoOf 0xFE } = true := by decide

/-- A payload of MTU octets and two stale octets; the empty payload; a run that meets IdealEcho. -/
theorem witness_EncFrameSendsFrame :
    accepts (.encFrame [0xFF, 0xFE, 0, 1])
      { emu with sq := [1, 2], script := quiet 3 ++ echoScript (eframeWire cfg [0xFF, 0xFE, 0, 1]) } = true ∧
    accepts (.encFrame []) { emu with script := quiet 1 ++ echoScript (eframeWire cfg []) } = true ∧
    seen (fun t => (t.result, t.wait, decide (IdealEcho (since emu t) ∧ readsWork (since emu t))))
      (exec (.encFrame [0x0E]) { emu with
        script := [{}, { rx := [0x0E] }, {}, {}] ++ echoScript [0x00, 0x3E, 0xFF] }) =
      some (.ok (.num 1), none, true) := by decide

theorem witness_EframeSendsFrame :
    accepts (.eframe [0x0E])
      { emu with txphase := .drain, script := echoScript (eframeWire cfg [0x0E]) } = true := by decide

/-- Every end: the whole frame, a failure in the drain, an unequal echo, and a reset. -/
theorem witness_EncFrameLeavesFramePrefix :
    accepts (.encFrame [0x0E]) { emu with script := quiet 1 ++ echoScript [0x0E, 0x00, 0x3E, 0xFF] } = true ∧
    seen (fun t => (t.txphase, decide (firstError none (since emu t) = none)))
      (exec (.encFrame [0x0E]) { emu with script := quiet 1 ++ echoScript [0x0E, 0x00, 0x3E, 0xFF] }) =
      some (.done, true) ∧
    seen (fun t => (t.txphase, decide (firstError none (since emu t) = some (.ioError, []))))
      (exec (.encFrame [0x0E]) { emu with sq := [1], script := [{}, { fail := true }] }) =
      some (.failed, true) ∧
    seen (fun t => (t.txphase, decide (firstError none (since emu t) = some (.lineContention, []))))
      (exec (.encFrame [0x0E]) { emu with sq := [1], script := [{}, {}, {}, { rx := [0x0F] }, {}] }) =
      some (.failed, true) ∧
    seen (fun t => (t.wait, t.wire))
      (exec (.encFrame [0x0E]) { emu with script := quiet 1 ++ echoOf 0x0E ++ [cut] }) =
      some (some .reset, [0x0E, 0x00]) := by decide

/-- The last free index, and the full buffer. -/
theorem witness_SymDataStores :
    accepts (.symData 0xFD) { decoding with rxcnt := 5 } = true ∧ (5 : Nat) ≠ decoding.cfg.rxbufCap ∧
    accepts (.symData 0xFD) { decoding with rxcnt := 6 } = true ∧ (6 : Nat) = decoding.cfg.rxbufCap ∧
    Memory.wf decoding.rxbuf := by decide

theorem witness_SymLitStoresVerbatim :
    accepts (.symLit 0xFF) { decoding with dstate := .escaped, rxcnt := 5 } = true ∧
    accepts (.symLit 0xFF) { decoding with dstate := .escaped, rxcnt := 6 } = true ∧
    (5 : Nat) ≠ decoding.cfg.rxbufCap ∧ (6 : Nat) = decoding.cfg.rxbufCap := by decide

theorem witness_SymEscSetsEscape : accepts .symEsc { decoding with rxcnt := 6 } = true := by decide

/-- Two stored octets and a zero residue; one stored octet; two stored octets and a residue. -/
theorem witness_SymEndJudgesFrame :
    accepts .symEnd { decoding with rxcnt := 2, acc := 0 } = true ∧
    accepts .symEnd { decoding with rxcnt := 1, acc := 0 } = true ∧
    accepts .symEnd { decoding with rxcnt := 2, acc := 1 } = true ∧ (1#16) ≠ 0 := by decide

/-- An accepted frame, and a timeout after a lone ESC; the same octets one by one, as Script has them come. -/
theorem witness_DecFrameRefinesReference :
    accepts .decFrame { emu with sq := [0x0E, 0x00, 0x3E, 0xFF], script := quiet 9 ++ [] } = true ∧
    Memory.wf emu.rxbuf ∧
    seen State.dstate (exec .decFrame { emu with sq := [0x0E, 0x00, 0x3E, 0xFF], script := quiet 9 }) = some .done ∧
    seen State.result (exec .decFrame { emu with sq := [0xFE], script := quiet 3 }) = some (.err .timeout) ∧
    seen (fun t => (t.result, t.wait, decide (Script [0x0E, 0x00, 0x3E, 0xFF] (since emu t) ∧ readsWork (since emu t))))
      (exec .decFrame { emu with
        script := [{ rx := [0x0E] }, {}, { rx := [0x00, 0x3E] }, {}, {}, {}, { rx := [0xFF] }, {}] }) =
      some (.ok (.num 1), none, true) := by decide

/-- Under `sign` the frame of [0E] is accepted and the empty frame is not (vectors E6, E1). -/
theorem witness_DecFrameRoundTrip :
    accepts .decFrame { emu with sq := eframeWire cfg [0x0E] ++ [7], script := quiet 8 ++ [] } = true ∧
    cfg.ok ∧ cfg.crcWidth = 16 ∧ 2 * (eframeWire cfg [0x0E]).length = 8 ∧ [0x0E#8].length ≤ emu.cfg.mtu ∧
    Memory.wf emu.rxbuf ∧
    (hi (crcFold cfg [0x0E])).toNat < 0x80 ∧ (lo (crcFold cfg [0x0E])).toNat < 0x80 ∧
    ¬ (hi (crcFold cfg [])).toNat < 0x80 := by decide

/-- Every way DEC.FRAME can end. -/
theorem witness_DecFrameEndsAtRest :
    seen State.result (exec .decFrame { emu with sq := [0x0E, 0x00, 0x3E, 0xFF], script := quiet 8 }) =
      some (.ok (.num 1)) ∧
    seen State.result (exec .decFrame { emu with sq := [0xFF], script := quiet 2 }) = some (.err .frameCorrupt) ∧
    seen State.result (exec .decFrame { emu with sq := [1, 2, 3, 4, 5, 6, 7], script := quiet 14 }) =
      some (.err .bufferExceeded) ∧
    seen State.result (exec .decFrame { emu with sq := [1], script := [{}, { fail := true }] }) =
      some (.err .ioError) ∧
    seen State.wait (exec .decFrame { emu with sq := [1], script := [{}, cut] }) = some (some .reset) := by decide

/-- ENC.FRAME ends well, and in its drain. -/
theorem witness_FrameOperationsStartAfresh :
    accepts .decFrame { emu with acc := 0x1234, rxcnt := 6, dstate := .failed } = true ∧
    accepts (.encFrame [0x0E]) { emu with acc := 0x1234, txphase := .failed } = true ∧
    seen State.acc (exec (.encFrame [0x0E]) { emu with acc := 0x1234, sq := [1], script := [{}, { fail := true }] }) =
      some 0x1234 := by decide

/-- The largest count, max(MTU, 2) = 4, and the count 0. -/
theorem witness_RdBytesGathers :
    accepts (.rdBytes 4) { nat with sq := [1, 2, 3, 4, 5], script := quiet 8 } = true ∧
    accepts (.rdBytes 0) nat = true ∧ Memory.wf nat.nbuf ∧ (4#16).toNat ≤ nat.cfg.nbufCap ∧
    still (quiet 8) := by decide

theorem witness_RdBytesLosesPartialRead :
    accepts (.rdBytes 4) { nat with sq := [1, 2, 3], script := quiet 8 } = true ∧ [1#8, 2, 3].length < (4#16).toNat ∧
    still (quiet 8) := by decide

/-- A frame of MTU octets, and the empty frame; a frame cut in its payload, in its prefix, and none; a failing
NetWrite. -/
theorem witness_NatRxDeliversOrFails :
    accepts .natRx { nat with sq := nframeWire [1, 2, 3, 4] ++ [9], script := quiet 13 } = true ∧ nat.cfg.ok ∧
    [1#8, 2, 3, 4].length ≤ nat.cfg.mtu ∧ 2 * (4 + 2) + 1 ≤ (quiet 13).length ∧ still (quiet 13) ∧
    Memory.wf nat.nbuf ∧
    accepts .natRx { nat with sq := nframeWire [] ++ [], script := quiet 5 } = true ∧
    ([0x00#8, 0x04, 1, 2, 3] <+: nframeWire [1, 2, 3, 4] ∧ [0x00#8, 0x04, 1, 2, 3] ≠ nframeWire [1, 2, 3, 4] ∧
    [0x00#8] <+: nframeWire [1, 2, 3, 4] ∧ ([] : List Octet) <+: nframeWire [] ∧ [] ≠ nframeWire [] ∧
    accepts .natRx { nat with
      sq := nframeWire [1] ++ [9]
      script := quiet (if [1#8] = [] then 2 else 4) ++ { fail := true } :: [] } = true ∧
    seen (fun t => (t.result, t.nstate, State.delivered t, t.sq))
      (exec .natRx { nat with sq := [0x00, 0x03, 0xAA, 0xBB], script := quiet 7 }) =
      some (.err .timeout, .failed, [], []) ∧
    seen (fun t => (t.result, t.nstate, State.delivered t))
      (exec .natRx { nat with sq := [0x00, 0x01, 0xAA], script := quiet 4 ++ [{ fail := true }] }) =
      some (.err .ioError, .failed, [])) :=
  ⟨by decide, by decide, by decide, by decide, by decide, by decide, by decide, by decide⟩

theorem witness_NatRxDiscardsOversize :
    accepts .natRx { nat with sq := pair 5 ++ [1], script := quiet 4 } = true ∧ nat.cfg.mtu < (5#16).toNat := by decide

theorem witness_NatLenClassesAct :
    accepts (.natLenOk 4) { nat with nstate := .lenPrefix, sq := [1, 2, 3, 4], script := quiet 9 } = true ∧
    accepts (.natLenOver 5) { nat with nstate := .lenPrefix } = true := by decide

/-- Turns of two polls: the first wait is ended by two edges, the second by one. -/
def polls : List Turn := [{}, { flips := 2 }, {}, { flips := 1 }]

/-- Ready at once; ready after as many waits as NAT_WAIT_LIMIT allows, the first ended by two edges and the second by
one; under the unbounded limit; giving up; a failing level read after two waits, and a failing second wait. -/
theorem witness_SensePollFollowsLevel :
    accepts .sensePoll { nat with script := {} :: [] } = true ∧
    accepts .sensePoll { nat with
      sense := false, script := polls ++ {} :: [] } = true ∧
    polls.length = 2 * 2 ∧
    still polls ∧
    (∀ j < 2, senseAfter false (polls.take (2 * j + 1)) ≠ nat.cfg.senseReady) ∧
    senseAfter false (polls ++ [({} : Turn)]) = nat.cfg.senseReady ∧
    (∀ l, nat.cfg.natWaitLimit = some l → 2 ≤ l) ∧ cfgUnbounded.natWaitLimit = none ∧
    senseAfter false (quiet 4 ++ [({} : Turn)]) ≠ nat.cfg.senseReady ∧ nat.cfg.natWaitLimit = some 2 ∧
    accepts .sensePoll { nat with sense := false, script := quiet 4 ++ { fail := true } :: [] } = true ∧
    (∀ j < 2, senseAfter false ((quiet 4).take (2 * j + 1)) ≠ nat.cfg.senseReady) ∧
    accepts .sensePoll { nat with sense := false, script := quiet 2 ++ {} :: { fail := true } :: [] } = true ∧
    nat.cfg.natWaitLimit ≠ some 1 := by
  refine ⟨by decide, by decide, by decide, by decide, by decide, by decide, fun l h => ?_, by decide, by decide,
    by decide, by decide, by decide, by decide, by decide⟩
  have h2 : some 2 = some l := h
  exact (Option.some.inj h2).le

/-- Full, no and partial acceptance, the last with one octet missing. -/
theorem witness_NatTxWritesFrame :
    accepts (.natTx [1]) { nat with script := [{}, {}] } = true ∧
    accepts (.natTx [1]) { nat with script := [{}, { short := some 0 }] } = true ∧
    accepts (.natTx [1]) { nat with script := [{}, { fail := true }] } = true ∧
    accepts (.natTx [1]) { nat with script := [{}, { short := some 2 }] } = true ∧ (2 : Nat) < [1#8].length + 2 ∧
    accepts (.natTx [1]) { nat with sense := false, script := [{ flips := 1 }, { short := some 3 }] } = true ∧
    (nat.sense ^^ decide (({} : Turn).flips % 2 = 1)) = nat.cfg.senseReady ∧ ({} : Turn).reset = false ∧
    seen (fun t => (t.result, t.wait, decide (IdealEcho (since nat t)),
        decide (Xact.serWrite (nframeWire [1]) (.accepted 3) ∈ since nat t)))
      (exec (.natTx [1]) { nat with script := [{}, { rx := [0x00, 0x01] }] }) =
      some (.ok (.num 1), none, true, true) := by decide

theorem witness_NframeWritesFrame :
    accepts (.nframe [1, 2, 3, 4]) { nat with nstate := .write, script := {} :: [] } = true := by decide

/-- Each operation at the least number of polls; each wait; the waits that end. -/
theorem witness_UnboundedPollKeepsWaiting :
    accepts (.natTx [1]) { nat with cfg := cfgUnbounded, sense := false, script := quiet 2 } = true ∧
    accepts .sensePoll { nat with cfg := cfgUnbounded, sense := false, script := quiet 2 } = true ∧
    accepts .brgStep { nat with cfg := cfgUnbounded, sense := false, netIn := [[1]], script := quiet 4 } = true ∧
    accepts .brgStep { emu with script := quiet 1 } = true ∧ nat.sq = [] ∧ emu.netIn = [] ∧
    cfgUnbounded.natWaitLimit = none ∧ false ≠ cfgUnbounded.senseReady ∧
    nat.halted = false ∧ nat.issue.head? ≠ some .reset ∧ nat.modeSet = true ∧ nat.mode = .native ∧
    [1#8].length ≤ nat.cfg.mtu ∧
    ((false : Bool) ^^ decide (({ flips := 1 } : Turn).flips % 2 = 1)) = cfgUnbounded.senseReady ∧
    seen (fun t => (t.result, t.wait, t.wire))
      (step { nat with
        cfg := cfgUnbounded, sense := false, nstate := .senseWait, wait := some (.natTx [7])
        script := [{}, { flips := 1 }, {}, {}] }) = some (.ok (.num 1), none, [0x00, 0x01, 7]) := by decide

theorem witness_ModeSetOnce : accepts (.modeSet .native) State.reset = true ∧ emu.modeSet = true := by decide

theorem witness_Tap2ttySendsFrame :
    accepts (.tap2tty [0x0E]) { emu with
      sq := [1], script := quiet 2 ++ echoScript (eframeWire cfg [0x0E]) ++ [] } = true := by decide

/-- Sent on the last attempt, Dropped, and cut in a backoff. -/
theorem witness_Tap2ttyNeverRaises :
    accepts (.tap2tty [0x0E]) { emu with script := quiet 18 } = true ∧
    seen State.result (exec (.tap2tty [0x0E]) { emu with script := quiet 18 }) = some (.ok .dropped) ∧
    seen (fun t => (t.result, t.attempt)) (exec (.tap2tty [0x0E])
      { emu with script := quiet 16 ++ echoScript (eframeWire cfg [0x0E]) }) = some (.ok .sent, 3) ∧
    seen State.wait (exec (.tap2tty [0x0E]) { emu with script := quiet 4 ++ [cut] }) = some (some .reset) ∧
    seen (fun t => (since emu t).filterMap Xact.slept ++ [(since emu t).length])
      (exec (.tap2tty [0x0E]) { emu with
        script := quiet 3 ++ [{ rand := 9 }, {}] ++ quiet 1 ++ echoScript [0x0E, 0x00, 0x3E, 0xFF] }) =
      some [10009, 22] := by decide

theorem witness_BrgStepTransmits :
    accepts .brgStep { emu with
      netIn := [[0x0E]], sq := [1], script := quiet 4 ++ echoScript (eframeWire cfg [0x0E]) ++ [] } = true ∧
    accepts .brgStep { nat with netIn := [[1], [2]], sq := [7], script := quiet 4 ++ [] } = true ∧
    nat.sense = nat.cfg.senseReady := by decide

/-- Emulated: a frame that is accepted, one that is not. Native: both sides ready and the serial side served. -/
theorem witness_BrgStepReceives :
    accepts .brgStep { emu with
      sq := eframeWire cfg [0x0E] ++ [7], script := quiet (2 * (eframeWire cfg [0x0E]).length + 2) ++ [] } = true ∧
    accepts .brgStep { emu with
      sq := eframeWire cfg [] ++ [], script := quiet (2 * (eframeWire cfg []).length + 2) ++ [] } = true ∧
    accepts .brgStep { nat with
      netIn := [[1]], sq := nframeWire [1, 2, 3, 4] ++ [], script := { serFirst := true } :: quiet 13 } = true ∧
    cfg.ok ∧ cfg.crcWidth = 16 ∧ still (quiet 13) := by decide

/-- The fatal error, and the stop. -/
theorem witness_BrgStepErrorIsFatal :
    seen (fun t => (t.result, t.halted, t.wait)) (exec .brgStep { emu with script := [{ fail := true }] }) =
      some (.err .ioError, true, none) ∧
    seen (fun t => (t.result, t.halted)) (exec .brgStep { emu with sq := [0xFF], script := quiet 3 }) =
      some (.ok .unit, false) ∧
    (State.reset.issue.head? ≠ some .reset) := by decide

/-- Each ground of refusal: before MODE.SET, the other mode, in a wait, a second MODE.SET, n = MTU + 1,
k = max(MTU, 2) + 1; the reserved code. -/
theorem witness_RefusedRequestsChangeOnlyResult :
    accepts .decFrame State.reset = false ∧ accepts .natRx emu = false ∧ accepts .flush nat = false ∧
    accepts .natRx { nat with wait := some .sense } = false ∧ accepts (.modeSet .native) emu = false ∧
    accepts (.encFrame [1, 2, 3, 4, 5]) emu = false ∧ accepts (.rdBytes 5) nat = false ∧
    formatOf (.rdBytes 5) = .cmd4 ∧ (0x00#8).toNat = 0 ∧ emu.halted = false ∧ emu.wait = none := by decide

theorem witness_UnselectedStepsAreRefused :
    accepts .symEnd emu = false ∧ accepts (.symData 0xFE) decoding = false ∧ accepts (.nframe []) nat = false ∧
    accepts (.natLenOk 5) { nat with nstate := .lenPrefix } = false ∧ formatOf .symEnd ≠ .cmd4 ∧
    16 ≤ (0x10#8).toNat := by decide

theorem witness_ErrorsByOperation :
    accepts .sensePoll { nat with sense := false, script := quiet 5 } = true ∧
    seen (fun t => (t.wait, t.result)) (exec .sensePoll { nat with sense := false, script := quiet 5 }) =
      some (none, .err .timeout) ∧
    seen (fun t => (t.wait, t.result)) (exec .sensePoll
      { nat with cfg := cfgUnbounded, script := [{ fail := true }] }) = some (none, .err .ioError) := by decide

theorem witness_ModesKeepApart :
    isNative .natRx = true ∧ isEmulated .decFrame = true ∧
    seen State.result (exec .natRx { nat with sq := [0, 0], script := quiet 5 }) = some (.ok (.delivered 0)) := by
  decide

theorem witness_OctetTransportFrame :
    seen State.result (exec (.txRaw 1) { emu with script := echoOf 1 }) = some (.ok .unit) ∧
    seen State.result (exec .flush { emu with sq := [1], script := quiet 2 }) = some (.ok (.num 1)) ∧
    seen (fun t => (t.wait, t.wire)) (exec (.stuffEscaped 0xFF) { emu with script := [{}, cut] }) =
      some (some .reset, [0xFE]) := by decide

theorem witness_EncoderFrame :
    seen State.result (exec (.encFrame []) { emu with script := quiet 1 ++ echoScript (eframeWire cfg []) }) =
      some (.ok (.num 0)) := by decide

theorem witness_DecoderFrame :
    seen (fun t => (t.result, Memory.read t.rxbuf 3)) (exec .decFrame { emu with
      rxbuf := [(3, 9)], sq := [0x0E, 0x00, 0x3E, 0xFF], script := quiet 8 }) = some (.ok (.num 1), 9) := by decide

theorem witness_NativeReceiverFrame :
    seen (fun t => (t.result, Memory.read t.nbuf 3)) (exec .natRx { nat with
      nbuf := [(3, 9)], sq := [0, 3, 1, 2, 3], script := quiet 5 }) = some (.ok (.delivered 3), 9) := by decide

theorem witness_NativeTransmitterFrame :
    seen (fun t => (t.result, t.sq)) (exec (.natTx [1]) { nat with sq := [5], script := quiet 2 }) =
      some (.ok (.num 1), [5]) := by decide

/-- Left waiting, on both transmit paths, and on both receive paths with an octet that no store touches. -/
theorem witness_BridgeFrame :
    seen (fun t => (t.wait, t.mode)) (exec .brgStep { nat with script := quiet 1 }) =
      some (some .brgAny, .native) ∧
    seen (fun t => decide (Xact.netRead (some [1]) ∈ since emu t))
      (exec .brgStep { emu with netIn := [[1]], script := quiet 2 ++ quiet 18 }) = some true ∧
    seen (fun t => decide (Xact.netRead (some [1]) ∈ since nat t))
      (exec .brgStep { nat with netIn := [[1]], script := quiet 4 }) = some true ∧
    seen (fun t => (storedBy cfg (since emu t), Memory.read t.rxbuf 2, Memory.read t.rxbuf 3)) (exec .brgStep { emu with
      rxbuf := [(3, 9)], sq := [0x0E, 0x00, 0x3E, 0xFF], script := quiet 10 }) = some (3, 0x3E, 9) ∧
    seen (fun t => (Memory.read t.nbuf 2, Memory.read t.nbuf 3)) (exec .brgStep { nat with
      nbuf := [(3, 9)], sq := [0, 3, 1, 2, 3], script := quiet 6 }) = some (3, 9) := by decide

theorem witness_ModeFixedUntilReset :
    emu.modeSet = true ∧ emu.issue.head? ≠ some .reset ∧ emu.wait ≠ some .reset ∧
    seen State.mode (step emu) = some .emulated := by decide

theorem witness_WireOnlyGrows :
    transmits .decFrame = false ∧
    seen State.wire (exec .decFrame { emu with wire := [1], sq := [0xFF], script := quiet 2 }) = some [1] := by decide

theorem witness_StepKeepsInvariant : StateInv emu := by
  constructor <;> first | decide | exact .inl rfl

/-- The reset input next; a reset due; a reset in the first turn, and in TX.RAW's wait. -/
theorem witness_ResetLeavesAndAbandons :
    seen (fun t => (t.issue, t.sq, t.rxcnt, t.wire))
      (step { emu with issue := [.reset], sq := [1], rxcnt := 3, wire := [2] }) = some ([], [1], 0, []) ∧
    seen (fun t => (t.issue, t.sq, t.rxcnt, t.wait))
      (step { emu with issue := [.bridge], wait := some .reset, sq := [1], rxcnt := 3 }) =
      some ([.bridge], [1], 0, none) ∧
    (accepts .decFrame { emu with script := [cut] } = true ∧ beginsWithTurn .decFrame = true ∧
    beginsWithTurn (.rdBytes 1) = true ∧ beginsWithTurn (.natLenOk 0) = true ∧
    accepts (.txRaw 1) { emu with script := [{ rx := [5] }, cut] } = true ∧ ({ rx := [5] } : Turn).short ≠ some 0) ∧
    seen (fun t => (t.wait, t.dstate, t.sq)) (exec .decFrame { emu with sq := [1, 2, 3], script := quiet 3 ++ [cut] }) =
      some (some .reset, .awaitOctet, [3]) ∧
    seen (fun t => (t.wait, t.dstate, t.sq, t.modeSet)) (step { emu with
      wait := some .reset, dstate := .awaitOctet, sq := [3] }) = some (none, .idle, [3], false) :=
  ⟨by decide, by decide, by decide, by decide, by decide⟩

/-- Each clause: a word, nothing to issue, the bridge loop, an operation in progress, a word of no format. -/
theorem witness_StepRunsDecoded :
    decode { dstate := emu.dstate, cfg := emu.cfg } .cmd4 [0x03] = .ok .flush ∧
    decode { dstate := emu.dstate, cfg := emu.cfg } .sym8 [0x03] =
      .error .notDecoding ∧
    emu.halted = false ∧ emu.wait = none ∧ emu.issue = [] ∧
    ({ nat with wait := some .sense } : State).issue.head? ≠ some .reset := by decide

theorem witness_DecodeEncodeRoundTrip :
    tableCtx.cfg.crcExt = .sign ∧ { tableCtx with cfg := cfg }.cfg.ok ∧
    WellFormed cfg (.symData 0xFD) = true ∧ readsAs tableCtx (.symData 0xFD) = true ∧
    WellFormed cfg (.eframe [0xFF]) = true ∧ readsAs tableCtx (.eframe [0xFF]) = true ∧
    readsAs tableCtx (.natLenOk 2048) = true ∧ readsAs tableCtx (.natLenOver 2049) = true := by decide

/-- A command word may say more than its encoding: the mode operand is one bit (log 12). -/
theorem witness_DecodedWordsMeanOneThing :
    decode tableCtx .stuff [0xFE, 0xFE] = .ok (.stuffEscaped 0xFE) ∧
    decode tableCtx .cmd4 [0x0F, 0x03] = .ok (.modeSet .native) ∧
    decode tableCtx .cmd4 ([0x04, 0x41] ++ [0x99]) = .ok (.txRaw 0x41) := by decide

end Sys2Proof.Tests
end

section
/-! SUPPORT. The steps of `crc_update` at N = 16 (spec/40_crc.md R111, R116) as halves and as numbers, CRC.UPDATE's
exact next state, and the obligations of the CRC16 unit that follow. -/

namespace Sys2Proof.Machine

/-! ## The widening of step 2 -/

/-- Xor acts on each half by itself. -/
theorem cat_xor_cat (h l h' l' : Octet) : cat h l ^^^ cat h' l' = cat (h ^^^ h') (l ^^^ l') := BitVec.xor_append

/-- Under `zero` the high octet of the widened value is clear. -/
theorem extN_zero_eq_cat (o : Octet) : extN 16 .zero o = cat 0x00 o :=
  BitVec.setWidth_eq_append (x := o) (w := 16) (by decide)

/-- Under `sign` the high octet is eight copies of bit 7 (R12, C2). -/
theorem extN_sign_eq_cat (o : Octet) : extN 16 .sign o = cat (if 0x80 ≤ o.toNat then 0xFF else 0x00) o := by
  have h : extN 16 .sign o = cat (if o.msb then 0xFF else 0x00) o :=
    BitVec.signExtend_eq_append_of_le (x := o) (v := 16) (by decide)
  simpa [BitVec.msb_eq_decide] using h

/-- Below 0x80 the two settings widen alike. -/
theorem extN_sign_of_lt {o : Octet} (h : o.toNat < 0x80) : extN 16 .sign o = extN 16 .zero o := by
  rw [extN_sign_eq_cat, extN_zero_eq_cat, if_neg (Nat.not_le.2 h)]

/-- From 0x80 on the sign setting inverts bits 15 to 8 of the zero setting's value. -/
theorem extN_sign_of_ge {o : Octet} (h : 0x80 ≤ o.toNat) : extN 16 .sign o = extN 16 .zero o ^^^ 0xFF00#16 := by
  have hmask : 0xFF00#16 = cat 0xFF 0x00 := by decide
  rw [extN_sign_eq_cat, extN_zero_eq_cat, if_pos h, hmask, cat_xor_cat]
  simp

/-- The widening is the reference's. -/
theorem extN_toNat (e : CrcExt) (o : Octet) : (extN 16 e o).toNat = refExtend e o.toNat := by
  cases e with
  | zero => simp [extN_zero_eq_cat, cat_toNat, refExtend]
  | sign =>
    rw [extN_sign_eq_cat, cat_toNat, refExtend]
    by_cases h : o.toNat < 0x80
    · simp [h, Nat.not_le.2 h]
    · simp [h, Nat.not_lt.1 h, Nat.add_comm]

/-! ## The steps on numbers -/

/-- Step 1: the octets change places. -/
theorem swap_toNat (a : Word16) : (swap a).toNat = (a.toNat / 256 + a.toNat * 256) % 65536 := by
  have := a.isLt
  rw [swap_eq_cat, cat_toNat, lo_toNat, hi_toNat]
  omega

/-- The mask of steps 3 and 5 keeps the low octet. -/
theorem and_lowOctet_toNat (a : Word16) : (a &&& 0x00FF#16).toNat = a.toNat % 256 :=
  Nat.and_two_pow_sub_one_eq_mod a.toNat 8

/-- Steps 3 to 5 are the reference's, each on the number the step before it left. -/
theorem crcMix_toNat (x : Word16) :
    (crcMix x).toNat =
      let a3 := x.toNat ^^^ x.toNat % 256 / 16
      let a4 := a3 ^^^ a3 * 4096 % 65536
      a4 ^^^ a4 % 256 * 32 % 65536 := by
  simp only [crcMix, BitVec.toNat_xor, and_lowOctet_toNat, BitVec.toNat_shiftLeft, Nat.shiftLeft_eq,
    BitVec.toNat_ushiftRight, Nat.shiftRight_eq_div_pow, Nat.reducePow]

/-- Settles O3: the widening, the swap and steps 3 to 5 agree with the reference one by one. -/
theorem crcUpdateMatchesReference : Obligations.CrcUpdateMatchesReference := by
  intro e a o
  rw [crcUpdate, crcMix_toNat, BitVec.toNat_xor, swap_toNat, extN_toNat, refUpdate]

/-! ## CRC.UPDATE -/

/-- An accepted CRC.UPDATE writes ACC and RESULT, and nothing else (R113). -/
theorem exec_crcUpdate_of_accepts {s : State} {o : Octet} (h : accepts (.crcUpdate o) s = true) :
    exec (.crcUpdate o) s =
      .next { s with
        acc := accUpdate s.cfg s.acc o
        result := .ok (.num (accUpdate s.cfg s.acc o).toNat) } := by
  have hadm : s.admits none = true := h
  have hwait : s.wait = none := admits_wait hadm
  simp [exec, execCrcUpdate, hadm, State.finish, feedAcc, hwait]

/-- Settles O2: the exact next state of CRC.UPDATE, whose new ACC is `crc_update` at N = 16; the corner cases and
the example of R113 are computed. -/
theorem crcUpdateFeedsAcc : Obligations.CrcUpdateFeedsAcc := by
  refine ⟨fun s o h => ⟨_, exec_crcUpdate_of_accepts h, fun hw => accUpdate_of_width hw s.acc o⟩, by decide, ?_⟩
  intro e
  cases e <;> decide

/-- Settles O6: both settings widen an octet to the same low half, and from 0x80 on their high halves are inverse. -/
theorem crcExtensionsDiffer : Obligations.CrcExtensionsDiffer := by
  refine ⟨fun a o => ⟨swap_eq_cat a, fun _ => rfl, fun h => ?_, fun h => ?_, extN_toNat .zero o⟩, rfl⟩
  · rw [extN_sign_of_lt h]
  · rw [extN_sign_of_ge h, BitVec.xor_assoc]

end Sys2Proof.Machine
end

section
/-! SUPPORT. The update of the CRC as a bijection (spec/40_crc.md R118): each of the steps 3 to 5 is undone, and the
residue law (R119) and the single-octet law (R121) follow. -/

namespace Sys2Proof.Machine

/-! ## Steps 3 to 5 one by one -/

/-- Step 3 of R111: bits 7..4 are added to bits 3..0. -/
def crcMix3 (a : Word16) : Word16 := a ^^^ ((a &&& 0x00FF#16) >>> 4)

/-- Step 4 of R111: bits 3..0 are added to bits 15..12. -/
def crcMix4 (a : Word16) : Word16 := a ^^^ (a <<< 12)

/-- Step 5 of R111: bits 7..0 are added to bits 12..5. -/
def crcMix5 (a : Word16) : Word16 := a ^^^ ((a &&& 0x00FF#16) <<< 5)

theorem crcMix_eq_steps (a : Word16) : crcMix a = crcMix5 (crcMix4 (crcMix3 a)) := rfl

/-- The mask of steps 3 and 5, bit by bit. -/
theorem getLsbD_lowMask (i : Nat) : (0x00FF#16).getLsbD i = decide (i < 8) := by
  by_cases h : i < 16
  · revert h
    revert i
    decide
  · rw [BitVec.getLsbD_of_ge _ _ (Nat.le_of_not_lt h)]
    exact (decide_eq_false (by omega)).symm

theorem getLsbD_crcMix3 (a : Word16) (i : Nat) :
    (crcMix3 a).getLsbD i = (a.getLsbD i ^^ (a.getLsbD (4 + i) && decide (4 + i < 8))) := by
  rw [crcMix3, BitVec.getLsbD_xor, BitVec.getLsbD_ushiftRight, BitVec.getLsbD_and, getLsbD_lowMask]

theorem getLsbD_crcMix4 (a : Word16) (i : Nat) :
    (crcMix4 a).getLsbD i = (a.getLsbD i ^^ (decide (i < 16) && !decide (i < 12) && a.getLsbD (i - 12))) := by
  rw [crcMix4, BitVec.getLsbD_xor, BitVec.getLsbD_shiftLeft]

theorem getLsbD_crcMix5 (a : Word16) (i : Nat) :
    (crcMix5 a).getLsbD i =
      (a.getLsbD i ^^ (decide (i < 16) && !decide (i < 5) && (a.getLsbD (i - 5) && decide (i - 5 < 8)))) := by
  rw [crcMix5, BitVec.getLsbD_xor, BitVec.getLsbD_shiftLeft, BitVec.getLsbD_and, getLsbD_lowMask]

/-- Step 3 reads only bits it leaves alone, so it undoes itself. -/
theorem crcMix3_crcMix3 (a : Word16) : crcMix3 (crcMix3 a) = a := by
  apply BitVec.eq_of_getLsbD_eq
  intro i hi
  rw [getLsbD_crcMix3, getLsbD_crcMix3, getLsbD_crcMix3]
  by_cases h : i < 4
  · simp [show 4 + i < 8 by omega, show ¬ 4 + (4 + i) < 8 by omega]
  · simp [show ¬ 4 + i < 8 by omega]

/-- Step 4 reads only bits it leaves alone, so it undoes itself. -/
theorem crcMix4_crcMix4 (a : Word16) : crcMix4 (crcMix4 a) = a := by
  apply BitVec.eq_of_getLsbD_eq
  intro i hi
  rw [getLsbD_crcMix4, getLsbD_crcMix4, getLsbD_crcMix4]
  by_cases h : i < 12
  · simp [h]
  · simp [h, hi, show i - 12 < 12 by omega]

/-- Step 5 leaves bits 4..0 alone, then bits 9..5 are known from them, and so on up: it loses nothing. -/
theorem crcMix5_injective : Function.Injective crcMix5 := by
  intro a b h
  have hbit (i : Nat) := congrArg (BitVec.getLsbD · i) h
  simp only [getLsbD_crcMix5] at hbit
  have hagree (i : Nat) : a.getLsbD i = b.getLsbD i := by
    induction i using Nat.strong_induction_on with
    | _ i ih =>
      have hi := hbit i
      by_cases h5 : i < 5
      · simpa [h5] using hi
      · rw [ih (i - 5) (by omega)] at hi
        exact Bool.xor_left_inj.1 hi
  exact BitVec.eq_of_getLsbD_eq fun i _ => hagree i

/-- Steps 3 to 5 lose nothing. -/
theorem crcMix_injective : Function.Injective fun x : Word16 => crcMix x := by
  intro x y h
  have h34 : crcMix4 (crcMix3 x) = crcMix4 (crcMix3 y) := crcMix5_injective h
  have h3 : crcMix3 x = crcMix3 y := Function.LeftInverse.injective crcMix4_crcMix4 h34
  exact Function.LeftInverse.injective crcMix3_crcMix3 h3

theorem crcMix_eq_zero_iff (x : Word16) : crcMix x = 0 ↔ x = 0 :=
  ⟨fun h => crcMix_injective (h.trans (by decide : (0 : Word16) = crcMix 0)), fun h => by rw [h]; decide⟩

/-! ## The update -/

theorem swap_swap (a : Word16) : swap (swap a) = a := by
  rw [swap_eq_cat, swap_eq_cat a, lo_cat, hi_cat, cat_hi_lo]

/-- For a fixed octet two accumulators give two values. -/
theorem crcUpdate_injective (e : CrcExt) (o : Octet) : Function.Injective fun a : Word16 => crcUpdate e a o := by
  intro a b h
  have hx : swap a ^^^ extN 16 e o = swap b ^^^ extN 16 e o := crcMix_injective h
  exact Function.LeftInverse.injective swap_swap ((BitVec.xor_left_inj _).1 hx)

/-- Widening loses nothing: the octet stands in the low half. -/
theorem extN_injective (e : CrcExt) : Function.Injective (extN 16 e) := by
  intro a b h
  cases e with
  | zero => simpa [extN_zero_eq_cat, lo_cat] using congrArg lo h
  | sign => simpa [extN_sign_eq_cat, lo_cat] using congrArg lo h

/-- For a fixed accumulator two octets give two values. -/
theorem crcUpdate_octet_injective (e : CrcExt) (a : Word16) : Function.Injective (crcUpdate e a) := by
  intro x y h
  exact extN_injective e ((BitVec.xor_right_inj _).1 (crcMix_injective h))

/-- Settles O4: an injection of a finite type into itself is a bijection. -/
theorem crcUpdateIsBijection : Obligations.CrcUpdateIsBijection := by
  refine ⟨fun e o => Finite.injective_iff_bijective.1 (crcUpdate_injective e o), fun e a o => ?_,
    Finite.injective_iff_bijective.1 crcMix_injective, crcMix_eq_zero_iff⟩
  rw [crcUpdate, crcMix_eq_zero_iff]
  exact BitVec.xor_eq_zero_iff

/-! ## The residue -/

/-- With a low half of zero, steps 3 to 5 add nothing. -/
theorem crcMix_cat_zero (h : Octet) : crcMix (cat h 0#8) = cat h 0#8 := by
  have hlow : cat h 0#8 &&& 0x00FF#16 = 0 := by
    apply BitVec.eq_of_toNat_eq
    rw [and_lowOctet_toNat, cat_toNat]
    simp
  have hshift : cat h 0#8 <<< 12 = 0 := by
    apply BitVec.eq_of_toNat_eq
    have := h.isLt
    rw [BitVec.toNat_shiftLeft, cat_toNat, Nat.shiftLeft_eq]
    simp
    omega
  have h3 : crcMix3 (cat h 0#8) = cat h 0#8 := by simp [crcMix3, hlow]
  have h4 : crcMix4 (cat h 0#8) = cat h 0#8 := by simp [crcMix4, hshift]
  have h5 : crcMix5 (cat h 0#8) = cat h 0#8 := by simp [crcMix5, hlow]
  rw [crcMix_eq_steps, h3, h4, h5]

/-- A receiver that stands at `c` and consumes `c`'s high octet, widened with the high half `x`, then its low octet,
widened with `y`. -/
theorem residue_of_ext {e : CrcExt} {c : Word16} {x y : Octet} (hx : extN 16 e (hi c) = cat x (hi c))
    (hy : extN 16 e (lo c) = cat y (lo c)) :
    crcUpdate e (crcUpdate e c (hi c)) (lo c) = crcMix (cat y x) := by
  have h1 : crcUpdate e c (hi c) = cat (lo c ^^^ x) 0 := by
    rw [crcUpdate, hx, swap_eq_cat, cat_xor_cat, BitVec.xor_self]
    exact crcMix_cat_zero _
  have h2 : (0 : Octet) ^^^ y = y := BitVec.zero_xor
  have h3 : (lo c ^^^ x) ^^^ lo c = x := by rw [BitVec.xor_comm, ← BitVec.xor_assoc, BitVec.xor_self, BitVec.zero_xor]
  rw [crcUpdate, h1, hy, swap_eq_cat, hi_cat, lo_cat, cat_xor_cat, h2, h3]

theorem residue_zero (c : Word16) : crcUpdate .zero (crcUpdate .zero c (hi c)) (lo c) = 0 := by
  rw [residue_of_ext (extN_zero_eq_cat _) (extN_zero_eq_cat _)]
  decide

theorem residue_sign (c : Word16) :
    crcUpdate .sign (crcUpdate .sign c (hi c)) (lo c) =
      crcMix (cat (if 0x80 ≤ (lo c).toNat then 0xFF else 0x00) (if 0x80 ≤ (hi c).toNat then 0xFF else 0x00)) :=
  residue_of_ext (extN_sign_eq_cat _) (extN_sign_eq_cat _)

/-- The residue under `sign` by the top bits of the two octets. -/
theorem residue_sign_cases (c : Word16) :
    crcUpdate .sign (crcUpdate .sign c (hi c)) (lo c) =
      if (hi c).toNat < 0x80 then (if (lo c).toNat < 0x80 then 0x0000#16 else 0xFF00#16)
      else (if (lo c).toNat < 0x80 then 0x1EF0#16 else 0xE1F0#16) := by
  rw [residue_sign]
  by_cases hh : (hi c).toNat < 0x80 <;> by_cases hl : (lo c).toNat < 0x80
  · rw [if_neg (Nat.not_le.2 hl), if_neg (Nat.not_le.2 hh), if_pos hh, if_pos hl]; decide
  · rw [if_pos (Nat.not_lt.1 hl), if_neg (Nat.not_le.2 hh), if_pos hh, if_neg hl]; decide
  · rw [if_neg (Nat.not_le.2 hl), if_pos (Nat.not_lt.1 hh), if_neg hh, if_pos hl]; decide
  · rw [if_pos (Nat.not_lt.1 hl), if_pos (Nat.not_lt.1 hh), if_neg hh, if_neg hl]; decide

theorem residue_sign_eq_zero_iff (c : Word16) :
    crcUpdate .sign (crcUpdate .sign c (hi c)) (lo c) = 0 ↔ (hi c).toNat < 0x80 ∧ (lo c).toNat < 0x80 := by
  rw [residue_sign_cases]
  split_ifs with hh hl hl
  · exact iff_of_true rfl ⟨hh, hl⟩
  · exact iff_of_false (by decide) fun h => hl h.2
  · exact iff_of_false (by decide) fun h => hh h.1
  · exact iff_of_false (by decide) fun h => hh h.1

/-- At N = 16 the fold of a frame's payload and trailer is zero exactly under the side condition (R119, R173). -/
theorem crcFold_frameOctets_eq_zero_iff {c : Config} (h : c.crcWidth = 16) (p : List Octet) :
    crcFold c (frameOctets p (crcFold c p)) = 0 ↔ frameAccepted c p := by
  have hfold : crcFold c (frameOctets p (crcFold c p)) =
      crcUpdate c.crcExt (crcUpdate c.crcExt (crcFold c p) (hi (crcFold c p))) (lo (crcFold c p)) := by
    rw [crcFold, frameOctets, List.foldl_append, ← crcFold, trailer]
    simp only [List.foldl_cons, List.foldl_nil, accUpdate_of_width h]
  rw [hfold, frameAccepted]
  cases c.crcExt with
  | zero => exact iff_of_true (residue_zero _) (.inl rfl)
  | sign =>
    rw [residue_sign_eq_zero_iff]
    simp

/-- Settles O5: consuming the high octet leaves the low half zero, so the second update mixes only the two extension
octets; low octet first, one accumulator for each setting shows it. -/
theorem crcResidueLaw : Obligations.CrcResidueLaw := by
  refine ⟨fun c => ⟨residue_zero c, residue_sign c, residue_sign_cases c⟩, fun e => ?_,
    fun c p h => crcFold_frameOctets_eq_zero_iff h p⟩
  cases e with
  | zero => exact ⟨0x0001#16, by decide⟩
  | sign => exact ⟨0x0001#16, by decide⟩

/-! ## One octet changed -/

/-- What follows keeps two accumulators apart. -/
theorem foldl_crcUpdate_injective (e : CrcExt) (ys : List Octet) :
    Function.Injective fun a : Word16 => ys.foldl (crcUpdate e) a := by
  induction ys with
  | nil => exact Function.injective_id
  | cons y ys ih => exact ih.comp (crcUpdate_injective e y)

/-- Settles O7: the changed octet gives another accumulator, and what follows keeps them apart. -/
theorem singleOctetErrorChangesFold : Obligations.SingleOctetErrorChangesFold := by
  intro c xs ys a b hw hab h
  rw [crcFold_of_width hw, crcFold_of_width hw, List.foldl_append, List.foldl_append] at h
  exact hab (crcUpdate_octet_injective _ _ (foldl_crcUpdate_injective _ ys h))

/-- Settles O1: CRC.INIT writes ACC and RESULT, and at N = 16 the seed is taken whole. -/
theorem crcInitSeedsAcc : Obligations.CrcInitSeedsAcc := by
  refine ⟨fun s h => ⟨accSeed s.cfg, ?_, accSeed_of_width⟩, rfl, rfl⟩
  have hadm : s.admits none = true := h
  simp [exec, execCrcInit, hadm, seedAcc, State.finish, admits_wait hadm]

end Sys2Proof.Machine
end

section
/-! SUPPORT. The decoder of each format against the encoder (spec/30_encoding.md): what encoding an instruction and
decoding it gives, what a word that decodes must look like, and the length of a frame (R84). -/

namespace Sys2Proof

open Laws.CommandCode (codeOf Statement)

/-! ## Operands of a command word -/

theorem payloadFits_iff (p : List Octet) : payloadFits p = true ↔ p.length < 65536 := decide_eq_true_iff

/-- A payload operand reads back the payload it was made of, whatever stands behind it. -/
theorem payloadOperand_pair (f : List Octet → Instr) {p : List Octet} (hp : payloadFits p = true) (u : List Octet) :
    payloadOperand f (pair (lenOf p) ++ p ++ u) = .ok (f p) := by
  have hlen : (cat (hi (lenOf p)) (lo (lenOf p))).toNat = p.length := by
    rw [cat_hi_lo, lenOf_toNat ((payloadFits_iff p).1 hp)]
  simp [payloadOperand, pair, hlen]

/-- A payload operand that reads is the payload's length and its octets, and something behind them. -/
theorem eq_of_payloadOperand {f : List Octet → Instr} {ops : List Octet} {i : Instr}
    (h : payloadOperand f ops = .ok i) :
    ∃ p u, payloadFits p = true ∧ ops = pair (lenOf p) ++ p ++ u ∧ i = f p := by
  match ops with
  | [] => cases h
  | [x] => cases h
  | x :: y :: ps =>
    rw [payloadOperand] at h
    split at h
    · cases h
    next hle =>
      have hlt := (cat x y).isLt
      have hlen : (ps.take (cat x y).toNat).length = (cat x y).toNat := List.length_take_of_le (Nat.not_lt.1 hle)
      have hof : lenOf (ps.take (cat x y).toNat) = cat x y := by rw [lenOf, hlen, BitVec.ofNat_toNat, BitVec.setWidth_eq]
      refine ⟨ps.take (cat x y).toNat, ps.drop (cat x y).toNat, (payloadFits_iff _).2 (by omega), ?_, ?_⟩
      · rw [hof, pair_cat]
        simp
      · exact (Except.ok.inj h).symm

/-- What a command word's operands say of its instruction `i`: the code, the ranges, and that what stands behind the
operands is not looked at. `d` reads the operands. -/
def ReadsCommand (c : Config) (code : Octet) (d : List Octet → Except DecodeErr Instr) (ops : List Octet) (i : Instr) :
    Prop :=
  codeOf i = some code ∧ WellFormed c i = true ∧ ∀ u, d (ops ++ u) = .ok i

variable {c : Config} {code : Octet} {ops : List Octet} {i : Instr}

theorem readsCommand_plain {j : Instr} (hj : codeOf j = some code ∧ WellFormed c j = true)
    (h : (.ok j : Except DecodeErr Instr) = .ok i) : ReadsCommand c code (fun _ => .ok j) ops i :=
  Except.ok.inj h ▸ ⟨hj.1, hj.2, fun _ => rfl⟩

theorem readsCommand_octet {f : Octet → Instr} (hf : ∀ o, codeOf (f o) = some code ∧ WellFormed c (f o) = true)
    (h : octetOperand f ops = .ok i) : ReadsCommand c code (octetOperand f) ops i := by
  match ops with
  | [] => cases h
  | o :: _ => exact Except.ok.inj h ▸ ⟨(hf o).1, (hf o).2, fun _ => rfl⟩

theorem readsCommand_word {f : Word16 → Instr} (hf : ∀ v, codeOf (f v) = some code ∧ WellFormed c (f v) = true)
    (h : wordOperand f ops = .ok i) : ReadsCommand c code (wordOperand f) ops i := by
  match ops with
  | [] => cases h
  | [_] => cases h
  | x :: y :: _ => exact Except.ok.inj h ▸ ⟨(hf (cat x y)).1, (hf (cat x y)).2, fun _ => rfl⟩

theorem readsCommand_payload {f : List Octet → Instr}
    (hf : ∀ p, codeOf (f p) = some code ∧ WellFormed c (f p) = payloadFits p)
    (h : payloadOperand f ops = .ok i) : ReadsCommand c code (payloadOperand f) ops i := by
  obtain ⟨p, v, hp, rfl, rfl⟩ := eq_of_payloadOperand h
  refine ⟨(hf p).1, (hf p).2.trans hp, fun u => ?_⟩
  rw [List.append_assoc]
  exact payloadOperand_pair f hp (v ++ u)

/-- A command word that decodes begins with its instruction's code, and its operands are read from the left. -/
theorem readsCommand_of_decode {x : Octet} (c : Config) (h : decodeCmd4 (x :: ops) = .ok i) :
    ReadsCommand c x (fun os => decodeCmd4 (x :: os)) ops i := by
  have hcode {n : Nat} (hn : x.toNat = n % 2 ^ 8) : x = BitVec.ofNat 8 n := BitVec.eq_of_toNat_eq hn
  simp only [decodeCmd4] at h
  split at h
  next => cases h
  next hx => obtain rfl := hcode (n := 0x1) hx; exact readsCommand_plain ⟨rfl, rfl⟩ h
  next hx => obtain rfl := hcode (n := 0x2) hx; exact readsCommand_octet (fun _ => ⟨rfl, rfl⟩) h
  next hx => obtain rfl := hcode (n := 0x3) hx; exact readsCommand_plain ⟨rfl, rfl⟩ h
  next hx => obtain rfl := hcode (n := 0x4) hx; exact readsCommand_octet (fun _ => ⟨rfl, rfl⟩) h
  next hx => obtain rfl := hcode (n := 0x5) hx; exact readsCommand_plain ⟨rfl, rfl⟩ h
  next hx => obtain rfl := hcode (n := 0x6) hx; exact readsCommand_octet (fun _ => ⟨rfl, rfl⟩) h
  next hx => obtain rfl := hcode (n := 0x7) hx; exact readsCommand_payload (fun _ => ⟨rfl, rfl⟩) h
  next hx => obtain rfl := hcode (n := 0x8) hx; exact readsCommand_plain ⟨rfl, rfl⟩ h
  next hx => obtain rfl := hcode (n := 0x9) hx; exact readsCommand_word (fun _ => ⟨rfl, rfl⟩) h
  next hx => obtain rfl := hcode (n := 0xA) hx; exact readsCommand_plain ⟨rfl, rfl⟩ h
  next hx => obtain rfl := hcode (n := 0xB) hx; exact readsCommand_payload (fun _ => ⟨rfl, rfl⟩) h
  next hx => obtain rfl := hcode (n := 0xC) hx; exact readsCommand_plain ⟨rfl, rfl⟩ h
  next hx => obtain rfl := hcode (n := 0xD) hx; exact readsCommand_payload (fun _ => ⟨rfl, rfl⟩) h
  next hx => obtain rfl := hcode (n := 0xE) hx; exact readsCommand_plain ⟨rfl, rfl⟩ h
  next hx => obtain rfl := hcode (n := 0xF) hx; exact readsCommand_octet (fun _ => ⟨rfl, rfl⟩) h
  next => cases h

/-- The family CommandCode for an instruction not named by its constructor. -/
theorem commandCode (i : Instr) : Statement i := by
  cases i with
  | crcInit | crcUpdate | flush | txRaw | rxRaw | encOctet | encFrame | decFrame | rdBytes | natRx | natTx
  | sensePoll | tap2tty | brgStep | modeSet => exact ⟨rfl, fun _ => rfl⟩
  | symEnd | symEsc | symData | symLit | stuffPlain | stuffEscaped | eframe | nframe | natLenOk | natLenOver =>
    exact nofun

theorem formatOf_of_codeOf (h : codeOf i = some code) : formatOf i = .cmd4 ∧ ∀ c, (encode c i).head? = some code := by
  have hi := commandCode i
  rwa [Statement, h] at hi

/-! ## The words of the internal formats -/

variable {w : List Octet} {d : DecodeCtx}

/-- A symbol octet is the word of the instruction the decoder state selects for it (R86). -/
theorem eq_of_decodeSym8 (h : decodeSym8 d.cfg d.dstate w = .ok i) :
    WellFormed d.cfg i = true ∧ formatOf i = .sym8 ∧ encode d.cfg i = w ∧ readsAs d i = true := by
  match w with
  | [] => cases h
  | _ :: _ :: _ => cases h
  | [o] =>
    simp only [decodeSym8, classify] at h
    split at h
    next hd =>
      split_ifs at h with hesc hend
      · obtain rfl := Except.ok.inj h
        exact ⟨rfl, rfl, by rw [hesc, encode], by simp [readsAs, hd]⟩
      · obtain rfl := Except.ok.inj h
        exact ⟨rfl, rfl, by rw [hend, encode], by simp [readsAs, hd]⟩
      · obtain rfl := Except.ok.inj h
        exact ⟨by simp [WellFormed, needsEsc, hesc, hend], rfl, rfl, by simp [readsAs, hd]⟩
    next hd =>
      obtain rfl := Except.ok.inj h
      exact ⟨rfl, rfl, rfl, by simp [readsAs, hd]⟩
    all_goals cases h

/-- A stuffed word is the stuffed form of one octet (R81). -/
theorem eq_of_decodeStuff (h : decodeStuff d.cfg w = .ok i) :
    WellFormed d.cfg i = true ∧ formatOf i = .stuff ∧ encode d.cfg i = w ∧ readsAs d i = true := by
  match w with
  | [] => cases h
  | [b] =>
    simp only [decodeStuff] at h
    split_ifs at h with hb
    obtain rfl := Except.ok.inj h
    exact ⟨by simp [WellFormed, hb], rfl, rfl, rfl⟩
  | [x, b] =>
    simp only [decodeStuff] at h
    split_ifs at h with hb
    obtain rfl := Except.ok.inj h
    exact ⟨hb.2, rfl, by rw [encode, hb.1], rfl⟩
  | _ :: _ :: _ :: _ => cases h

/-- A value of LEN is of one of the two classes (R94). -/
theorem eq_of_decodeLen16 (h : decodeLen16 d.cfg.mtu w = .ok i) :
    WellFormed d.cfg i = true ∧ formatOf i = .len16 ∧ encode d.cfg i = w ∧ readsAs d i = true := by
  match w with
  | [] => cases h
  | [_] => cases h
  | [x, y] =>
    simp only [decodeLen16, classifyLen] at h
    split_ifs at h with hn
    · obtain rfl := Except.ok.inj h
      exact ⟨rfl, rfl, pair_cat x y, hn⟩
    · obtain rfl := Except.ok.inj h
      exact ⟨rfl, rfl, pair_cat x y, by simp [readsAs, hn]⟩
  | _ :: _ :: _ :: _ => cases h

/-- An emulated frame decodes to the payload it is the frame of (R82). -/
theorem eq_of_decodeEFrame (h : decodeEFrame d.cfg w = .ok i) :
    WellFormed d.cfg i = true ∧ formatOf i = .eframe ∧ encode d.cfg i = w ∧ readsAs d i = true := by
  unfold decodeEFrame at h
  split at h
  · cases h
  · split_ifs at h with hp
    obtain rfl := Except.ok.inj h
    exact ⟨hp.1, rfl, hp.2, rfl⟩

/-- A native frame decodes to the payload it is the frame of (R92). -/
theorem eq_of_decodeNFrame (h : decodeNFrame w = .ok i) :
    WellFormed d.cfg i = true ∧ formatOf i = .nframe ∧ encode d.cfg i = w ∧ readsAs d i = true := by
  match w with
  | [] => cases h
  | [_] => cases h
  | x :: y :: p =>
    simp only [decodeNFrame] at h
    split_ifs at h with hp
    obtain rfl := Except.ok.inj h
    have hlt := (cat x y).isLt
    refine ⟨(payloadFits_iff p).2 (by omega), rfl, ?_, rfl⟩
    rw [encode, nframeWire, lenOf, hp, BitVec.ofNat_toNat, BitVec.setWidth_eq, pair_cat]
    rfl

/-- Settles O59: format by format, a word that decodes has the shape its format's decoder tests for. -/
theorem decodedWordsMeanOneThing : Obligations.DecodedWordsMeanOneThing := by
  intro d f w i h
  have internal {g : Format} (hg : g ≠ .cmd4)
      (h : WellFormed d.cfg i = true ∧ formatOf i = g ∧ encode d.cfg i = w ∧ readsAs d i = true) :
      WellFormed d.cfg i = true ∧ formatOf i = g ∧ (g ≠ .cmd4 → encode d.cfg i = w ∧ readsAs d i = true) ∧
        (g = .cmd4 → (encode d.cfg i).head? = w.head? ∧ ∀ u, decode d .cmd4 (w ++ u) = .ok i) :=
    ⟨h.1, h.2.1, fun _ => h.2.2, fun hc => absurd hc hg⟩
  cases f with
  | cmd4 =>
    match w with
    | [] => cases h
    | x :: ops =>
      obtain ⟨hcode, hwf, happ⟩ := readsCommand_of_decode d.cfg h
      obtain ⟨hfmt, hhead⟩ := formatOf_of_codeOf hcode
      exact ⟨hwf, hfmt, fun hc => absurd rfl hc, fun _ => ⟨hhead d.cfg, happ⟩⟩
  | sym8 => exact internal (by decide) (eq_of_decodeSym8 h)
  | stuff => exact internal (by decide) (eq_of_decodeStuff h)
  | eframe => exact internal (by decide) (eq_of_decodeEFrame h)
  | len16 => exact internal (by decide) (eq_of_decodeLen16 h)
  | nframe => exact internal (by decide) (eq_of_decodeNFrame h)

/-! ## Decoding what was encoded -/

theorem decodeCmd4_payload {x : Octet} {f : List Octet → Instr} {p : List Octet}
    (hx : ∀ ops, decodeCmd4 (x :: ops) = payloadOperand f ops) (hp : payloadFits p = true) :
    decodeCmd4 (x :: (pair (lenOf p) ++ p)) = .ok (f p) := by
  have h := payloadOperand_pair f hp []
  rw [List.append_nil] at h
  rw [hx, h]

theorem decodeCmd4_modeSet (m : Mode) : decodeCmd4 [0xF, modeOctet m] = .ok (.modeSet m) := by cases m <;> rfl

theorem decodeEFrame_eframeWire {p : List Octet} (hp : payloadFits p = true) :
    decodeEFrame c (eframeWire c p) = .ok (.eframe p) := by
  rw [decodeEFrame, frameBody_eframeWire]
  exact if_pos ⟨hp, rfl⟩

theorem decodeNFrame_nframeWire {p : List Octet} (hp : payloadFits p = true) :
    decodeNFrame (nframeWire p) = .ok (.nframe p) := by
  have hlen : p.length = (cat (hi (lenOf p)) (lo (lenOf p))).toNat := by
    rw [cat_hi_lo, lenOf_toNat ((payloadFits_iff p).1 hp)]
  exact if_pos hlen

/-- Settles O58: instruction by instruction, the format's decoder undoes the encoding; END is not ESC because the
parameters fit together. -/
theorem decodeEncodeRoundTrip : Obligations.DecodeEncodeRoundTrip := by
  intro d i hok hwf hreads
  obtain ⟨-, -, -, hne⟩ := hok
  have hplain {o : Octet} (h : (!needsEsc d.cfg o) = true) : o ≠ d.cfg.endOctet ∧ o ≠ d.cfg.escOctet := by
    simpa [needsEsc] using h
  cases i with
  | crcInit | crcUpdate | flush | txRaw | rxRaw | encOctet | decFrame | natRx | sensePoll | brgStep => rfl
  | encFrame p => exact decodeCmd4_payload (x := 0x7) (f := .encFrame) (fun _ => rfl) hwf
  | natTx p => exact decodeCmd4_payload (x := 0xB) (f := .natTx) (fun _ => rfl) hwf
  | tap2tty p => exact decodeCmd4_payload (x := 0xD) (f := .tap2tty) (fun _ => rfl) hwf
  | rdBytes k =>
    show Except.ok (Instr.rdBytes (cat (hi k) (lo k))) = _
    rw [cat_hi_lo]
  | modeSet m => exact decodeCmd4_modeSet m
  | symEnd =>
    have hd : d.dstate = .awaitOctet := by simpa [readsAs] using hreads
    simp [formatOf, encode, decode, decodeSym8, classify, hd, hne]
  | symEsc =>
    have hd : d.dstate = .awaitOctet := by simpa [readsAs] using hreads
    simp [formatOf, encode, decode, decodeSym8, classify, hd]
  | symData o =>
    have hd : d.dstate = .awaitOctet := by simpa [readsAs] using hreads
    simp [formatOf, encode, decode, decodeSym8, classify, hd, hplain hwf]
  | symLit o =>
    have hd : d.dstate = .escaped := by simpa [readsAs] using hreads
    simp [formatOf, encode, decode, decodeSym8, classify, hd]
  | stuffPlain b =>
    have hb : needsEsc d.cfg b = false := by simpa [WellFormed] using hwf
    simp [formatOf, encode, decode, decodeStuff, hb]
  | stuffEscaped b =>
    have hb : needsEsc d.cfg b = true := hwf
    simp [formatOf, encode, decode, decodeStuff, hb]
  | eframe p => exact decodeEFrame_eframeWire hwf
  | nframe p => exact decodeNFrame_nframeWire hwf
  | natLenOk n =>
    have hn : lenOk d.cfg.mtu n = true := hreads
    simp [formatOf, encode, decode, decodeLen16, pair, cat_hi_lo, classifyLen, hn]
  | natLenOver n =>
    have hn : lenOk d.cfg.mtu n = false := by simpa [readsAs] using hreads
    simp [formatOf, encode, decode, decodeLen16, pair, cat_hi_lo, classifyLen, hn]

/-- Settles O60: words of the spec's tables, each read by evaluation. -/
theorem specWordsDecode : Obligations.SpecWordsDecode := by
  refine ⟨fun c => ⟨rfl, rfl, rfl, rfl, rfl, rfl, rfl, rfl, rfl⟩, ?_⟩
  decide

/-! ## The length of a frame -/

theorem length_frameOctets (p : List Octet) (v : Word16) : (frameOctets p v).length = p.length + 2 := by
  simp [frameOctets, trailer]

/-- Each octet that needs an escape counts twice, and END closes the frame (R84). -/
theorem length_eframeWire (c : Config) (p : List Octet) :
    (eframeWire c p).length = p.length + 3 + (frameOctets p (crcFold c p)).countP (needsEsc c) := by
  rw [eframeWire, List.length_append, length_flatMap_stuff, length_frameOctets]
  simp only [List.length_cons, List.length_nil]
  omega

/-- Settles O17: the count of escaped octets is at most that of all of them, n + 2. -/
theorem eframeLength : Obligations.EframeLength := by
  refine ⟨fun c p => ?_, by decide⟩
  have hlen := length_eframeWire c p
  have hcount : (frameOctets p (crcFold c p)).countP (needsEsc c) ≤ p.length + 2 :=
    List.countP_le_length.trans_eq (length_frameOctets p _)
  exact ⟨hlen, by omega, fun mtu h => by omega⟩

end Sys2Proof
end

section
/-! SUPPORT. `exec` said once: an accepted instruction runs its body and closes it, any other is refused (spec/30_encoding.md
R97). How a body's end shows in the next state, and the obligations that need no more than that. -/

namespace Sys2Proof.Machine

/-! ## `exec` -/

/-- What an accepted instruction does, its value included. -/
def body : Instr → State → Ret Value
  | .crcInit, s => .done .unit (seedAcc s)
  | .crcUpdate o, s => .done (.num (feedAcc o s).acc.toNat) (feedAcc o s)
  | .flush, s => (flush s).bind fun k s1 => .done (.num k) s1
  | .txRaw o, s => (txRaw o s).bind fun _ s1 => .done .unit s1
  | .rxRaw, s => (rxRaw s).bind fun o s1 => .done (.num o.toNat) s1
  | .encOctet b, s => (encOctet b s).bind fun _ s1 => .done .unit s1
  | .encFrame p, s => (encFrame p s).bind fun _ s1 => .done (.num p.length) s1
  | .decFrame, s => (decFrame s).bind fun n s1 => .done (.num n) s1
  | .rdBytes k, s => (rdBytes k.toNat s).bind fun _ s1 => .done (.inNbuf k.toNat) s1
  | .natRx, s => natRx s
  | .natTx p, s => natTx (.natTx p) p s
  | .sensePoll, s => (sensePoll .sense s).bind fun _ s1 => .done .unit s1
  | .tap2tty p, s => tap2tty p s
  | .brgStep, s => brgStep s
  | .modeSet m, s => .done .unit { s with mode := m, modeSet := true }
  | .symEnd, s => (symEnd s).bind fun n s1 => .done (.num n) s1
  | .symEsc, s => .done .unit (symEsc s)
  | .symData o, s => (symData o s).bind fun _ s1 => .done .unit s1
  | .symLit o, s => (symLit o s).bind fun _ s1 => .done .unit s1
  | .stuffPlain b, s => (sendPlain b s).bind fun _ s1 => .done .unit s1
  | .stuffEscaped b, s => (sendEscaped b s).bind fun _ s1 => .done .unit s1
  | .eframe p, s => (sendFrame p s).bind fun _ s1 => .done (.num p.length) s1
  | .nframe p, s => sendNFrame p s
  | .natLenOk n, s => natLenOk n s
  | .natLenOver n, s => natLenOver n s

/-- The end of a step inside an operation, for a body with a value (assumption log 13). -/
def Ret.concludeInner (r : Ret Value) : State := (r.bind fun _ s => .done () s).concludeStep

/-- How an instruction closes its body. -/
def closing : Instr → Ret Value → State
  | .brgStep => concludeBridge
  | .symEsc => Ret.concludeInner
  | .symData _ => Ret.concludeInner
  | .symLit _ => Ret.concludeInner
  | _ => Ret.conclude

theorem concludeInner_bind_done {α : Type} (r : Ret α) (v : Value) :
    (r.bind fun _ s => .done v s).concludeInner = (r.bind fun _ s => .done () s).concludeStep := by cases r <;> rfl

theorem concludeStep_bind_done (r : Ret Unit) : (r.bind fun _ s => .done () s).concludeStep = r.concludeStep := by
  cases r <;> rfl

/-- The one equation of `exec`. -/
theorem exec_eq (i : Instr) (s : State) :
    exec i s = .next (if accepts i s = true then closing i (body i s) else s.refuse) := by
  have select {P : Prop} [Decidable P] {a : State} (h : P ↔ accepts i s = true) :
      (.next (if P then a else s.refuse) : Host.Outcome State Fault Refusal) =
        .next (if accepts i s = true then a else s.refuse) := congrArg _ (if_congr h rfl rfl)
  cases i with
  | crcInit | crcUpdate | flush | txRaw | rxRaw | encOctet | decFrame | natRx | sensePoll | brgStep => rfl
  | encFrame | rdBytes | natTx | tap2tty | modeSet | symEnd | symEsc | stuffPlain | stuffEscaped | eframe | nframe
  | natLenOk | natLenOver => exact select (by simp [accepts, and_assoc])
  | symData o =>
    rw [closing, body, concludeInner_bind_done, concludeStep_bind_done]
    exact select (by simp [accepts, and_assoc])
  | symLit o =>
    rw [closing, body, concludeInner_bind_done, concludeStep_bind_done]
    exact select (by simp [accepts])

theorem exec_of_accepts {i : Instr} {s : State} (h : accepts i s = true) : exec i s = .next (closing i (body i s)) := by
  rw [exec_eq, if_pos h]

theorem exec_of_not_accepts {i : Instr} {s : State} (h : accepts i s = false) : exec i s = .next s.refuse := by
  rw [exec_eq, if_neg (by simp [h])]

/-- What an instruction that answers a next state did. -/
theorem exec_cases {i : Instr} {s t : State} (h : exec i s = .next t) :
    (accepts i s = true ∧ t = closing i (body i s)) ∨ (accepts i s = false ∧ t = s.refuse) := by
  rw [exec_eq] at h
  obtain rfl := Host.Outcome.next.inj h
  cases ha : accepts i s with
  | true => exact .inl ⟨rfl, rfl⟩
  | false => exact .inr ⟨rfl, rfl⟩

theorem eq_of_exec {i : Instr} {s t : State} (ha : accepts i s = true) (h : exec i s = .next t) :
    t = closing i (body i s) := by
  rw [exec_of_accepts ha] at h
  exact (Host.Outcome.next.inj h).symm

/-! ## What acceptance says -/

/-- The mode an instruction needs, if any (R98). -/
def modeNeeded (i : Instr) : Option Mode :=
  if isEmulated i then some .emulated else if isNative i then some .native else none

/-- Whatever is accepted but MODE.SET needs no operation in progress, MODE.SET done and its mode (R97, R98). -/
theorem admits_of_accepts {i : Instr} {s : State} (h : accepts i s = true) (hm : ∀ m, i ≠ .modeSet m) :
    s.admits (modeNeeded i) = true := by
  cases i with
  | modeSet m => exact absurd rfl (hm m)
  | crcInit | crcUpdate | flush | txRaw | rxRaw | encOctet | decFrame | natRx | sensePoll | brgStep => exact h
  | encFrame | rdBytes | natTx | tap2tty | symEnd | symEsc | symLit | stuffPlain | stuffEscaped =>
    simp only [accepts, Bool.and_eq_true] at h
    exact h.1
  | symData | eframe | nframe | natLenOk | natLenOver =>
    simp only [accepts, Bool.and_eq_true] at h
    exact h.1.1

theorem wait_of_accepts {i : Instr} {s : State} (h : accepts i s = true) : s.wait = none := by
  by_cases hm : ∃ m, i = .modeSet m
  · obtain ⟨m, rfl⟩ := hm
    simp only [accepts, Bool.and_eq_true] at h
    exact Option.isNone_iff_eq_none.1 h.1
  · exact admits_wait (admits_of_accepts h fun m hi => hm ⟨m, hi⟩)

theorem modeSet_of_accepts {i : Instr} {s : State} (h : accepts i s = true) (hm : ∀ m, i ≠ .modeSet m) :
    s.modeSet = true := admits_modeSet (admits_of_accepts h hm)

theorem mode_of_accepts_emulated {i : Instr} {s : State} (h : accepts i s = true) (hi : isEmulated i = true) :
    s.mode = .emulated := by
  have hadm := admits_of_accepts h (fun m hm => by subst hm; cases hi)
  rw [modeNeeded, if_pos hi] at hadm
  exact admits_mode hadm

/-- No operation is of both modes. -/
theorem isEmulated_of_isNative {i : Instr} (h : isNative i = true) : isEmulated i = false := by
  cases i with
  | rdBytes | natRx | natTx | sensePoll | nframe | natLenOk | natLenOver => rfl
  | _ => cases h

theorem mode_of_accepts_native {i : Instr} {s : State} (h : accepts i s = true) (hi : isNative i = true) :
    s.mode = .native := by
  have hadm := admits_of_accepts h (fun m hm => by subst hm; cases hi)
  rw [modeNeeded, isEmulated_of_isNative hi, if_neg Bool.false_ne_true, if_pos hi] at hadm
  exact admits_mode hadm

/-- The length bound of an accepted request with a payload. -/
theorem mtu_of_accepts {s : State} {p : List Octet}
    (h : accepts (.encFrame p) s = true ∨ accepts (.natTx p) s = true ∨ accepts (.tap2tty p) s = true ∨
      accepts (.eframe p) s = true ∨ accepts (.nframe p) s = true) : p.length ≤ s.cfg.mtu := by
  simp only [accepts, Bool.and_eq_true, decide_eq_true_eq] at h
  rcases h with h | h | h | h | h <;> exact h.2

/-! ## How an operation closes -/

section closing

variable {r : Ret Value} {D : Value → State → Prop} {E : Err → State → Prop} {W : Wait → State → Prop}

theorem conclude_cases (h : r.ends D E W) :
    (∃ v u, D v u ∧ r.conclude = u.finish v) ∨ (∃ e u, E e u ∧ r.conclude = u.raise e) ∨
      (∃ w u, W w u ∧ r.conclude = { u with wait := some w }) := by
  cases r with
  | done v u => exact .inl ⟨v, u, h, rfl⟩
  | raised e u => exact .inr (.inl ⟨e, u, h, rfl⟩)
  | waiting w u => exact .inr (.inr ⟨w, u, h, rfl⟩)

theorem concludeBridge_cases (h : r.ends D E W) :
    (∃ v u, D v u ∧ concludeBridge r = u.finish v) ∨
      (∃ e u, E e u ∧ concludeBridge r = { u.raise e with halted := true }) ∨
      (∃ w u, W w u ∧ concludeBridge r = { u with wait := some w }) := by
  cases r with
  | done v u => exact .inl ⟨v, u, h, rfl⟩
  | raised e u => exact .inr (.inl ⟨e, u, h, rfl⟩)
  | waiting w u => exact .inr (.inr ⟨w, u, h, rfl⟩)

end closing

/-- A value given to a piece's end changes nothing of how it ends. -/
theorem ends_bind_value {α : Type} (r : Ret α) (g : α → Value) (D : Value → State → Prop) (E : Err → State → Prop)
    (W : Wait → State → Prop) :
    (r.bind fun a s => .done (g a) s).ends D E W ↔ r.ends (fun a s => D (g a) s) E W := by cases r <;> rfl

theorem all_bind_value {α : Type} (r : Ret α) (g : α → Value) (P : State → Prop) :
    (r.bind fun a s => .done (g a) s).all P ↔ r.all P := by cases r <;> rfl

/-- How an operation whose value is `g` of its piece's closes. -/
theorem conclude_value_cases {α : Type} {r : Ret α} {D : α → State → Prop} {E : Err → State → Prop}
    {W : Wait → State → Prop} (g : α → Value) (h : r.ends D E W) :
    (∃ a u, D a u ∧ (r.bind fun a s => .done (g a) s).conclude = u.finish (g a)) ∨
      (∃ e u, E e u ∧ (r.bind fun a s => .done (g a) s).conclude = u.raise e) ∨
      (∃ w u, W w u ∧ (r.bind fun a s => .done (g a) s).conclude = { u with wait := some w }) := by
  cases r with
  | done a u => exact .inl ⟨a, u, h, rfl⟩
  | raised e u => exact .inr (.inl ⟨e, u, h, rfl⟩)
  | waiting w u => exact .inr (.inr ⟨w, u, h, rfl⟩)

section closes

variable {i : Instr} {s t : State} {E : Err → State → Prop} {W : Wait → State → Prop}

theorem exec_ends_cases {D : Value → State → Prop} (ha : accepts i s = true) (h : exec i s = .next t)
    (hends : (body i s).ends D E W) (hi : closing i = Ret.conclude := by rfl) :
    (∃ v u, D v u ∧ t = u.finish v) ∨ (∃ e u, E e u ∧ t = u.raise e) ∨
      (∃ w u, W w u ∧ t = { u with wait := some w }) := by
  obtain rfl := eq_of_exec ha h
  rw [hi]
  exact conclude_cases hends

theorem exec_value_cases {α : Type} {r : Ret α} {D : α → State → Prop} (g : α → Value) (ha : accepts i s = true)
    (h : exec i s = .next t) (hends : r.ends D E W)
    (hb : body i s = r.bind fun a s => .done (g a) s := by rfl) (hi : closing i = Ret.conclude := by rfl) :
    (∃ a u, D a u ∧ t = u.finish (g a)) ∨ (∃ e u, E e u ∧ t = u.raise e) ∨
      (∃ w u, W w u ∧ t = { u with wait := some w }) := by
  obtain rfl := eq_of_exec ha h
  rw [hi, hb]
  exact conclude_value_cases g hends

end closes

/-! ## Refusals -/

/-- Settles O42: `exec` refuses what is not accepted, and code 0x0 decodes to no operation. -/
theorem refusedRequestsChangeOnlyResult : Obligations.RefusedRequestsChangeOnlyResult := by
  refine ⟨fun i s _ h => exec_of_not_accepts h, fun s c w rest hi hh hw hc => ?_⟩
  have hdec : decode s.decodeCtx .cmd4 (c :: w) = .error .reservedCode := by simp [decode, decodeCmd4, hc]
  simp [step, hi, hh, hw, issueNext, runWord, hdec, undecodable, State.refuse, State.popIssue]

/-- A command octet above 0xF holds no code (assumption log 12). -/
theorem decodeCmd4_noCode {c : Octet} (hc : 16 ≤ c.toNat) (w : List Octet) :
    decodeCmd4 (c :: w) = .error .noCode := by
  obtain ⟨n, hn⟩ : ∃ n, c.toNat = n + 16 := ⟨c.toNat - 16, by omega⟩
  rw [decodeCmd4, hn]
  rfl

/-- Settles O43: `exec` refuses what is not selected, and an octet above 0xF decodes to no operation. -/
theorem unselectedStepsAreRefused : Obligations.UnselectedStepsAreRefused := by
  refine ⟨fun i s _ h => exec_of_not_accepts h, fun s c w rest hi hh hw hc => ?_⟩
  have hdec : decode s.decodeCtx .cmd4 (c :: w) = .error .noCode := decodeCmd4_noCode hc w
  simp [step, hi, hh, hw, issueNext, runWord, hdec, undecodable, State.refuse, State.popIssue]

/-! ## The issue list -/

/-- Without a reset, a stop or an operation in progress a step takes up what stands next. -/
theorem step_of_idle {s : State} (hi : s.issue.head? ≠ some .reset) (hh : s.halted = false) (hw : s.wait = none) :
    step s = issueNext s := by simp [step, hi, hh, hw]

theorem step_of_wait {s : State} {w : Wait} (hi : s.issue.head? ≠ some .reset) (hh : s.halted = false)
    (hw : s.wait = some w) : step s = .next (resume w s) := by simp [step, hi, hh, hw]

theorem step_of_word {s : State} {f : Format} {w : List Octet} {rest : List Issue} (hi : s.issue = .word f w :: rest)
    (hh : s.halted = false) (hw : s.wait = none) : step s = runWord f w s := by
  rw [step_of_idle (by simp [hi]) hh hw, issueNext, hi]

theorem popIssue_of {s : State} {x : Issue} {rest : List Issue} (hi : s.issue = x :: rest) :
    s.popIssue = { s with issue := rest } := by simp [State.popIssue, hi]

/-- Settles O57: the branches of `step` and `issueNext`, one for each clause. -/
theorem stepRunsDecoded : Obligations.StepRunsDecoded := by
  refine ⟨fun s f w rest i hi hh hw hd => ?_, fun s hi hh hw => ?_, fun s rest hi hh hw => ?_,
    fun s w hw hh hi => step_of_wait hi hh hw, fun s f w rest e hi hh hw hf hd => ?_⟩
  · rw [step_of_word hi hh hw, runWord, State.decodeCtx, hd, popIssue_of hi]
  · rw [step_of_idle (by simp [hi]) hh hw, issueNext, hi]
  · rw [step_of_idle (by simp [hi]) hh hw, issueNext, hi]
  · rw [step_of_word hi hh hw, runWord, State.decodeCtx, hd]
    cases f with
    | cmd4 => exact absurd rfl hf
    | sym8 | stuff | eframe | len16 | nframe => rfl

/-! ## Instructions of one register write -/

/-- Settles O36: MODE.SET's acceptance is that it has not been issued yet. -/
theorem modeSetOnce : Obligations.ModeSetOnce := by
  refine ⟨fun s m h => ?_, fun s m h => exec_of_not_accepts (by simp [accepts, h])⟩
  simp [exec_of_accepts h, closing, body, Ret.conclude, State.finish, wait_of_accepts h]

/-- What a store does at a buffer that is not full. -/
theorem storeOctet_of_ne {s : State} {o : Octet} (h : s.rxcnt ≠ s.cfg.rxbufCap) :
    storeOctet o s = .done () { s with
      rxbuf := Memory.write s.rxbuf s.rxcnt o
      rxcnt := s.rxcnt + 1
      acc := accUpdate s.cfg s.acc o } := if_neg h

/-- What a store does at a full buffer (D4). -/
theorem storeOctet_of_full {s : State} {o : Octet} (h : s.rxcnt = s.cfg.rxbufCap) :
    storeOctet o s = .raised .bufferExceeded (decAbort s) := if_pos h

/-- A store changes no index but RXCNT. -/
theorem agreeOutside_write (m : Memory) (n : Nat) (o : Octet) : agreeOutside m (Memory.write m n o) (· = n) :=
  fun _ ha => Memory.read_write_ne _ _ _ ha

/-- Settles O18: SYM.DATA is the store. -/
theorem symDataStores : Obligations.SymDataStores := by
  intro s o h
  rw [exec_of_accepts h]
  refine ⟨fun hfull => ?_, fun hne hwf => ⟨_, _, ?_, fun hw => accUpdate_of_width hw _ _, Memory.read_write_same _ _ hwf,
    agreeOutside_write _ _ _⟩⟩
  · simp [closing, body, symData, storeOctet_of_full hfull, Ret.bind, Ret.concludeInner, Ret.concludeStep, decAbort,
      State.raise, wait_of_accepts h]
  · simp [closing, body, symData, storeOctet_of_ne hne, Ret.bind, Ret.concludeInner, Ret.concludeStep]

/-- Settles O19: SYM.LIT is the store after DSTATE has left Escaped. -/
theorem symLitStoresVerbatim : Obligations.SymLitStoresVerbatim := by
  intro s o h
  rw [exec_of_accepts h]
  refine ⟨fun hfull => ?_, fun hne hwf => ⟨_, _, ?_, fun hw => accUpdate_of_width hw _ _, Memory.read_write_same _ _ hwf,
    agreeOutside_write _ _ _⟩⟩
  · simp only [closing, body, symLit, storeOctet_of_full (s := { s with dstate := .awaitOctet }) hfull]
    simp [Ret.bind, Ret.concludeInner, Ret.concludeStep, decAbort, State.raise, wait_of_accepts h]
  · simp [closing, body, symLit, storeOctet_of_ne (s := { s with dstate := .awaitOctet }) hne, Ret.bind,
      Ret.concludeInner, Ret.concludeStep]

/-- Settles O20: SYM.ESC is selected by AwaitOctet, in which ESCF is 0. -/
theorem symEscSetsEscape : Obligations.SymEscSetsEscape := by
  intro s h
  have hd : s.dstate = .awaitOctet := by simpa [accepts] using (Bool.and_eq_true_iff.1 h).2
  exact ⟨exec_of_accepts h, by rw [State.escf, hd]; rfl, rfl⟩

theorem acceptsAtEnd_iff (n : Nat) (a : Word16) : acceptsAtEnd n a = true ↔ 2 ≤ n ∧ a = 0 := by simp [acceptsAtEnd]

theorem symEnd_of_accepts {s : State} (h : 2 ≤ s.rxcnt ∧ s.acc = 0) :
    symEnd s = .done (s.rxcnt - 2) { s with dstate := .done } := if_pos ((acceptsAtEnd_iff _ _).2 h)

theorem symEnd_of_not {s : State} (h : ¬ (2 ≤ s.rxcnt ∧ s.acc = 0)) :
    symEnd s = .raised .frameCorrupt (decAbort s) := if_neg (fun hh => h ((acceptsAtEnd_iff _ _).1 hh))

/-- Settles O21: SYM.END is the test at END. -/
theorem symEndJudgesFrame : Obligations.SymEndJudgesFrame := by
  intro s h
  rw [exec_of_accepts h]
  refine ⟨fun hn ha => ?_, fun hbad => ?_⟩
  · simp [closing, body, symEnd_of_accepts ⟨hn, ha⟩, Ret.bind, Ret.conclude, State.finish, wait_of_accepts h]
  · have hnot : ¬ (2 ≤ s.rxcnt ∧ s.acc = 0) := fun hh => hbad.elim (by omega) fun hne => hne hh.2
    simp [closing, body, symEnd_of_not hnot, Ret.bind, Ret.conclude, decAbort, State.raise, wait_of_accepts h]

/-- NFRAME's write when its turn is quiet. -/
theorem sendNFrame_quiet {s : State} {p : List Octet} {rest : List Turn} (h : s.script = {} :: rest) :
    sendNFrame p s = .done (.num p.length) { s with
      nstate := .done
      wire := s.wire ++ nframeWire p
      script := rest
      trace := s.trace ++ [.serWrite (nframeWire p) (.accepted (p.length + 2))] } := by
  simp [sendNFrame, serWrite, writeOut, turn_cons h, elapse_quiet h, Ret.bind, Ret.onRaise, afterNatWrite,
    State.record, WriteOut.count, Ret.orReset, length_nframeWire,
    List.take_of_length_le (Nat.le_of_eq (length_nframeWire p))]

/-- Settles O34: the write is accepted whole in the quiet turn. -/
theorem nframeWritesFrame : Obligations.NframeWritesFrame := by
  intro s p rest h hs
  simp [exec_of_accepts h, closing, body, sendNFrame_quiet hs, Ret.conclude, State.finish, wait_of_accepts h]

end Sys2Proof.Machine
end

section
/-! SUPPORT. What each transaction logs, said once: the arrivals of its turn, then itself. The octets taken from SQ are
those that stood in it or arrived (spec/00_scope.md R14). -/

namespace Sys2Proof.Machine

/-! ## The octets of a log -/

/-- The octets a log took from SQ. -/
abbrev takenOf (xs : List Xact) : List Octet := xs.flatMap Xact.taken

/-- The octets that arrived at SQ. -/
abbrev arrivedOf (xs : List Xact) : List Octet := xs.flatMap Xact.arrived

theorem takenOf_arrivals (os : List Octet) : takenOf (arrivals os) = [] :=
  List.flatMap_eq_nil_iff.2 fun x hx => by rw [mem_arrivals hx]; rfl

theorem arrivedOf_arrivals (os : List Octet) : arrivedOf (arrivals os) = os := by
  unfold arrivals
  split_ifs with h
  · exact h.symm
  · simp [arrivedOf, Xact.arrived]

theorem since_eq {s t : State} {xs : List Xact} (h : t.trace = s.trace ++ xs) : since s t = xs := by
  rw [since, h, List.drop_left]

/-! ## One transaction each -/

/-- What a transaction adds to the log: the arrivals of its turn, then itself. -/
def turnLog (s : State) (x : Xact) : List Xact := arrivals s.turn.rx ++ [x]

@[simp] theorem takenOf_turnLog (s : State) (x : Xact) : takenOf (turnLog s x) = x.taken := by
  simp [turnLog, takenOf, List.flatMap_append, takenOf_arrivals]

@[simp] theorem wireOf_turnLog (s : State) (x : Xact) : wireOf (turnLog s x) = x.written := by
  rw [turnLog, wireOf_append, wireOf_arrivals, List.nil_append]
  exact List.append_nil _

theorem arrivedOf_turnLog (s : State) (x : Xact) : arrivedOf (turnLog s x) = s.turn.rx ++ x.arrived := by
  simp [turnLog, arrivedOf, List.flatMap_append, arrivedOf_arrivals]

theorem serWrite_log (bs : List Octet) (s : State) :
    (serWrite bs s).ends
      (fun out t => t.trace = s.trace ++ turnLog s (.serWrite bs out) ∧ t.sq = s.sq ++ s.turn.rx ∧
        out = writeOut bs s.turn)
      (fun _ _ => False)
      (fun w t => w = .reset ∧ t.trace = s.trace ++ turnLog s (.serWrite bs (writeOut bs s.turn))) := by
  unfold serWrite Ret.orReset
  split_ifs
  · exact ⟨rfl, by simp [turnLog]⟩
  · exact ⟨by simp [turnLog], rfl, rfl⟩

theorem serWait_log (T : Nat) (s : State) :
    (serWait T s).ends
      (fun _ t => t.trace = s.trace ++ turnLog s (.serWait T .ready) ∧ t.sq = s.sq ++ s.turn.rx ∧
        t.sq ≠ [])
      (fun e t => s.sq ++ s.turn.rx = [] ∧ t.sq = [] ∧
        ((e = .timeout ∧ t.trace = s.trace ++ turnLog s (.serWait T .expired)) ∨
          (e = .ioError ∧ t.trace = s.trace ++ turnLog s (.serWait T .fail))))
      (fun w t => w = .reset ∧ ∃ out, t.trace = s.trace ++ turnLog s (.serWait T out)) := by
  unfold serWait serWaitOut Ret.orReset
  split_ifs with hr hq hf hq hf
  · exact ⟨rfl, .ready, by simp [turnLog]⟩
  · exact ⟨rfl, .fail, by simp [turnLog]⟩
  · exact ⟨rfl, .expired, by simp [turnLog]⟩
  · exact ⟨by simp [turnLog], rfl, hq⟩
  · exact ⟨not_not.1 hq, not_not.1 hq, .inr ⟨rfl, by simp [turnLog]⟩⟩
  · exact ⟨not_not.1 hq, not_not.1 hq, .inl ⟨rfl, by simp [turnLog]⟩⟩

theorem serRead_log (m : Nat) (s : State) :
    (serRead m s).ends
      (fun bs t => t.trace = s.trace ++ turnLog s (.serRead m (some bs)) ∧
        s.sq ++ s.turn.rx = bs ++ t.sq ∧ bs.length ≤ m ∧ (s.sq ≠ [] → 0 < m → bs ≠ []))
      (fun e t => e = .ioError ∧ t.trace = s.trace ++ turnLog s (.serRead m none))
      (fun w t => w = .reset ∧ ∃ got, t.trace = s.trace ++ turnLog s (.serRead m got)) := by
  have hends := serRead_ends m s
  have hlog : (serRead m s).ends
      (fun bs t => t.trace = s.trace ++ turnLog s (.serRead m (some bs)))
      (fun _ t => t.trace = s.trace ++ turnLog s (.serRead m none))
      (fun _ t => ∃ got, t.trace = s.trace ++ turnLog s (.serRead m got)) := by
    unfold serRead Ret.orReset
    split_ifs
    · exact ⟨none, by simp [turnLog]⟩
    · exact ⟨some (s.elapse.sq.take (readCount m s.elapse.sq.length s.turn)), by simp [turnLog]⟩
    · simp [turnLog]
    · simp [turnLog]
  refine (hends.and hlog).mono (fun bs t h => ⟨h.2, ?_, h.1.2.2.2, h.1.2.2.1⟩) (fun _ _ h => h) fun _ _ h => h
  obtain ⟨⟨hdrop, htake, -, -⟩, -⟩ := h
  calc s.sq ++ s.turn.rx = (s.sq ++ s.turn.rx).take bs.length ++ (s.sq ++ s.turn.rx).drop bs.length :=
        (List.take_append_drop _ _).symm
    _ = bs ++ t.sq := by rw [← htake, ← hdrop]

/-- The read of one octet where SQ holds one. -/
theorem readOne_log {s : State} (hq : s.sq ≠ []) :
    (readOne s).ends
      (fun o t => t.trace = s.trace ++ turnLog s (.serRead 1 (some [o])) ∧
        s.sq ++ s.turn.rx = o :: t.sq)
      (fun e t => e = .ioError ∧ t.trace = s.trace ++ turnLog s (.serRead 1 none))
      (fun w t => w = .reset ∧ ∃ got, t.trace = s.trace ++ turnLog s (.serRead 1 got)) := by
  rw [readOne, ends_bind]
  refine (serRead_log 1 s).mono (fun bs t h => ?_) (fun _ _ h => h) fun _ _ h => h
  obtain ⟨htr, hsq, hlen, hne⟩ := h
  match bs, htr, hsq, hlen, hne with
  | [], _, _, _, hne => exact absurd rfl (hne hq Nat.one_pos)
  | [_], htr, hsq, _, _ => exact ⟨htr, hsq⟩

theorem serPending_log (s : State) :
    (serPending s).ends
      (fun k t => t.trace = s.trace ++ turnLog s (.serPending k) ∧ t.sq = s.sq ++ s.turn.rx ∧
        k = t.sq.length)
      (fun _ _ => False)
      (fun w t => w = .reset ∧ ∃ k, t.trace = s.trace ++ turnLog s (.serPending k)) := by
  unfold serPending Ret.orReset
  split_ifs
  · exact ⟨rfl, s.elapse.sq.length, by simp [turnLog]⟩
  · exact ⟨by simp [turnLog], rfl, rfl⟩

/-! ## What a log says when a read, or the wait before it, failed -/

/-- The log of a receive that got nothing: its last transaction is the wait that found nothing, or one that failed. -/
def Starved (e : Err) (xs : List Xact) (t : State) : Prop :=
  (e = .timeout ∧ t.sq = [] ∧ ∃ ys T, xs = ys ++ [.serWait T .expired]) ∨
    (e = .ioError ∧ ∃ ys x, xs = ys ++ [x] ∧ (x.readFails = true ∨ ∃ T, x = .serWait T .fail))

theorem Starved.prepend {e : Err} {xs : List Xact} {t : State} (ys : List Xact) (h : Starved e xs t) :
    Starved e (ys ++ xs) t := by
  rcases h with ⟨he, hq, zs, T, rfl⟩ | ⟨he, zs, x, rfl, hx⟩
  · exact .inl ⟨he, hq, ys ++ zs, T, by simp⟩
  · exact .inr ⟨he, ys ++ zs, x, by simp, hx⟩

theorem Starved.of_eq_sq {e : Err} {xs : List Xact} {t u : State} (h : Starved e xs t) (hq : u.sq = t.sq) :
    Starved e xs u := by
  rcases h with ⟨he, hq', hx⟩ | h
  · exact .inl ⟨he, hq.trans hq', hx⟩
  · exact .inr h

/-- RX.RAW takes its octet, or nothing. -/
theorem rxRaw_log (s : State) :
    (rxRaw s).ends
      (fun o t => ∃ xs, t.trace = s.trace ++ xs ∧ takenOf xs = [o])
      (fun e t => ∃ xs, t.trace = s.trace ++ xs ∧ takenOf xs = [] ∧ Starved e xs t)
      (fun w t => w = .reset ∧ ∃ xs, t.trace = s.trace ++ xs) := by
  rw [rxRaw, ends_bind]
  refine (serWait_log _ s).mono (fun _ t h => ?_) (fun e t h => ?_) fun w t h => ⟨h.1, _, h.2.choose_spec⟩
  · obtain ⟨htr, -, hne⟩ := h
    have taken_after (x : Xact) : takenOf (turnLog s (.serWait s.cfg.tOctet .ready) ++ turnLog t x) = x.taken := by
      rw [takenOf, List.flatMap_append, ← takenOf, ← takenOf, takenOf_turnLog, takenOf_turnLog]
      rfl
    refine (readOne_log hne).mono (fun o u h => ?_) (fun e u h => ?_) fun w u h => ?_
    · exact ⟨_, by rw [h.1, htr, List.append_assoc], taken_after _⟩
    · have hstarved : Starved e (turnLog t (.serRead 1 none)) u := .inr ⟨h.1, _, _, rfl, .inl rfl⟩
      exact ⟨_, by rw [h.2, htr, List.append_assoc], taken_after _, hstarved.prepend _⟩
    · obtain ⟨hw, got, hgot⟩ := h
      exact ⟨hw, _, by rw [hgot, htr, List.append_assoc]⟩
  · obtain ⟨-, hq, ⟨he, htr⟩ | ⟨he, htr⟩⟩ := h
    · exact ⟨_, htr, takenOf_turnLog _ _, .inl ⟨he, hq, _, _, rfl⟩⟩
    · exact ⟨_, htr, takenOf_turnLog _ _, .inr ⟨he, _, _, rfl, .inr ⟨_, rfl⟩⟩⟩

/-! ## No octet of SQ is lost where no read fails -/

/-- What stood in SQ and what arrived is what was taken and what is left. -/
def Conserved (s t : State) : Prop :=
  ∃ xs, t.trace = s.trace ++ xs ∧ (readsWork xs → s.sq ++ arrivedOf xs = takenOf xs ++ t.sq)

theorem Conserved.trans (s t u : State) (h : Conserved s t) (h' : Conserved t u) : Conserved s u := by
  obtain ⟨xs, hx, hc⟩ := h
  obtain ⟨ys, hy, hd⟩ := h'
  refine ⟨xs ++ ys, by rw [hy, hx, List.append_assoc], fun hw => ?_⟩
  have h1 := hc fun x hm => hw x (List.mem_append_left _ hm)
  have h2 := hd fun x hm => hw x (List.mem_append_right _ hm)
  simp only [takenOf, arrivedOf, List.flatMap_append] at *
  rw [← List.append_assoc, h1, List.append_assoc, h2, List.append_assoc]

theorem Conserved.since_eq {s t : State} {xs : List Xact} (h : Conserved s t) (htr : t.trace = s.trace ++ xs)
    (hw : readsWork xs) : s.sq ++ arrivedOf xs = takenOf xs ++ t.sq := by
  obtain ⟨ys, hy, hc⟩ := h
  obtain rfl : ys = xs := List.append_cancel_left (hy.symm.trans htr)
  exact hc hw

/-- A step that makes no transaction. -/
theorem Conserved.of_same {s t : State} (htr : t.trace = s.trace) (hq : t.sq = s.sq) : Conserved s t :=
  ⟨[], by simp [htr], fun _ => by simp [hq]⟩

theorem conserved_serWait (T : Nat) (s : State) : (serWait T s).all (Conserved s) := by
  have hlog (out : WaitOut) : Conserved s (s.elapse.record (.serWait T out)) := by
    refine ⟨turnLog s (.serWait T out), by simp [turnLog], fun _ => ?_⟩
    rw [arrivedOf_turnLog, takenOf_turnLog]
    simp [Xact.arrived, Xact.taken]
  refine all_orReset _ ?_
  split <;> exact hlog _

theorem conserved_serRead (m : Nat) (s : State) : (serRead m s).all (Conserved s) := by
  refine all_orReset _ ?_
  split_ifs
  · refine ⟨turnLog s (.serRead m none), by simp [turnLog], fun hw => ?_⟩
    cases hw (.serRead m none) (by simp [turnLog])
  · refine ⟨turnLog s (.serRead m (some (s.elapse.sq.take (readCount m s.elapse.sq.length s.turn)))),
      by simp [turnLog], fun _ => ?_⟩
    rw [arrivedOf_turnLog, takenOf_turnLog]
    simp [Xact.arrived, Xact.taken]

theorem conserved_rxRaw (s : State) : (rxRaw s).all (Conserved s) :=
  Ret.all.bind Conserved.trans (conserved_serWait _ s) fun _ t _ =>
    Ret.all.bind Conserved.trans (conserved_serRead 1 t) fun bs u _ => by
      split <;> exact .of_same rfl rfl

/-! ## The premise `Script` (R17) -/

theorem script_cons {os : List Octet} {x : Xact} {xs : List Xact} (h : Script os (x :: xs)) :
    x.arrived <+: os ∧ Script (os.drop x.arrived.length) xs ∧
      ∀ T out, x = .serWait T out → out = .ready ∨ (out = .expired ∧ os = []) := by
  cases x <;> simp_all [Script, scriptFrom, Xact.arrived]

/-- What has arrived is an initial part of the script. -/
theorem arrivedOf_prefix_of_script {os : List Octet} {xs : List Xact} (h : Script os xs) : arrivedOf xs <+: os := by
  induction xs generalizing os with
  | nil => exact List.nil_prefix
  | cons x xs ih =>
    obtain ⟨⟨r, rfl⟩, htail, -⟩ := script_cons h
    rw [List.drop_left] at htail
    simpa [arrivedOf] using ih htail

/-- A wait that found nothing found the script used up. -/
theorem serWait_of_script {os : List Octet} {xs : List Xact} {T : Nat} {out : WaitOut}
    (h : Script os (xs ++ [.serWait T out])) : out = .ready ∨ (out = .expired ∧ arrivedOf xs = os) := by
  induction xs generalizing os with
  | nil =>
    obtain ⟨-, -, hwait⟩ := script_cons h
    exact (hwait T out rfl).imp id fun hout => ⟨hout.1, hout.2.symm⟩
  | cons x xs ih =>
    obtain ⟨⟨r, rfl⟩, htail, -⟩ := script_cons h
    rw [List.drop_left] at htail
    exact (ih htail).imp id fun hout => ⟨hout.1, by simp [arrivedOf] at hout ⊢; exact hout.2⟩

end Sys2Proof.Machine
end

section
/-! SUPPORT. DEC.FRAME against the reference decoder (spec/42_emulated_codec.md section 2, 95_test_vectors.md Part 4): one
octet at a time, then the loop, under any environment and under quiet turns. -/

namespace Sys2Proof.Machine

/-! ## The reference decoder -/

/-- It only appends to what it has stored. -/
theorem refDecode_stored_le (c : Config) (st : List Octet) (esc : Bool) (os : List Octet) :
    st.length ≤ (refDecode c st esc os).2.1.length := by
  induction os generalizing st esc with
  | nil => cases esc <;> exact Nat.le_refl _
  | cons o os ih =>
    have happ : st.length ≤ (refDecode c (st ++ [o]) false os).2.1.length :=
      (by simp : st.length ≤ (st ++ [o]).length).trans (ih _ _)
    cases esc with
    | true =>
      rw [refDecode]
      split_ifs
      · exact Nat.le_refl _
      · exact happ
    | false =>
      rw [refDecode]
      split_ifs
      · exact ih st true
      · exact Nat.le_refl _
      · exact Nat.le_refl _
      · exact Nat.le_refl _
      · exact happ

theorem refDecode_nil (c : Config) (st : List Octet) (esc : Bool) :
    refDecode c st esc [] = (.err .timeout, st, []) := by cases esc <;> rfl

/-- The equation of an octet that is not escaped. -/
theorem refDecode_plain (c : Config) (st : List Octet) (o : Octet) (os : List Octet) :
    refDecode c st false (o :: os) =
      if o = c.escOctet then refDecode c st true os
      else if o = c.endOctet then
        (if 2 ≤ st.length ∧ crcFold c st = 0 then .ok (.num (st.length - 2)) else .err .frameCorrupt, st, os)
      else if st.length = c.rxbufCap then (.err .bufferExceeded, st, os)
      else refDecode c (st ++ [o]) false os := by rw [refDecode]

theorem refDecode_left_le (c : Config) (st : List Octet) (esc : Bool) (os : List Octet) :
    (refDecode c st esc os).2.2.length ≤ os.length := by
  induction os generalizing st esc with
  | nil => rw [refDecode_nil]
  | cons o os ih =>
    have hcons : os.length ≤ (o :: os).length := Nat.le_succ _
    cases esc with
    | true =>
      rw [refDecode]
      split_ifs
      · exact hcons
      · exact (ih _ _).trans hcons
    | false =>
      rw [refDecode]
      split_ifs
      · exact (ih _ _).trans hcons
      · exact hcons
      · exact hcons
      · exact hcons
      · exact (ih _ _).trans hcons

theorem refDecode_cons_left_le (c : Config) (st : List Octet) (esc : Bool) (o : Octet) (os : List Octet) :
    (refDecode c st esc (o :: os)).2.2.length ≤ os.length := by
  cases esc with
  | true =>
    rw [refDecode]
    split_ifs
    · exact Nat.le_refl _
    · exact refDecode_left_le _ _ _ _
  | false =>
    rw [refDecode]
    split_ifs
    · exact refDecode_left_le _ _ _ _
    · exact Nat.le_refl _
    · exact Nat.le_refl _
    · exact Nat.le_refl _
    · exact refDecode_left_le _ _ _ _

/-- The stuffed form of one octet is read back where the buffer has room. -/
theorem refDecode_stuff {c : Config} {st : List Octet} (hroom : st.length < c.rxbufCap) (b : Octet)
    (os : List Octet) : refDecode c st false (stuff c b ++ os) = refDecode c (st ++ [b]) false os := by
  have hne : st.length ≠ c.rxbufCap := Nat.ne_of_lt hroom
  unfold stuff
  split_ifs with hb
  · simp [refDecode, hne]
  · rw [needsEsc_iff, not_or] at hb
    simp [refDecode, hb.1, hb.2, hne]

theorem refDecode_flatMap_stuff {c : Config} {st l : List Octet} (hroom : st.length + l.length ≤ c.rxbufCap)
    (os : List Octet) : refDecode c st false (l.flatMap (stuff c) ++ os) = refDecode c (st ++ l) false os := by
  induction l generalizing st with
  | nil => simp
  | cons b l ih =>
    rw [List.length_cons] at hroom
    rw [List.flatMap_cons, List.append_assoc, refDecode_stuff (by omega), ih (by simp; omega)]
    simp

/-- What a receiver makes of the frame of `p`, whatever follows it (R173). -/
theorem refDecode_eframeWire {c : Config} (hok : c.ok) (hN : c.crcWidth = 16) {p : List Octet}
    (hp : p.length ≤ c.mtu) (tail : List Octet) :
    (frameAccepted c p → refDecode c [] false (eframeWire c p ++ tail) =
      (.ok (.num p.length), frameOctets p (crcFold c p), tail)) ∧
    (¬ frameAccepted c p → refDecode c [] false (eframeWire c p ++ tail) =
      (.err .frameCorrupt, frameOctets p (crcFold c p), tail)) := by
  obtain ⟨-, hcap, -, hne⟩ := hok
  have hlen := length_frameOctets p (crcFold c p)
  have hroom : ([] : List Octet).length + (frameOctets p (crcFold c p)).length ≤ c.rxbufCap := by
    rw [hlen, hcap, List.length_nil]
    omega
  have hbody : refDecode c [] false (eframeWire c p ++ tail) =
      refDecode c (frameOctets p (crcFold c p)) false (c.endOctet :: tail) := by
    rw [eframeWire, List.append_assoc, refDecode_flatMap_stuff hroom]
    rfl
  have hcrc := crcFold_frameOctets_eq_zero_iff hN p
  rw [hbody, refDecode, if_neg hne, if_pos rfl, hlen, Nat.add_sub_cancel]
  exact ⟨fun h => by rw [if_pos ⟨by omega, hcrc.2 h⟩], fun h => by rw [if_neg fun hh => h (hcrc.1 hh.2)]⟩

/-! ## The registers of the decoder -/

/-- The buffer `m` holds `st` in its first indices and is `m0` beyond them. -/
structure Holds (m0 : Memory) (st : List Octet) (m : Memory) : Prop where
  beyond : agreeOutside m0 m (· < st.length)
  stored : Memory.wf m0 → Memory.wf m ∧ Memory.prefixOf m st.length = st

theorem Holds.start (m : Memory) : Holds m [] m := ⟨fun _ _ => rfl, fun h => ⟨h, rfl⟩⟩

theorem Holds.write {m0 m : Memory} {st : List Octet} (h : Holds m0 st m) (o : Octet) :
    Holds m0 (st ++ [o]) (Memory.write m st.length o) := by
  refine ⟨fun a ha => ?_, fun hwf => ?_⟩
  · rw [List.length_append, List.length_singleton, Nat.not_lt] at ha
    rw [Memory.read_write_ne _ _ _ (by omega)]
    exact h.beyond a (by omega)
  · obtain ⟨hm, hst⟩ := h.stored hwf
    refine ⟨Memory.wf_write _ _ hm, ?_⟩
    rw [List.length_append, List.length_singleton, Memory.prefixOf_write hm, hst]

theorem Holds.agree {m0 m : Memory} {st : List Octet} (h : Holds m0 st m) {n : Nat} (hn : st.length ≤ n) :
    agreeOutside m0 m (· < n) := fun a ha => h.beyond a (by omega)

/-- The decoder has stored `st` of the frame it reads, and `esc` says whether the last octet was an unescaped ESC. -/
structure DecAt (m0 : Memory) (st : List Octet) (esc : Bool) (s : State) : Prop where
  holds : Holds m0 st s.rxbuf
  count : s.rxcnt = st.length
  fold : s.acc = crcFold s.cfg st
  fits : st.length ≤ s.cfg.rxbufCap
  dstate : s.dstate = if esc then .escaped else .awaitOctet

theorem decAt_decStart (s : State) : DecAt s.rxbuf [] false (decStart s) :=
  ⟨Holds.start _, rfl, rfl, Nat.zero_le _, rfl⟩

/-- How many octets the decoder can still read before it ends (R302). -/
def readsLeft (c : Config) (st : List Octet) (esc : Bool) : Nat :=
  2 * (c.rxbufCap - st.length) + if esc then 1 else 2

theorem readsLeft_pos (c : Config) (st : List Octet) (esc : Bool) : 0 < readsLeft c st esc := by
  cases esc <;> simp [readsLeft]

/-- The parameters and the channels are the same. -/
abbrev sameChannels (s t : State) : Prop := t.cfg = s.cfg ∧ t.trace = s.trace ∧ t.sq = s.sq ∧ t.script = s.script

/-! ## One octet -/

/-- What the decoder's loop does with an octet it has read (R162): go on, or end with the payload's length. -/
def decTake (o : Octet) (s : State) : Ret (Option Nat) :=
  if s.dstate = .escaped then (symLit o s).bind fun _ t => .done none t
  else if o = s.cfg.escOctet then .done none (symEsc s)
  else if o = s.cfg.endOctet then (symEnd s).bind fun k t => .done (some k) t
  else (symData o s).bind fun _ t => .done none t

theorem decLoop_succ (n : Nat) (s : State) :
    decLoop (n + 1) s = ((rxRaw s).onRaise decAbort).bind fun o t =>
      (decTake o t).bind fun r u => r.elim (decLoop n u) fun k => .done k u := by
  have hstore (r : Ret Unit) : (r.bind fun _ u => decLoop n u) =
      (r.bind fun _ u => .done none u).bind fun r u => r.elim (decLoop n u) fun k => .done k u := by
    cases r <;> rfl
  have hend (r : Ret Nat) : r =
      (r.bind fun k u => .done (some k) u).bind fun r u => r.elim (decLoop n u) fun k => .done k u := by
    cases r <;> rfl
  rw [decLoop]
  congr 1
  funext o t
  unfold decTake
  split_ifs
  · exact hstore _
  · rfl
  · exact hend _
  · exact hstore _

/-- Where the octet `o` leaves a decoder that goes on or has its frame, as the reference has it. -/
def Takes (m0 : Memory) (st : List Octet) (esc : Bool) (o : Octet) (c : Config) : Option Nat → State → Prop
  | none, t => ∃ st' esc', DecAt m0 st' esc' t ∧ readsLeft c st' esc' < readsLeft c st esc ∧
      ∀ os, refDecode c st esc (o :: os) = refDecode c st' esc' os
  | some k, t => Holds m0 st t.rxbuf ∧ t.rxcnt = st.length ∧ t.dstate = .done ∧ t.acc = 0 ∧
      ∀ os, refDecode c st esc (o :: os) = (.ok (.num k), st, os)

/-- A store follows the reference: one octet more, or the overflow. -/
theorem storeOctet_takes {m0 : Memory} {st : List Octet} {esc : Bool} {s : State} (o : Octet)
    (h : DecAt m0 st false s)
    (href : ∀ os, refDecode s.cfg st esc (o :: os) =
      if st.length = s.cfg.rxbufCap then (.err .bufferExceeded, st, os) else refDecode s.cfg (st ++ [o]) false os) :
    ((storeOctet o s).bind fun _ t => .done none t).ends
      (fun r t => sameChannels s t ∧ Takes m0 st esc o s.cfg r t)
      (fun e t => sameChannels s t ∧ Holds m0 st t.rxbuf ∧ t.rxcnt = 0 ∧ t.dstate = .failed ∧ e ≠ .timeout ∧
        ∀ os, refDecode s.cfg st esc (o :: os) = (.err e, st, os))
      (fun _ _ => False) := by
  by_cases hfull : st.length = s.cfg.rxbufCap
  · rw [storeOctet_of_full (h.count.trans hfull)]
    exact ⟨⟨rfl, rfl, rfl, rfl⟩, h.holds, rfl, rfl, by decide, fun os => by rw [href, if_pos hfull]⟩
  · rw [storeOctet_of_ne (fun hh => hfull (h.count.symm.trans hh))]
    have hlt : st.length < s.cfg.rxbufCap := Nat.lt_of_le_of_ne h.fits hfull
    have hleft : readsLeft s.cfg (st ++ [o]) false < readsLeft s.cfg st esc := by
      simp only [readsLeft, List.length_append, List.length_singleton]
      cases esc <;> simp <;> omega
    refine ⟨⟨rfl, rfl, rfl, rfl⟩, st ++ [o], false, ⟨?_, ?_, ?_, ?_, h.dstate⟩, hleft,
      fun os => by rw [href, if_neg hfull]⟩
    · show Holds m0 (st ++ [o]) (Memory.write s.rxbuf s.rxcnt o)
      rw [h.count]
      exact h.holds.write o
    · simp [h.count]
    · show accUpdate s.cfg s.acc o = crcFold s.cfg (st ++ [o])
      rw [crcFold_snoc, h.fold]
    · simpa using hlt

/-- One octet takes the decoder where it takes the reference. -/
theorem decTake_takes {m0 : Memory} {st : List Octet} {esc : Bool} {s : State} (h : DecAt m0 st esc s) (o : Octet) :
    (decTake o s).ends
      (fun r t => sameChannels s t ∧ Takes m0 st esc o s.cfg r t)
      (fun e t => sameChannels s t ∧ Holds m0 st t.rxbuf ∧ t.rxcnt = 0 ∧ t.dstate = .failed ∧ e ≠ .timeout ∧
        ∀ os, refDecode s.cfg st esc (o :: os) = (.err e, st, os))
      (fun _ _ => False) := by
  unfold decTake
  cases esc with
  | true =>
    rw [if_pos (show s.dstate = .escaped from h.dstate)]
    exact storeOctet_takes (s := { s with dstate := .awaitOctet }) o ⟨h.holds, h.count, h.fold, h.fits, rfl⟩
      fun _ => rfl
  | false =>
    have hd : s.dstate ≠ .escaped := by rw [h.dstate]; decide
    rw [if_neg hd]
    split_ifs with hesc hend
    · refine ⟨⟨rfl, rfl, rfl, rfl⟩, st, true, ⟨h.holds, h.count, h.fold, h.fits, rfl⟩, by simp [readsLeft],
        fun os => ?_⟩
      rw [refDecode, if_pos hesc]
    · have href := refDecode_plain s.cfg st o
      by_cases hacc : 2 ≤ s.rxcnt ∧ s.acc = 0
      · rw [symEnd_of_accepts hacc]
        refine ⟨⟨rfl, rfl, rfl, rfl⟩, h.holds, h.count, rfl, hacc.2, fun os => ?_⟩
        rw [href, if_neg hesc, if_pos hend, ← h.fold, ← h.count, if_pos hacc]
      · rw [symEnd_of_not hacc]
        refine ⟨⟨rfl, rfl, rfl, rfl⟩, h.holds, rfl, rfl, by decide, fun os => ?_⟩
        rw [href, if_neg hesc, if_pos hend, ← h.fold, ← h.count, if_neg hacc]
    · exact storeOctet_takes o h fun os => by rw [refDecode, if_neg hesc, if_neg hend]

/-- RX.RAW leaves the decoder where it is. -/
theorem rxRaw_decAt {m0 : Memory} {st : List Octet} {esc : Bool} {s : State} (h : DecAt m0 st esc s) :
    (rxRaw s).all fun t => DecAt m0 st esc t ∧ t.cfg = s.cfg := by
  refine (ran_rxRaw s).mono fun t ht => ?_
  rw [ht.frame]
  exact ⟨⟨h.holds, h.count, h.fold, h.fits, h.dstate⟩, rfl⟩

/-! ## The bound of the loop -/

/-- Octets allowed beyond those the decoder can still read change nothing. -/
theorem decLoop_add {m0 : Memory} {st : List Octet} {esc : Bool} {s : State} {n : Nat} (h : DecAt m0 st esc s)
    (hn : readsLeft s.cfg st esc ≤ n) (k : Nat) : decLoop (n + k) s = decLoop n s := by
  induction n generalizing s st esc with
  | zero => exact absurd (readsLeft_pos s.cfg st esc) (by omega)
  | succ n ih =>
    rw [Nat.succ_add, decLoop_succ, decLoop_succ]
    have hat := rxRaw_decAt h
    cases hr : rxRaw s with
    | raised e t => rfl
    | waiting w t => rfl
    | done o t =>
      rw [hr] at hat
      obtain ⟨ht, hc⟩ : DecAt m0 st esc t ∧ t.cfg = s.cfg := hat
      have htake := decTake_takes ht o
      simp only [Ret.onRaise, Ret.bind]
      cases hd : decTake o t with
      | raised e u => rfl
      | waiting w u => rfl
      | done r u =>
        rw [hd] at htake
        obtain ⟨hsame, hr⟩ : sameChannels t u ∧ Takes m0 st esc o t.cfg r u := htake
        cases r with
        | some k => rfl
        | none =>
          obtain ⟨st', esc', hu, hlt, -⟩ := hr
          rw [← hc] at hn
          rw [← hsame.1] at hlt hn
          exact ih hu (by omega)

/-- Settles O24: from the start step 2 * RXBUF_CAP + 2 octets are as many as can be read. -/
theorem decFrameEndsWithinBound : Obligations.DecFrameEndsWithinBound := fun s k =>
  decLoop_add (decAt_decStart s) (by simp [readsLeft, decStart]) k

/-! ## The loop under any environment -/

/-- How the decoder's loop ends: as the reference does with the octets it took, or starved, where the reference wants
more octets. -/
theorem decLoop_refines {m0 : Memory} {st : List Octet} {esc : Bool} {s : State} {n : Nat} (h : DecAt m0 st esc s)
    (hn : readsLeft s.cfg st esc ≤ n) :
    (decLoop n s).ends
      (fun k t => ∃ xs st', t.trace = s.trace ++ xs ∧ Holds m0 st' t.rxbuf ∧ t.rxcnt = st'.length ∧
        ∀ os, refDecode s.cfg st esc (takenOf xs ++ os) = (.ok (.num k), st', os))
      (fun e t => ∃ xs st', t.trace = s.trace ++ xs ∧ Holds m0 st' t.rxbuf ∧
        ((∀ os, refDecode s.cfg st esc (takenOf xs ++ os) = (.err e, st', os)) ∨
          (refDecode s.cfg st esc (takenOf xs) = (.err .timeout, st', []) ∧ Starved e xs t)))
      (fun _ t => ∃ xs st', t.trace = s.trace ++ xs ∧ Holds m0 st' t.rxbuf ∧
        st'.length ≤ (refDecode s.cfg st esc (takenOf xs)).2.1.length) := by
  induction n generalizing s st esc with
  | zero => exact absurd (readsLeft_pos s.cfg st esc) (by omega)
  | succ n ih =>
    rw [decLoop_succ, ends_bind, ends_onRaise]
    refine ((rxRaw_log s).and (rxRaw_decAt h)).mono (fun o t ht => ?_) (fun e t ht => ?_) fun w t ht => ?_
    · obtain ⟨⟨xs, htr, htk⟩, hat, hc⟩ := ht
      rw [ends_bind]
      refine (decTake_takes hat o).mono (fun r u hu => ?_) (fun e u hu => ?_) fun _ _ hu => hu.elim
      · obtain ⟨⟨hcfg, htrace, -, -⟩, htakes⟩ := hu
        have htru : u.trace = s.trace ++ xs := htrace.trans htr
        rw [hc] at htakes hcfg
        cases r with
        | some k =>
          obtain ⟨hholds, hcnt, -, -, href⟩ := htakes
          exact ⟨xs, st, htru, hholds, hcnt, fun os => by rw [htk]; exact href os⟩
        | none =>
          obtain ⟨st', esc', hu, hlt, href⟩ := htakes
          have happ (ys os : List Octet) : refDecode s.cfg st esc (takenOf xs ++ ys ++ os) =
              refDecode s.cfg st' esc' (ys ++ os) := by
            rw [htk, List.append_assoc]
            exact href _
          have hrec := ih hu (by rw [hcfg]; omega)
          rw [hcfg] at hrec
          refine hrec.mono (fun k v hv => ?_) (fun e v hv => ?_) fun w v hv => ?_
          · obtain ⟨ys, st2, hy, hh, hcnt, hr⟩ := hv
            refine ⟨xs ++ ys, st2, by rw [hy, htru, List.append_assoc], hh, hcnt, fun os => ?_⟩
            rw [takenOf, List.flatMap_append, happ]
            exact hr os
          · obtain ⟨ys, st2, hy, hh, hr⟩ := hv
            refine ⟨xs ++ ys, st2, by rw [hy, htru, List.append_assoc], hh, ?_⟩
            refine hr.imp (fun hr os => ?_) fun hr => ⟨?_, hr.2.prepend xs⟩
            · rw [takenOf, List.flatMap_append, happ]
              exact hr os
            · rw [takenOf, List.flatMap_append, ← List.append_nil (List.flatMap _ ys), ← List.append_assoc, happ,
                List.append_nil]
              exact hr.1
          · obtain ⟨ys, st2, hy, hh, hr⟩ := hv
            refine ⟨xs ++ ys, st2, by rw [hy, htru, List.append_assoc], hh, ?_⟩
            rw [takenOf, List.flatMap_append, ← List.append_nil (List.flatMap _ ys), ← List.append_assoc, happ,
              List.append_nil]
            exact hr
      · obtain ⟨⟨-, htrace, -, -⟩, hholds, -, -, -, href⟩ := hu
        rw [hc] at href
        exact ⟨xs, st, htrace.trans htr, hholds, .inl fun os => by rw [htk]; exact href os⟩
    · obtain ⟨⟨xs, htr, htk, hst⟩, hat, -⟩ := ht
      exact ⟨xs, st, htr, hat.holds, .inr ⟨by rw [htk, refDecode_nil], hst.of_eq_sq rfl⟩⟩
    · obtain ⟨⟨-, xs, htr⟩, hat, -⟩ := ht
      exact ⟨xs, st, htr, hat.holds, refDecode_stored_le _ _ _ _⟩

/-- DEC.FRAME from its start step. -/
theorem decFrame_refines (s : State) :
    (decFrame s).ends
      (fun k t => ∃ xs st', t.trace = s.trace ++ xs ∧ Holds s.rxbuf st' t.rxbuf ∧ t.rxcnt = st'.length ∧
        ∀ os, refDecode s.cfg [] false (takenOf xs ++ os) = (.ok (.num k), st', os))
      (fun e t => ∃ xs st', t.trace = s.trace ++ xs ∧ Holds s.rxbuf st' t.rxbuf ∧
        ((∀ os, refDecode s.cfg [] false (takenOf xs ++ os) = (.err e, st', os)) ∨
          (refDecode s.cfg [] false (takenOf xs) = (.err .timeout, st', []) ∧ Starved e xs t)))
      (fun _ t => ∃ xs st', t.trace = s.trace ++ xs ∧ Holds s.rxbuf st' t.rxbuf ∧
        st'.length ≤ (refDecode s.cfg [] false (takenOf xs)).2.1.length) :=
  decLoop_refines (decAt_decStart s) (by simp [readsLeft, decStart])

/-- DEC.FRAME changes no octet of RXBUF but those the reference stores. -/
theorem decFrame_agree (s : State) :
    (decFrame s).all fun t => agreeOutside s.rxbuf t.rxbuf (· < storedBy s.cfg (since s t)) := by
  refine (decFrame_refines s).mono (fun k t ht => ?_) (fun e t ht => ?_) fun w t ht => ?_
  · obtain ⟨xs, st, htr, hh, -, href⟩ := ht
    have hr := href []
    rw [List.append_nil] at hr
    rw [since_eq htr]
    exact hh.agree (Nat.le_of_eq (by rw [storedBy, hr]))
  · obtain ⟨xs, st, htr, hh, href⟩ := ht
    have hstored : (refDecode s.cfg [] false (takenOf xs)).2.1 = st := by
      rcases href with hr | hr
      · have hr := hr []
        rw [List.append_nil] at hr
        rw [hr]
      · rw [hr.1]
    rw [since_eq htr]
    exact hh.agree (Nat.le_of_eq (by rw [storedBy, hstored]))
  · obtain ⟨xs, st, htr, hh, hle⟩ := ht
    rw [since_eq htr]
    exact hh.agree hle

/-! ## The loop under quiet turns -/

/-- A quiet RX.RAW takes the oldest octet. -/
theorem rxRaw_quiet {s : State} {o : Octet} {q : List Octet} {ts : List Turn} (hq : s.sq = o :: q)
    (h : s.script = {} :: {} :: ts) :
    rxRaw s = .done o { s with
      sq := q, script := ts, trace := s.trace ++ [.serWait s.cfg.tOctet .ready, .serRead 1 (some [o])] } := by
  simp [rxRaw, serWait, serWaitOut, readOne, serRead, readCount, State.elapse, State.turn, h, hq, Ret.bind, Ret.orReset,
    State.record]

/-- A quiet RX.RAW with nothing to read. -/
theorem rxRaw_quiet_empty {s : State} {ts : List Turn} (hq : s.sq = []) (h : s.script = {} :: ts) :
    rxRaw s = .raised .timeout { s with
      script := ts, trace := s.trace ++ [.serWait s.cfg.tOctet .expired] } := by
  simp [rxRaw, serWait, serWaitOut, State.elapse, State.turn, h, hq, Ret.bind, Ret.orReset, State.record]

/-- The turns a decode of `os` takes: two for each octet it consumes, and one for the wait that finds none. -/
def decTurns (r : Result × List Octet × List Octet) (os : List Octet) : Nat :=
  2 * (os.length - r.2.2.length) + if r.1 = .err .timeout then 1 else 0

theorem decTurns_cons {r : Result × List Octet × List Octet} {os : List Octet} (h : r.2.2.length ≤ os.length)
    (o : Octet) : decTurns r (o :: os) = decTurns r os + 2 := by
  rw [decTurns, decTurns, List.length_cons]
  omega

theorem decTurns_self {res : Result} (st os : List Octet) (h : res ≠ .err .timeout) :
    decTurns (res, st, os) os = 0 := by simp [decTurns, h]

/-- Under quiet turns the loop ends as the reference does with what is in SQ, and leaves what it leaves. -/
theorem decLoop_quiet {m0 : Memory} {st : List Octet} {esc : Bool} {s : State} {n : Nat} {os : List Octet}
    {rest : List Turn} (h : DecAt m0 st esc s) (hn : readsLeft s.cfg st esc ≤ n) (hq : s.sq = os)
    (hs : s.script = quiet (decTurns (refDecode s.cfg st esc os) os) ++ rest) :
    (decLoop n s).ends
      (fun k t => t.sq = (refDecode s.cfg st esc os).2.2 ∧ t.script = rest ∧
        (refDecode s.cfg st esc os).1 = .ok (.num k) ∧ Holds m0 (refDecode s.cfg st esc os).2.1 t.rxbuf ∧
        t.rxcnt = (refDecode s.cfg st esc os).2.1.length ∧ t.dstate = .done ∧ t.acc = 0)
      (fun e t => t.sq = (refDecode s.cfg st esc os).2.2 ∧ t.script = rest ∧
        (refDecode s.cfg st esc os).1 = .err e ∧ Holds m0 (refDecode s.cfg st esc os).2.1 t.rxbuf ∧
        t.rxcnt = 0 ∧ t.dstate = .failed)
      (fun _ _ => False) := by
  induction n generalizing s st esc os with
  | zero => exact absurd (readsLeft_pos s.cfg st esc) (by omega)
  | succ n ih =>
    rw [decLoop_succ, ends_bind, ends_onRaise]
    cases os with
    | nil =>
      rw [refDecode_nil] at hs ⊢
      rw [rxRaw_quiet_empty hq (ts := rest) hs]
      exact ⟨hq, rfl, rfl, h.holds, rfl, rfl⟩
    | cons o os =>
      rw [decTurns_cons (refDecode_cons_left_le _ _ _ _ _), quiet, List.replicate_succ, List.replicate_succ] at hs
      rw [rxRaw_quiet hq hs]
      set t : State := { s with
        sq := os
        script := List.replicate (decTurns (refDecode s.cfg st esc (o :: os)) os) {} ++ rest
        trace := s.trace ++ [.serWait s.cfg.tOctet .ready, .serRead 1 (some [o])] } with ht
      have hat : DecAt m0 st esc t := ⟨h.holds, h.count, h.fold, h.fits, h.dstate⟩
      rw [ends_done, ends_bind]
      refine (decTake_takes hat o).mono (fun r u hu => ?_) (fun e u hu => ?_) fun _ _ hu => hu.elim
      · obtain ⟨⟨hcfg, -, hsq, hscr⟩, htakes⟩ := hu
        cases r with
        | some k =>
          obtain ⟨hholds, hcnt, hds, hacc, href⟩ := htakes
          rw [show refDecode s.cfg st esc (o :: os) = _ from href os] at ht ⊢
          rw [decTurns_self _ _ (by simp)] at ht
          exact ⟨hsq, hscr.trans (by rw [ht]; rfl), rfl, hholds, hcnt, hds, hacc⟩
        | none =>
          obtain ⟨st', esc', hu, hlt, href⟩ := htakes
          rw [show refDecode s.cfg st esc (o :: os) = _ from href os] at ht ⊢
          have hrec := ih hu (by rw [hcfg]; exact Nat.lt_succ_iff.1 (hlt.trans_le hn)) hsq
            (by rw [hcfg, hscr, ht, quiet])
          rwa [hcfg] at hrec
      · obtain ⟨⟨-, -, hsq, hscr⟩, hholds, hcnt, hds, hne, href⟩ := hu
        rw [show refDecode s.cfg st esc (o :: os) = _ from href os] at ht ⊢
        rw [decTurns_self _ _ (by simpa using hne)] at ht
        exact ⟨hsq, hscr.trans (by rw [ht]; rfl), rfl, hholds, hcnt, hds⟩

/-- DEC.FRAME under quiet turns. -/
theorem decFrame_quiet {s : State} {rest : List Turn}
    (hs : s.script = quiet (decTurns (refDecode s.cfg [] false s.sq) s.sq) ++ rest) :
    (decFrame s).ends
      (fun k t => t.sq = (refDecode s.cfg [] false s.sq).2.2 ∧ t.script = rest ∧
        (refDecode s.cfg [] false s.sq).1 = .ok (.num k) ∧
        Holds s.rxbuf (refDecode s.cfg [] false s.sq).2.1 t.rxbuf ∧
        t.rxcnt = (refDecode s.cfg [] false s.sq).2.1.length ∧ t.dstate = .done ∧ t.acc = 0)
      (fun e t => t.sq = (refDecode s.cfg [] false s.sq).2.2 ∧ t.script = rest ∧
        (refDecode s.cfg [] false s.sq).1 = .err e ∧ Holds s.rxbuf (refDecode s.cfg [] false s.sq).2.1 t.rxbuf ∧
        t.rxcnt = 0 ∧ t.dstate = .failed)
      (fun _ _ => False) :=
  decLoop_quiet (decAt_decStart s) (by simp [readsLeft, decStart]) rfl hs

end Sys2Proof.Machine
end

section
/-! SUPPORT. The frame of an operation that has closed: what its pieces may write, RESULT, and what is left in progress.
Each instruction's frame, and the obligations about what instructions leave alone (spec/60_exceptions.md R258). -/

namespace Sys2Proof.Machine

/-! ## Closed operations -/

/-- A frame function that takes RESULT from the later state and the operation in progress from the earlier one. -/
structure EndFn (f : State → State → State) : Prop extends FrameFn f where
  refl : ∀ s, f s s = s
  result : ∀ s t r w, f s { t with result := r, wait := w } = { f s t with result := r }

/-- `t` is an operation's end: like `Ran`, but for the operation left in progress. -/
structure Left (f : State → State → State) (K : Xact → Prop) (s t : State) : Prop where
  frame : t = { f s t with wait := t.wait }
  logged : ∃ xs, t.trace = s.trace ++ xs ∧ t.wire = s.wire ++ wireOf xs ∧ ∀ x ∈ xs, K x
  net : (∀ p ∈ s.netIn, p.length ≤ s.cfg.mtu) → ∀ p ∈ t.netIn, p.length ≤ s.cfg.mtu

theorem endFn_withChannels : EndFn State.withChannels := ⟨frameFn_withChannels, fun _ => rfl, fun _ _ _ _ => rfl⟩
theorem endFn_withTx : EndFn State.withTx := ⟨frameFn_withTx, fun _ => rfl, fun _ _ _ _ => rfl⟩
theorem endFn_withEnc : EndFn State.withEnc := ⟨frameFn_withEnc, fun _ => rfl, fun _ _ _ _ => rfl⟩
theorem endFn_withDec : EndFn State.withDec := ⟨frameFn_withDec, fun _ => rfl, fun _ _ _ _ => rfl⟩
theorem endFn_withRead : EndFn State.withRead := ⟨frameFn_withRead, fun _ => rfl, fun _ _ _ _ => rfl⟩
theorem endFn_withNatRx : EndFn State.withNatRx := ⟨frameFn_withNatRx, fun _ => rfl, fun _ _ _ _ => rfl⟩
theorem endFn_withNatTx : EndFn State.withNatTx := ⟨frameFn_withNatTx, fun _ => rfl, fun _ _ _ _ => rfl⟩
theorem endFn_withTap : EndFn State.withTap := ⟨frameFn_withTap, fun _ => rfl, fun _ _ _ _ => rfl⟩
theorem endFn_withBridge : EndFn State.withBridge := ⟨frameFn_withBridge, fun _ => rfl, fun _ _ _ _ => rfl⟩

section frames

variable {f : State → State → State} {K : Xact → Prop} {s t : State}

/-- Writing RESULT and what is left in progress closes a piece. -/
theorem Ran.left (hf : EndFn f) (h : Ran f K s t) (r : Result) (w : Option Wait) :
    Left f K s { t with result := r, wait := w } := by
  refine ⟨?_, h.logged, h.net⟩
  rw [hf.result]
  exact congrArg (fun x : State => { x with result := r, wait := w }) h.frame

theorem left_conclude {r : Ret Value} (hf : EndFn f) (h : r.all (Ran f K s)) : Left f K s r.conclude := by
  cases r with
  | done v t => exact h.left hf _ _
  | raised e t => exact h.left hf _ _
  | waiting w t => exact h.left hf t.result _

theorem left_concludeInner {r : Ret Value} (hf : EndFn f) (h : r.all (Ran f K s)) : Left f K s r.concludeInner := by
  cases r with
  | done v t => exact h.left hf t.result t.wait
  | raised e t => exact h.left hf _ _
  | waiting w t => exact h.left hf t.result _

theorem left_refuse (hf : EndFn f) (s : State) : Left f K s s.refuse :=
  (Ran.refl hf.refl s : Ran f K s s).left hf (.err .ioError) s.wait

theorem left_closing {i : Instr} {r : Ret Value} (hi : i ≠ .brgStep) (hf : EndFn f) (h : r.all (Ran f K s)) :
    Left f K s (closing i r) := by
  unfold closing
  split
  next => exact absurd rfl hi
  next => exact left_concludeInner hf h
  next => exact left_concludeInner hf h
  next => exact left_concludeInner hf h
  next => exact left_conclude hf h

/-- The frame of an instruction is that of its body. -/
theorem left_of_exec {i : Instr} (h : exec i s = .next t) (hi : i ≠ .brgStep) (hf : EndFn f)
    (hb : (body i s).all (Ran f K s)) : Left f K s t := by
  rcases exec_cases h with ⟨-, rfl⟩ | ⟨-, rfl⟩
  · exact left_closing hi hf hb
  · exact left_refuse hf s

theorem Left.wire_eq (h : Left f K s t) (hK : ∀ x, K x → x.written = []) : t.wire = s.wire := by
  obtain ⟨xs, -, hw, hk⟩ := h.logged
  rw [hw, wireOf, List.flatMap_eq_nil_iff.2 fun x hx => hK x (hk x hx), List.append_nil]

theorem Left.wire_since (h : Left f K s t) : t.wire = s.wire ++ wireOf (since s t) := by
  obtain ⟨xs, htr, hw, -⟩ := h.logged
  rw [since_eq htr, hw]

/-- Where nothing is left in progress the frame is the piece's. -/
theorem Left.frame_of_wait (h : Left f K s t) (hw : t.wait = s.wait) (hf : ∀ s t, (f s t).wait = s.wait) :
    t = f s t := by
  have h1 := h.frame
  have h2 : (f s t).wait = t.wait := (hf s t).trans hw.symm
  rw [← h2] at h1
  exact h1

end frames

theorem conclude_wait {r : Ret Value} {D : Value → State → Prop} {E : Err → State → Prop} {P : Wait → Prop}
    (h : r.ends D E fun w _ => P w) : r.conclude.wait = none ∨ ∃ w, P w ∧ r.conclude.wait = some w := by
  cases r with
  | done v t => exact .inl rfl
  | raised e t => exact .inl rfl
  | waiting w t => exact .inr ⟨w, h, rfl⟩

/-- What an instruction can leave in progress: what it found, or what its body leaves. -/
theorem wait_of_exec {i : Instr} {s t : State} {D : Value → State → Prop} {E : Err → State → Prop} {P : Wait → Prop}
    (h : exec i s = .next t) (hi : closing i = Ret.conclude) (hb : (body i s).ends D E fun w _ => P w) :
    t.wait = s.wait ∨ ∃ w, P w ∧ t.wait = some w := by
  rcases exec_cases h with ⟨ha, rfl⟩ | ⟨-, rfl⟩
  · rw [hi, wait_of_accepts ha]
    exact conclude_wait hb
  · exact .inl rfl

theorem overOrCut_of_exec {i : Instr} {s t : State} {D : Value → State → Prop} {E : Err → State → Prop}
    (h : exec i s = .next t) (hi : closing i = Ret.conclude) (hb : (body i s).ends D E fun w _ => w = .reset) :
    overOrCut s t :=
  (wait_of_exec h hi hb).imp id fun ⟨_, hw, ht⟩ => hw ▸ ht

/-- A body that gives its piece's value another form ends in the same errors and waits. -/
theorem ends_value {α : Type} {r : Ret α} {D : α → State → Prop} {E : Err → State → Prop} {W : Wait → State → Prop}
    (h : r.ends D E W) (g : α → Value) : (r.bind fun a s => .done (g a) s).ends (fun _ _ => True) E W := by
  rw [ends_bind_value]
  exact h.mono (fun _ _ _ => trivial) (fun _ _ h => h) fun _ _ h => h

theorem all_value {α : Type} {r : Ret α} {P : State → Prop} (h : r.all P) (g : α → Value) :
    (r.bind fun a s => .done (g a) s).all P := (all_bind_value r g P).2 h

/-! ## The octet transport and the encoder -/

theorem ran_sendEscaped (b : Octet) (s : State) : (sendEscaped b s).all (Ran State.withTx kindTx s) :=
  Ret.all.bind (Ran.trans frameFn_withTx) (ran_txRaw _ s) fun _ t _ => ran_txRaw b t

theorem sendEscaped_ends (b : Octet) (s : State) :
    (sendEscaped b s).ends (fun _ _ => True) (fun e _ => e ∈ transmitErrors) (fun w _ => w = .reset) := by
  rw [sendEscaped, ends_bind]
  exact (txRaw_ends _ s).mono (fun _ t _ => txRaw_ends b t) (fun _ _ h => h) fun _ _ h => h

/-- Settles O46: the frame of each body, which only a reset leaves in progress. -/
theorem octetTransportFrame : Obligations.OctetTransportFrame := by
  intro s t
  refine ⟨fun o h => ?_, fun b h => ?_, fun b h => ?_, fun b h => ?_, fun h => ?_, fun h => ?_⟩
  · exact ⟨(left_of_exec h nofun endFn_withTx (all_value (ran_txRaw o s) _)).frame,
      overOrCut_of_exec h rfl (ends_value (txRaw_ends o s) _)⟩
  · exact ⟨(left_of_exec h nofun endFn_withTx (all_value (ran_encOctet b s) _)).frame,
      overOrCut_of_exec h rfl (ends_value (encOctet_ends b s) _)⟩
  · exact ⟨(left_of_exec h nofun endFn_withTx (all_value (ran_txRaw b s) _)).frame,
      overOrCut_of_exec h rfl (ends_value (txRaw_ends b s) _)⟩
  · exact ⟨(left_of_exec h nofun endFn_withTx (all_value (ran_sendEscaped b s) _)).frame,
      overOrCut_of_exec h rfl (ends_value (sendEscaped_ends b s) _)⟩
  · have hl := left_of_exec h nofun endFn_withChannels (all_value (ran_rxRaw s) _)
    exact ⟨hl.frame, overOrCut_of_exec h rfl (ends_value (rxRaw_ends s) _), hl.wire_eq fun _ hx => hx.1⟩
  · have hl := left_of_exec h nofun endFn_withChannels (all_value (ran_flush s) _)
    exact ⟨hl.frame, overOrCut_of_exec h rfl (ends_value (flush_ends s) _), hl.wire_eq fun _ hx => hx.1⟩

/-- Settles O47: the same for the frame operations of the encoder. -/
theorem encoderFrame : Obligations.EncoderFrame := by
  intro s t p
  refine ⟨fun h => ?_, fun h => ?_, fun h => ?_⟩
  · exact ⟨(left_of_exec h nofun endFn_withEnc (all_value (ran_encFrame p s) _)).frame,
      overOrCut_of_exec h rfl (ends_value (encFrame_ends p s) _)⟩
  · exact ⟨(left_of_exec h nofun endFn_withEnc (all_value (ran_sendFrame p s) _)).frame,
      overOrCut_of_exec h rfl (ends_value (sendFrame_ends p s) _)⟩
  · exact ⟨(left_of_exec h nofun endFn_withTap (ran_tap2tty p s)).frame,
      overOrCut_of_exec h rfl (tap2tty_ends p s)⟩

/-! ## The native transmitter: SQ only grows -/

/-- SQ has what it had, and what arrived. -/
abbrev sqGrows (s t : State) : Prop := s.sq <+: t.sq

theorem sqGrows.trans (s t u : State) (h : sqGrows s t) (h' : sqGrows t u) : sqGrows s u := List.IsPrefix.trans h h'

theorem sqGrows_elapse (s : State) : sqGrows s s.elapse := List.prefix_append _ _

theorem sqGrows_serWrite (bs : List Octet) (s : State) : (serWrite bs s).all (sqGrows s) :=
  all_orReset _ (sqGrows_elapse s)

theorem sqGrows_senseLevel (s : State) : (senseLevel s).all (sqGrows s) := by
  refine all_orReset _ ?_
  split <;> exact sqGrows_elapse s

theorem sqGrows_senseWait (s : State) : (senseWait s).all (sqGrows s) := by
  refine all_orReset _ ?_
  split <;> exact sqGrows_elapse s

theorem sqGrows_pollLoop (w : Wait) (n k : Nat) (s : State) : (pollLoop w n k s).all (sqGrows s) := by
  induction n generalizing k s with
  | zero => exact List.prefix_refl _
  | succ n ih =>
    refine Ret.all.bind sqGrows.trans (sqGrows_senseLevel s) fun v t _ => ?_
    split_ifs
    · exact List.prefix_refl _
    · exact List.prefix_refl _
    · exact Ret.all.bind sqGrows.trans (sqGrows_senseWait t) fun _ u _ => ih (k + 1) u

theorem sqGrows_sendNFrame (p : List Octet) (s : State) : (sendNFrame p s).all (sqGrows s) := by
  refine Ret.all.onRaise sqGrows.trans ?_ fun t => List.prefix_refl _
  refine Ret.all.bind sqGrows.trans (sqGrows_serWrite _ s) fun out t _ => ?_
  unfold afterNatWrite
  split
  · exact List.prefix_refl _
  · split_ifs <;> exact List.prefix_refl _

theorem sqGrows_natTx (w : Wait) (p : List Octet) (s : State) : (natTx w p s).all (sqGrows s) :=
  Ret.all.bind sqGrows.trans
    (Ret.all.onRaise sqGrows.trans (sqGrows_pollLoop w _ 0 { s with nstate := .senseWait }) fun _ => List.prefix_refl _)
    fun _ t _ => sqGrows_sendNFrame p { t with nstate := .write }

theorem sqGrows_conclude {r : Ret Value} {s : State} (h : r.all (sqGrows s)) : sqGrows s r.conclude := by
  cases r <;> exact h

theorem sqGrows_of_exec {i : Instr} {s t : State} (h : exec i s = .next t) (hi : closing i = Ret.conclude)
    (hb : (body i s).all (sqGrows s)) : sqGrows s t := by
  rcases exec_cases h with ⟨-, rfl⟩ | ⟨-, rfl⟩
  · rw [hi]
    exact sqGrows_conclude hb
  · exact List.prefix_refl _

/-- Settles O50: the frame of each body, its own wait among what it can leave in progress; no transaction of the native
transmitter reads SQ. -/
theorem nativeTransmitterFrame : Obligations.NativeTransmitterFrame := by
  intro s t
  have own {v : Wait} (h : t.wait = s.wait ∨ ∃ w, (w = v ∨ w = .reset) ∧ t.wait = some w) :
      overOrCut s t ∨ t.wait = some v := by
    rcases h with h | ⟨w, rfl | rfl, h⟩
    · exact .inl (.inl h)
    · exact .inr h
    · exact .inl (.inr h)
  refine ⟨fun p h => ?_, fun p h => ?_, fun h => ?_⟩
  · have hends : (body (.natTx p) s).ends (fun _ _ => True) (fun _ _ => True) fun w _ => w = .natTx p ∨ w = .reset :=
      (natTx_ends (.natTx p) p s).mono (fun _ _ _ => trivial) (fun _ _ _ => trivial) fun _ _ hw => hw.imp And.left id
    exact ⟨(left_of_exec h nofun endFn_withNatTx (ran_natTx _ p s)).frame, own (wait_of_exec h rfl hends),
      sqGrows_of_exec h rfl (sqGrows_natTx _ p s)⟩
  · exact ⟨(left_of_exec h nofun endFn_withNatTx (ran_sendNFrame p s)).frame,
      overOrCut_of_exec h rfl (sendNFrame_ends p s), sqGrows_of_exec h rfl (sqGrows_sendNFrame p s)⟩
  · have hl := left_of_exec h nofun endFn_withChannels (all_value (ran_sensePoll .sense s) _)
    exact ⟨hl.frame, own (wait_of_exec h rfl (ends_value (pollLoop_ends .sense _ 0 s) _)),
      sqGrows_of_exec h rfl (all_value (sqGrows_pollLoop .sense _ 0 s) _), hl.wire_eq fun _ hx => hx.1⟩

end Sys2Proof.Machine
end

section
/-! SUPPORT. What the receive operations log and store (spec/42_emulated_codec.md R168, 43_native_transport.md R192), and
the paths of BRG.STEP (44_bridge_host.md R223). -/

namespace Sys2Proof.Machine

theorem Ret.all.and {α : Type} {r : Ret α} {P Q : State → Prop} (h : r.all P) (h' : r.all Q) :
    r.all fun s => P s ∧ Q s := by cases r <;> exact ⟨h, h'⟩

/-! ## Logs of a kind -/

/-- `t` is reached by transactions of kind `K`. -/
def Logs (K : Xact → Prop) (s t : State) : Prop := ∃ xs, t.trace = s.trace ++ xs ∧ ∀ x ∈ xs, K x

theorem Logs.trans {K : Xact → Prop} (s t u : State) (h : Logs K s t) (h' : Logs K t u) : Logs K s u := by
  obtain ⟨xs, hx, hk⟩ := h
  obtain ⟨ys, hy, hl⟩ := h'
  exact ⟨xs ++ ys, by rw [hy, hx, List.append_assoc], fun x hm => (List.mem_append.1 hm).elim (hk x) (hl x)⟩

theorem Logs.of_same {K : Xact → Prop} {s t : State} (h : t.trace = s.trace) : Logs K s t :=
  ⟨[], by simp [h], by simp⟩

theorem Logs.mono {K L : Xact → Prop} {s t : State} (h : Logs K s t) (hKL : ∀ x, K x → L x) : Logs L s t := by
  obtain ⟨xs, hx, hk⟩ := h
  exact ⟨xs, hx, fun x hm => hKL x (hk x hm)⟩

theorem Logs.all_since {K : Xact → Prop} {s t : State} (h : Logs K s t) : ∀ x ∈ since s t, K x := by
  obtain ⟨xs, hx, hk⟩ := h
  rwa [since_eq hx]

theorem logs_turnLog {K : Xact → Prop} (hA : ∀ os, K (.arrive os)) {s t : State} {x : Xact} (hx : K x)
    (h : t.trace = s.trace ++ turnLog s x) : Logs K s t := by
  refine ⟨_, h, fun y hy => ?_⟩
  rcases List.mem_append.1 hy with hy | hy
  · exact mem_arrivals hy ▸ hA _
  · exact List.mem_singleton.1 hy ▸ hx

/-- Transactions that neither write to the wire nor read a frame from the network interface. -/
def passive : Xact → Prop
  | .serWrite _ _ => False
  | .netRead _ => False
  | _ => True

/-- Of these, those that take no octet from SQ. -/
abbrev aside (x : Xact) : Prop := passive x ∧ x.taken = []

theorem passive_serWait (T : Nat) (s : State) : (serWait T s).all (Logs passive s) := by
  refine all_orReset _ ?_
  split <;> exact logs_turnLog (fun _ => trivial) (by trivial) (List.append_assoc ..)

theorem passive_serRead (m : Nat) (s : State) : (serRead m s).all (Logs passive s) := by
  refine all_orReset _ ?_
  split <;> exact logs_turnLog (fun _ => trivial) (by trivial) (List.append_assoc ..)

theorem passive_readOne (s : State) : (readOne s).all (Logs passive s) := by
  refine Ret.all.bind Logs.trans (passive_serRead 1 s) fun bs t _ => ?_
  split <;> exact .of_same rfl

theorem passive_rxRaw (s : State) : (rxRaw s).all (Logs passive s) :=
  Ret.all.bind Logs.trans (passive_serWait _ s) fun _ t _ => passive_readOne t

theorem aside_netWrite (p : List Octet) (s : State) : (netWrite p s).all (Logs aside s) := by
  refine all_orReset _ ?_
  split <;> exact logs_turnLog (fun _ => ⟨trivial, rfl⟩) (by exact ⟨trivial, rfl⟩) (List.append_assoc ..)

theorem aside_turn (s : State) : Logs aside s s.elapse :=
  ⟨arrivals s.turn.rx, rfl, fun _ hx => mem_arrivals hx ▸ ⟨trivial, rfl⟩⟩

theorem aside_anyReady (n : Nat) (s : State) : (anyReady n s).all (Logs aside s) := by
  induction n generalizing s with
  | zero => exact .of_same rfl
  | succ n ih =>
    unfold anyReady
    split_ifs
    · exact aside_turn s
    · exact logs_turnLog (fun _ => ⟨trivial, rfl⟩) (by exact ⟨trivial, rfl⟩) (List.append_assoc ..)
    · exact logs_turnLog (fun _ => ⟨trivial, rfl⟩) (by exact ⟨trivial, rfl⟩) (List.append_assoc ..)
    · exact (ih s.elapse).mono fun t ht => Logs.trans _ _ _ (aside_turn s) ht

theorem passive_pollLoop (w : Wait) (n k : Nat) (s : State) : (pollLoop w n k s).all (Logs passive s) := by
  have hlevel (s : State) : (senseLevel s).all (Logs passive s) := by
    refine all_orReset _ ?_
    split <;> exact logs_turnLog (fun _ => trivial) (by trivial) (List.append_assoc ..)
  have hwait (s : State) : (senseWait s).all (Logs passive s) := by
    refine all_orReset _ ?_
    split <;> exact logs_turnLog (fun _ => trivial) (by trivial) (List.append_assoc ..)
  induction n generalizing k s with
  | zero => exact .of_same rfl
  | succ n ih =>
    refine Ret.all.bind Logs.trans (hlevel s) fun v t _ => ?_
    split_ifs
    · exact .of_same rfl
    · exact .of_same rfl
    · exact Ret.all.bind Logs.trans (hwait t) fun _ u _ => ih (k + 1) u

/-! ## The two receive loops, for any relation that looks at the channels -/

section loops

variable {R : State → State → Prop} (trans : ∀ a b c, R a b → R b c → R a c)
  (regs : ∀ s t : State, t.trace = s.trace → t.sq = s.sq → R s t)

include trans regs

/-- Registers may be written first. -/
theorem rel_after_write {s t u : State} (h : R t u) (htr : t.trace = s.trace) (hq : t.sq = s.sq) : R s u :=
  trans _ _ _ (regs _ _ htr hq) h

/-- What each RX.RAW does, DEC.FRAME does. -/
theorem decLoop_rel (hrx : ∀ s, (rxRaw s).all (R s)) (n : Nat) (s : State) : (decLoop n s).all (R s) := by
  have hstore (o : Octet) (s : State) : (storeOctet o s).all (R s) := by
    unfold storeOctet
    split <;> exact regs _ _ rfl rfl
  induction n generalizing s with
  | zero => exact regs _ _ rfl rfl
  | succ n ih =>
    refine Ret.all.bind trans (Ret.all.onRaise trans (hrx s) fun t => regs _ _ rfl rfl) fun o t _ => ?_
    split_ifs
    · refine Ret.all.bind trans ?_ fun _ u _ => ih u
      exact (hstore o { t with dstate := .awaitOctet }).mono fun u hu => rel_after_write trans regs hu rfl rfl
    · exact (ih (symEsc t)).mono fun u hu => rel_after_write trans regs hu rfl rfl
    · unfold symEnd
      split <;> exact regs _ _ rfl rfl
    · exact Ret.all.bind trans (hstore o t) fun _ u _ => ih u

theorem decFrame_rel (hrx : ∀ s, (rxRaw s).all (R s)) (s : State) : (decFrame s).all (R s) :=
  (decLoop_rel trans regs hrx _ (decStart s)).mono fun _ ht => rel_after_write trans regs ht rfl rfl

/-- What each wait and read does, RD.BYTES does. -/
theorem rdBytes_rel (hw : ∀ T s, (serWait T s).all (R s)) (hr : ∀ m s, (serRead m s).all (R s)) (k : Nat)
    (s : State) : (rdBytes k s).all (R s) := by
  have hloop (n : Nat) (s : State) : (readLoop n k s).all (R s) := by
    induction n generalizing s with
    | zero => exact regs _ _ rfl rfl
    | succ n ih =>
      unfold readLoop
      split
      · refine Ret.all.bind trans (hw _ s) fun _ t _ => Ret.all.bind trans (hr _ t) fun bs u _ => ?_
        exact (ih (storeRead bs u)).mono fun v hv => rel_after_write trans regs hv rfl rfl
      · exact regs _ _ rfl rfl
  exact (hloop k { s with ncnt := 0 }).mono fun _ ht => rel_after_write trans regs ht rfl rfl

end loops

theorem passive_decFrame (s : State) : (decFrame s).all (Logs passive s) :=
  decFrame_rel Logs.trans (fun _ _ h _ => .of_same h) passive_rxRaw s

theorem conserved_decFrame (s : State) : (decFrame s).all (Conserved s) :=
  decFrame_rel Conserved.trans (fun _ _ h hq => .of_same h hq) conserved_rxRaw s

theorem passive_rdBytes (k : Nat) (s : State) : (rdBytes k s).all (Logs passive s) :=
  rdBytes_rel Logs.trans (fun _ _ h _ => .of_same h) passive_serWait passive_serRead k s

theorem passive_natLenOk (n : Word16) (s : State) : (natLenOk n s).all (Logs passive s) := by
  refine Ret.all.onRaise Logs.trans ?_ fun t => .of_same rfl
  refine Ret.all.bind Logs.trans ?_ fun _ t _ => ?_
  · exact (passive_rdBytes _ { s with len := n, nstate := .payload }).mono fun t ht =>
      Logs.trans _ _ _ (.of_same rfl) ht
  · exact Ret.all.bind Logs.trans ((aside_netWrite _ t).mono fun u hu => hu.mono fun _ hx => hx.1)
      fun _ u _ => .of_same rfl

theorem passive_natRx (s : State) : (natRx s).all (Logs passive s) := by
  refine Ret.all.bind Logs.trans ?_ fun _ t _ => ?_
  · refine Ret.all.onRaise Logs.trans ?_ fun t => .of_same rfl
    exact (passive_rdBytes 2 { s with nstate := .lenPrefix }).mono fun t ht => Logs.trans _ _ _ (.of_same rfl) ht
  · split
    · exact passive_natLenOk _ t
    · exact .of_same rfl

/-! ## What the native receiver stores -/

theorem agreeOutside.refl (m : Memory) (P : Nat → Prop) : agreeOutside m m P := fun _ _ => rfl

theorem agreeOutside.trans {m m' m'' : Memory} {P : Nat → Prop} (h : agreeOutside m m' P)
    (h' : agreeOutside m' m'' P) : agreeOutside m m'' P := fun a ha => (h' a ha).trans (h a ha)

theorem agreeOutside.mono {m m' : Memory} {P Q : Nat → Prop} (h : agreeOutside m m' P) (hPQ : ∀ a, P a → Q a) :
    agreeOutside m m' Q := fun a ha => h a fun hp => ha (hPQ a hp)

/-- Where no more than NBUF's free octets below `k` are read, only they change. -/
theorem storeRead_agree {k : Nat} {bs : List Octet} {s : State} (h : s.ncnt + bs.length ≤ k) :
    agreeOutside s.nbuf (storeRead bs s).nbuf (· < k) :=
  fun _ ha => Memory.read_writeList_ne (.inr (h.trans (Nat.not_lt.1 ha)))

/-- RD.BYTES k changes no octet of NBUF from index k on. -/
theorem readLoop_agree (n k : Nat) (s : State) :
    (readLoop n k s).all fun t => agreeOutside s.nbuf t.nbuf (· < k) := by
  have kept {u v : State} (h : Ran State.withChannels kindRx u v) : v.nbuf = u.nbuf ∧ v.ncnt = u.ncnt := by
    rw [h.frame]
    exact ⟨rfl, rfl⟩
  induction n generalizing s with
  | zero => exact .refl _ _
  | succ n ih =>
    unfold readLoop
    split
    next hlt =>
      refine Ret.all.then (P := fun t => t.nbuf = s.nbuf ∧ t.ncnt = s.ncnt) ((ran_serWait _ s).mono fun t ht => kept ht)
        (fun _ t ht => ?_) fun t ht => by rw [ht.1]; exact .refl _ _
      have hr := ran_serRead (k - t.ncnt) t
      have he := serRead_ends (k - t.ncnt) t
      cases hd : serRead (k - t.ncnt) t with
      | raised e u =>
        rw [hd] at hr
        show agreeOutside s.nbuf u.nbuf _
        rw [(kept hr).1, ht.1]
        exact .refl _ _
      | waiting w u =>
        rw [hd] at hr
        show agreeOutside s.nbuf u.nbuf _
        rw [(kept hr).1, ht.1]
        exact .refl _ _
      | done bs u =>
        rw [hd] at hr he
        obtain ⟨-, -, -, hlen⟩ := he
        obtain ⟨hu, hun⟩ := kept hr
        have hle : u.ncnt + bs.length ≤ k := by omega
        refine (ih (storeRead bs u)).mono fun v hv => ?_
        have hst := storeRead_agree hle
        rw [hu, ht.1] at hst
        exact hst.trans hv
    · exact .refl _ _

theorem rdBytes_agree (k : Nat) (s : State) : (rdBytes k s).all fun t => agreeOutside s.nbuf t.nbuf (· < k) :=
  readLoop_agree k k { s with ncnt := 0 }

/-- NAT.LEN.OK n keeps LEN and stores below n. -/
theorem natLenOk_agree (n : Word16) (s : State) :
    (natLenOk n s).all fun t => t.len = n ∧ agreeOutside s.nbuf t.nbuf (· < n.toNat) := by
  refine onRaise_all ?_ fun _ h => h
  have hr : (rdBytes n.toNat { s with len := n, nstate := .payload }).all fun t =>
      t.len = n ∧ agreeOutside s.nbuf t.nbuf (· < n.toNat) := by
    have hlen : (rdBytes n.toNat { s with len := n, nstate := .payload }).all fun t => t.len = n :=
      (ran_rdBytes _ _).mono fun t ht => by rw [ht.frame]; rfl
    exact hlen.and (rdBytes_agree _ _)
  refine hr.then (fun _ t ht => ?_) fun _ h => h
  refine Ret.all.then (P := fun u => u.len = n ∧ agreeOutside s.nbuf u.nbuf (· < n.toNat))
    ((ran_netWrite _ t).mono fun u hu => ?_) (fun _ u hu => hu) fun _ h => h
  rw [hu.frame]
  exact ht

/-- NAT.RX stores the two octets of LEN and the octets of an accepted LEN. -/
theorem natRx_agree (s : State) :
    (natRx s).all fun t =>
      agreeOutside s.nbuf t.nbuf fun a => a < 2 ∨ (t.len.toNat ≤ s.cfg.mtu ∧ a < t.len.toNat) := by
  have hr : ((rdBytes 2 { s with nstate := .lenPrefix }).onRaise natFailed).all fun t =>
      t.cfg = s.cfg ∧ agreeOutside s.nbuf t.nbuf (· < 2) := by
    refine onRaise_all ?_ fun _ h => h
    have hcfg : (rdBytes 2 { s with nstate := .lenPrefix }).all fun t => t.cfg = s.cfg :=
      (ran_rdBytes _ _).mono fun t ht => by rw [ht.frame]; rfl
    exact hcfg.and (rdBytes_agree _ _)
  refine hr.then (fun _ t ht => ?_) fun t ht => ht.2.mono fun _ => .inl
  obtain ⟨hcfg, hagree⟩ := ht
  split
  next hlen =>
    refine (natLenOk_agree _ t).mono fun u hu => ?_
    have hle : u.len.toNat ≤ s.cfg.mtu := by
      rw [hu.1, ← hcfg]
      exact of_decide_eq_true hlen
    exact (hagree.mono fun _ => .inl).trans (hu.2.mono fun a ha => .inr ⟨hle, hu.1 ▸ ha⟩)
  · exact hagree.mono fun _ => .inl

theorem all_conclude {r : Ret Value} {P : State → Prop} (h : r.all P)
    (hP : ∀ (t : State) r w, P t → P { t with result := r, wait := w }) : P r.conclude := by
  cases r with
  | done v t => exact hP t _ _ h
  | raised e t => exact hP t _ _ h
  | waiting w t => exact hP t t.result _ h

/-- What holds of a refused state and of every end of the body holds of the next state. -/
theorem prop_of_exec {i : Instr} {s t : State} {P : State → Prop} (h : exec i s = .next t)
    (hi : closing i = Ret.conclude) (hb : (body i s).all P) (hs : P s)
    (hP : ∀ (t : State) r w, P t → P { t with result := r, wait := w }) : P t := by
  rcases exec_cases h with ⟨-, rfl⟩ | ⟨-, rfl⟩
  · rw [hi]
    exact all_conclude hb hP
  · exact hP s _ s.wait hs

/-- Settles O49: the frames of the bodies, and the indices each stores to. -/
theorem nativeReceiverFrame : Obligations.NativeReceiverFrame := by
  intro s t
  refine ⟨fun k h => ?_, fun h => ?_, fun n h => ?_, fun n h => ?_⟩
  · have hl := left_of_exec h nofun endFn_withRead (all_value (ran_rdBytes k.toNat s) _)
    exact ⟨hl.frame, overOrCut_of_exec h rfl (ends_value (readLoop_ends _ _ _) _), hl.wire_eq fun _ hx => hx.1,
      prop_of_exec h rfl (all_value (rdBytes_agree k.toNat s) _) (.refl _ _) fun _ _ _ hp => hp⟩
  · have hl := left_of_exec h nofun endFn_withNatRx (ran_natRx s)
    exact ⟨hl.frame, overOrCut_of_exec h rfl (natRx_ends s), hl.wire_eq fun _ hx => hx.1,
      prop_of_exec h rfl (natRx_agree s) (.refl _ _) fun _ _ _ hp => hp⟩
  · have hl := left_of_exec h nofun endFn_withNatRx (ran_natLenOk n s)
    exact ⟨hl.frame, overOrCut_of_exec h rfl (natLenOk_ends n s), hl.wire_eq fun _ hx => hx.1,
      prop_of_exec h rfl ((natLenOk_agree n s).mono fun _ hp => hp.2) (.refl _ _) fun _ _ _ hp => hp⟩
  · have hl := left_of_exec h nofun endFn_withNatRx (ran_natLenOver n s)
    have hover : t.wait = s.wait ∧ t.nbuf = s.nbuf := by
      rcases exec_cases h with ⟨ha, rfl⟩ | ⟨-, rfl⟩
      · exact ⟨(wait_of_accepts ha).symm, rfl⟩
      · exact ⟨rfl, rfl⟩
    exact ⟨hl.frame_of_wait hover.1 fun _ _ => rfl, hover.2, hl.wire_eq fun _ hx => hx.1⟩

/-! ## DEC.FRAME's obligations -/

/-- Settles O48: the frame of the body; the octets it stores are those the reference stores of the octets taken. -/
theorem decoderFrame : Obligations.DecoderFrame := by
  intro s t h
  have hl := left_of_exec h nofun endFn_withDec (all_value (ran_decFrame s) _)
  exact ⟨hl.frame, overOrCut_of_exec h rfl (ends_value (decFrame_ends s) _), hl.wire_eq fun _ hx => hx.1,
    prop_of_exec h rfl (all_value (decFrame_agree s) _) (.refl _ _) fun _ _ _ hp => hp⟩

/-- Settles O25: the ends of the loop; nothing on the way writes to the wire. -/
theorem decFrameEndsAtRest : Obligations.DecFrameEndsAtRest := by
  intro s t ha h
  have hl := left_of_exec h nofun endFn_withDec (all_value (ran_decFrame s) _)
  have hcut : overOrCut s t := overOrCut_of_exec h rfl (ends_value (decFrame_ends s) _)
  rw [overOrCut, wait_of_accepts ha] at hcut
  refine ⟨hl.wire_eq fun _ hx => hx.1, hcut, fun hw => ?_⟩
  rcases exec_value_cases Value.num ha h (decFrame_ends s) with
    ⟨n, u, ⟨hd, hcnt, hcap, hacc⟩, rfl⟩ | ⟨e, u, ⟨he, hd, hcnt⟩, rfl⟩ | ⟨w, u, -, rfl⟩
  · refine ⟨by rw [State.escf, finish_dstate, hd]; rfl, .inl ⟨n, rfl, hd, hcnt, hcap, fun hok => ?_, hacc⟩⟩
    obtain ⟨-, hrx, -, -⟩ := hok
    omega
  · exact ⟨by rw [State.escf, raise_dstate, hd]; rfl, .inr ⟨e, he, rfl, hd, hcnt⟩⟩
  · cases hw

/-- With a frame at the head of SQ, under quiet turns the loop ends as the reference does, which reads the frame back
and accepts it where the residue is zero (R173). -/
theorem decFrame_of_frame {s : State} {p tail : List Octet} {rest : List Turn} (hok : s.cfg.ok)
    (hN : s.cfg.crcWidth = 16) (hwf : Memory.wf s.rxbuf) (hp : p.length ≤ s.cfg.mtu)
    (hq : s.sq = eframeWire s.cfg p ++ tail) (hs : s.script = quiet (2 * (eframeWire s.cfg p).length) ++ rest) :
    (decFrame s).ends
      (fun n t => frameAccepted s.cfg p ∧ n = p.length ∧ t.sq = tail ∧ t.script = rest ∧
        Memory.prefixOf t.rxbuf (p.length + 2) = p ++ trailer (crcFold s.cfg p) ∧
        Memory.prefixOf t.rxbuf p.length = p ∧ t.rxcnt = p.length + 2 ∧ t.acc = 0 ∧ t.dstate = .done)
      (fun e t => ¬ frameAccepted s.cfg p ∧ e = .frameCorrupt ∧ t.sq = tail ∧ t.script = rest ∧
        Memory.prefixOf t.rxbuf (p.length + 2) = p ++ trailer (crcFold s.cfg p) ∧ t.rxcnt = 0 ∧ t.dstate = .failed)
      (fun _ _ => False) := by
  obtain ⟨hacc, hrej⟩ := refDecode_eframeWire hok hN hp tail
  rw [← hq] at hacc hrej
  have hlen : s.sq.length = (eframeWire s.cfg p).length + tail.length := by rw [hq, List.length_append]
  have hturns {res : Result} (hres : res ≠ .err .timeout) :
      decTurns (res, frameOctets p (crcFold s.cfg p), tail) s.sq = 2 * (eframeWire s.cfg p).length := by
    rw [decTurns, if_neg hres, hlen, Nat.add_sub_cancel, Nat.add_zero]
  have hbuf {m : Memory} (h : Holds s.rxbuf (frameOctets p (crcFold s.cfg p)) m) :
      Memory.prefixOf m (p.length + 2) = p ++ trailer (crcFold s.cfg p) := by
    have hst := (h.stored hwf).2
    rwa [length_frameOctets] at hst
  by_cases hf : frameAccepted s.cfg p
  · have hends := decFrame_quiet (s := s) (rest := rest) (by rw [hacc hf, hturns (by simp), hs])
    rw [hacc hf] at hends
    refine hends.mono (fun n u h => ?_) (fun _ _ h => nomatch h.2.2.1) fun _ _ h => h
    obtain ⟨hsq, hscr, hres, hholds, hcnt, hd, ha0⟩ := h
    obtain rfl : p.length = n := by simpa using hres
    have hpre : Memory.prefixOf u.rxbuf p.length = p := by
      have h2 := hbuf hholds
      rw [Memory.prefixOf_succ, Memory.prefixOf_succ, List.append_assoc] at h2
      exact (List.append_inj h2 (Memory.prefixOf_length _ _)).1
    exact ⟨hf, rfl, hsq, hscr, hbuf hholds, hpre, by rw [hcnt, length_frameOctets], ha0, hd⟩
  · have hends := decFrame_quiet (s := s) (rest := rest) (by rw [hrej hf, hturns (by simp), hs])
    rw [hrej hf] at hends
    refine hends.mono (fun _ _ h => nomatch h.2.2.1) (fun e u h => ?_) fun _ _ h => h
    obtain ⟨hsq, hscr, hres, hholds, hcnt, hd⟩ := h
    exact ⟨hf, by simpa using hres.symm, hsq, hscr, hbuf hholds, hcnt, hd⟩

/-- Settles O23: the two ends of the loop on a frame. -/
theorem decFrameRoundTrip : Obligations.DecFrameRoundTrip := by
  intro s p tail rest ha hok hN hwf hp hq hs
  refine ⟨_, exec_of_accepts ha, ?_⟩
  rcases exec_value_cases Value.num ha (exec_of_accepts ha) (decFrame_of_frame hok hN hwf hp hq hs) with
    ⟨n, u, ⟨hf, rfl, hsq, hscr, hbuf, hpre, hcnt, ha0, hd⟩, heq⟩ | ⟨e, u, ⟨hf, rfl, hsq, hscr, hbuf, hcnt, hd⟩, heq⟩ |
      ⟨w, u, h, -⟩
  · rw [heq]
    exact ⟨hsq, hscr, hbuf, fun _ => ⟨rfl, hpre, hcnt, ha0, hd⟩, fun hn => absurd hf hn⟩
  · rw [heq]
    exact ⟨hsq, hscr, hbuf, fun hn => absurd hn hf, fun _ => ⟨rfl, hcnt, hd⟩⟩
  · exact h.elim

/-- The octets a script still had to bring are those taken, where a receive starved. -/
theorem takenOf_of_starved {os : List Octet} {e : Err} {xs : List Xact} {t : State} (h : Starved e xs t)
    (hscript : Script os xs) (hworks : readsWork xs) (hcons : arrivedOf xs = takenOf xs ++ t.sq) :
    e = .timeout ∧ takenOf xs = os := by
  rcases h with ⟨he, hq, ys, T, rfl⟩ | ⟨-, ys, x, rfl, hx⟩
  · rcases serWait_of_script hscript with hout | ⟨-, harr⟩
    · cases hout
    · have hall : arrivedOf (ys ++ [.serWait T .expired]) = arrivedOf ys := by
        simp [arrivedOf, List.flatMap_append, Xact.arrived]
      rw [hall, harr, hq, List.append_nil] at hcons
      exact ⟨he, hcons.symm⟩
  · rcases hx with hfail | ⟨T, rfl⟩
    · have := hworks x (by simp)
      rw [hfail] at this
      cases this
    · rcases serWait_of_script hscript with hout | ⟨hout, -⟩ <;> cases hout

/-- Two turns for each octet and one for a wait that expires suffice the decoder. -/
theorem quiet_decTurns (s : State) (rest : List Turn) :
    ∃ rest', quiet (2 * s.sq.length + 1) ++ rest =
      quiet (decTurns (refDecode s.cfg [] false s.sq) s.sq) ++ rest' := by
  have hdec : decTurns (refDecode s.cfg [] false s.sq) s.sq ≤ 2 * s.sq.length + 1 := by
    unfold decTurns
    split_ifs <;> omega
  obtain ⟨j, hj⟩ := Nat.exists_eq_add_of_le hdec
  exact ⟨quiet j ++ rest, by rw [hj, quiet, List.replicate_add, List.append_assoc]; rfl⟩

/-- What was taken of octets that come by a script is an initial part of them. -/
theorem taken_of_script {s u : State} {os : List Octet} {xs : List Xact} (hq : s.sq = []) (hcons : Conserved s u)
    (htr : u.trace = s.trace ++ xs) (hscript : Script os xs) (hworks : readsWork xs) : ∃ r, takenOf xs ++ r = os := by
  have hc := hcons.since_eq htr hworks
  rw [hq, List.nil_append] at hc
  obtain ⟨r, rfl⟩ := arrivedOf_prefix_of_script hscript
  exact ⟨u.sq ++ r, by rw [hc, List.append_assoc]⟩

/-- Settles O22: under quiet turns the loop ends as the reference does; where the octets come by a script, what was
taken is an initial part of it, and all of it where the decoder starved. -/
theorem decFrameRefinesReference : Obligations.DecFrameRefinesReference := by
  refine ⟨fun s rest ha hwf hs => ?_, fun s t os ha hwf hq h hw hscript hworks => ?_⟩
  · have hexec := exec_of_accepts ha
    have hl := left_of_exec hexec nofun endFn_withDec (all_value (ran_decFrame s) _)
    have hwire := hl.wire_eq fun _ hx => hx.1
    obtain ⟨rest', hrest⟩ := quiet_decTurns s rest
    have hends := decFrame_quiet (s := s) (rest := rest') (hs.trans hrest)
    refine ⟨_, hexec, ?_⟩
    rcases exec_value_cases Value.num ha hexec hends with ⟨n, u, h, heq⟩ | ⟨e, u, h, heq⟩ | ⟨w, u, h, -⟩
    · obtain ⟨hsq, -, hres, hholds, hcnt, hd, -⟩ := h
      have hframe := hl.frame_of_wait (by rw [heq, wait_of_accepts ha]; rfl) fun _ _ => rfl
      refine ⟨by rw [heq, hres]; rfl, by rw [heq]; exact hsq, fun _ => ?_, .inl (by rw [heq]; exact hd), hframe, hwire⟩
      rw [heq, finish_rxbuf, finish_rxcnt, hcnt]
      exact (hholds.stored hwf).2
    · obtain ⟨hsq, -, hres, -, -, hd⟩ := h
      have hframe := hl.frame_of_wait (by rw [heq, wait_of_accepts ha]; rfl) fun _ _ => rfl
      refine ⟨by rw [heq, hres]; rfl, by rw [heq]; exact hsq, fun hdone => ?_, .inr (by rw [heq]; exact hd), hframe,
        hwire⟩
      rw [heq, raise_dstate, hd] at hdone
      cases hdone
    · exact h.elim
  · have hends := ((decFrame_refines s).and (decFrame_ends s)).and (conserved_decFrame s)
    rcases exec_value_cases Value.num ha h hends with ⟨n, u, hu, rfl⟩ | ⟨e, u, hu, rfl⟩ | ⟨w, u, -, rfl⟩
    · obtain ⟨⟨⟨xs, st, htr, hholds, hcnt, href⟩, -⟩, hcons⟩ := hu
      rw [since_eq (t := u.finish (.num n)) htr] at hscript hworks ⊢
      obtain ⟨r, hr⟩ := taken_of_script hq hcons htr hscript hworks
      have hdec := href r
      rw [hr] at hdec
      rw [hdec]
      refine ⟨rfl, hr, fun _ => ?_⟩
      rw [finish_rxbuf, finish_rxcnt, hcnt]
      exact (hholds.stored hwf).2
    · obtain ⟨⟨⟨xs, st, htr, -, href⟩, -, hd, -⟩, hcons⟩ := hu
      have hfail (hdone : (u.raise e).dstate = .done) : False := by
        rw [raise_dstate, hd] at hdone
        cases hdone
      rw [since_eq (t := u.raise e) htr] at hscript hworks ⊢
      rcases href with href | ⟨href, hstarved⟩
      · obtain ⟨r, hr⟩ := taken_of_script hq hcons htr hscript hworks
        have hdec := href r
        rw [hr] at hdec
        rw [hdec]
        exact ⟨rfl, hr, fun hdone => (hfail hdone).elim⟩
      · have hc := hcons.since_eq htr hworks
        rw [hq, List.nil_append] at hc
        obtain ⟨rfl, htaken⟩ := takenOf_of_starved hstarved hscript hworks hc
        rw [htaken] at href
        rw [href]
        exact ⟨rfl, (List.append_nil _).trans htaken, fun hdone => (hfail hdone).elim⟩
    · cases hw

end Sys2Proof.Machine
end

section
/-! SUPPORT. BRG.STEP by the path it takes (spec/44_bridge_host.md R223 to R229): how each path ends, which registers it
may write, which octets it stores to; the errors of every operation (60_exceptions.md R242); the modes kept apart (R258). -/

namespace Sys2Proof.Machine

/-! ## The paths by mode -/

theorem bridgeSend_emulated {s : State} (h : s.mode = .emulated) (p : List Octet) :
    bridgeSend p s = (tap2tty p s).catching (fun _ s1 => .done .unit s1) (fun s1 => .done .unit s1) := by
  rw [bridgeSend, h]

theorem bridgeSend_native {s : State} (h : s.mode = .native) (p : List Octet) :
    bridgeSend p s = (natTx (.brgTx p) p s).catching (fun _ s1 => .done .unit s1) (fun s1 => .done .unit s1) := by
  rw [bridgeSend, h]

theorem bridgeReceive_emulated {s : State} (h : s.mode = .emulated) :
    bridgeReceive s = (decFrame s).catching
      (fun n s1 => (netWrite (Memory.prefixOf s1.rxbuf n) s1).bind fun _ s2 => .done .unit s2)
      (fun s1 => .done .unit s1) := by rw [bridgeReceive, h]

theorem bridgeReceive_native {s : State} (h : s.mode = .native) :
    bridgeReceive s = (natRx s).catching (fun _ s1 => .done .unit s1) (fun s1 => .done .unit s1) := by
  rw [bridgeReceive, h]

theorem eq_emulated_or_native (m : Mode) : m = .emulated ∨ m = .native := by cases m <;> decide

/-- A piece whose every value and error is caught ends where it ended. -/
theorem all_caught {α : Type} {r : Ret α} {P : State → Prop} (h : r.all P) :
    (r.catching (fun _ s => .done Value.unit s) (fun s => .done .unit s)).all P := by cases r <;> exact h

theorem ends_caught {α : Type} {r : Ret α} {D : α → State → Prop} {E : Err → State → Prop} {W : Wait → State → Prop}
    (h : r.ends D E W) :
    (r.catching (fun _ s => .done Value.unit s) (fun s => .done .unit s)).ends
      (fun v s => v = .unit ∧ ((∃ a, D a s) ∨ ∃ e, E e s)) (fun _ _ => False) W := by
  cases r with
  | done a s => exact ⟨rfl, .inl ⟨a, h⟩⟩
  | raised e s => exact ⟨rfl, .inr ⟨e, h⟩⟩
  | waiting w s => exact h

/-! ## How BRG.STEP ends -/

theorem bridgeSend_ends (p : List Octet) (s : State) :
    (bridgeSend p s).ends (fun v _ => v = .unit) (fun _ _ => False)
      (fun w _ => w = .reset ∨ ∃ p, w = .brgTx p) := by
  rcases eq_emulated_or_native s.mode with hm | hm
  · rw [bridgeSend_emulated hm]
    exact (ends_caught (tap2tty_ends p s)).mono (fun _ _ h => h.1) (fun _ _ h => h) fun _ _ h => .inl h
  · rw [bridgeSend_native hm]
    exact (ends_caught (natTx_ends (.brgTx p) p s)).mono (fun _ _ h => h.1) (fun _ _ h => h)
      fun _ _ h => h.elim (fun hw => .inr ⟨p, hw.1⟩) .inl

theorem bridgeReceive_ends (s : State) :
    (bridgeReceive s).ends (fun v _ => v = .unit) (fun e _ => e = .ioError) (fun w _ => w = .reset) := by
  rcases eq_emulated_or_native s.mode with hm | hm
  · rw [bridgeReceive_emulated hm, ends_catching]
    refine (decFrame_ends s).mono (fun n t _ => ?_) (fun _ _ _ => rfl) fun _ _ h => h
    rw [ends_bind]
    exact (netWrite_ends _ t).mono (fun _ _ _ => rfl) (fun _ _ h => h) fun _ _ h => h
  · rw [bridgeReceive_native hm]
    exact (ends_caught (natRx_ends s)).mono (fun _ _ h => h.1) (fun _ _ h => h.elim) fun _ _ h => h

theorem netRead_ends (s : State) :
    (netRead s).ends (fun _ _ => True) (fun e _ => e = .ioError) (fun w _ => w = .reset) := by
  refine ends_orReset _ ?_
  split
  · rfl
  · split
    · trivial
    · rfl

/-- The only error that gets out of BRG.STEP is that of the host's own channels (R229). -/
theorem brgStep_ends (s : State) :
    (brgStep s).ends (fun v _ => v = .unit) (fun e _ => e = .ioError)
      (fun w _ => w = .brgAny ∨ w = .reset ∨ ∃ p, w = .brgTx p) := by
  rw [brgStep, ends_bind]
  refine (anyReady_ends _ s).mono (fun d t _ => ?_) (fun _ _ h => h) fun _ _ h => h.imp id .inl
  cases d with
  | net =>
    rw [ends_bind]
    refine (netRead_ends t).mono (fun p u _ => ?_) (fun _ _ h => h) fun _ _ h => .inr (.inl h)
    exact (bridgeSend_ends p u).mono (fun _ _ h => h) (fun _ _ h => h.elim) fun _ _ h => .inr h
  | ser => exact (bridgeReceive_ends t).mono (fun _ _ h => h) (fun _ _ h => h) fun _ _ h => .inr (.inl h)

/-- How an accepted BRG.STEP closes. -/
theorem brgStep_exec_cases {s t : State} {D : Value → State → Prop} {E : Err → State → Prop} {W : Wait → State → Prop}
    (ha : accepts .brgStep s = true) (h : exec .brgStep s = .next t) (hends : (brgStep s).ends D E W) :
    (∃ v u, D v u ∧ t = u.finish v) ∨ (∃ e u, E e u ∧ t = { u.raise e with halted := true }) ∨
      (∃ w u, W w u ∧ t = { u with wait := some w }) := by
  obtain rfl := eq_of_exec ha h
  exact concludeBridge_cases hends

theorem brgStep_halted (s : State) : (brgStep s).all fun t => t.halted = s.halted :=
  (ran_brgStep s).mono fun t ht => by rw [ht.frame]; rfl

/-- Settles O41: BRG.STEP ends in a value or in that error, and a stopped host's step faults. -/
theorem brgStepErrorIsFatal : Obligations.BrgStepErrorIsFatal := by
  refine ⟨fun s t ha h hw => ?_, fun s hh hi => by simp [step, hh, hi]⟩
  rcases brgStep_exec_cases ha h ((brgStep_ends s).and (brgStep_halted s)) with
    ⟨v, u, ⟨rfl, hhalt⟩, rfl⟩ | ⟨e, u, ⟨rfl, -⟩, rfl⟩ | ⟨w, u, -, rfl⟩
  · exact .inl ⟨rfl, hhalt⟩
  · exact .inr ⟨rfl, rfl⟩
  · cases hw

/-! ## What each path may write -/

theorem ran_bridgeSend_emulated {s : State} (hm : s.mode = .emulated) (p : List Octet) :
    (bridgeSend p s).all (Ran State.withTap kindAny s) := by
  rw [bridgeSend_emulated hm]
  exact all_caught ((ran_tap2tty p s).mono fun _ h => h.widen fun _ _ => rfl)

theorem ran_bridgeSend_native {s : State} (hm : s.mode = .native) (p : List Octet) :
    (bridgeSend p s).all (Ran State.withNatTx kindAny s) := by
  rw [bridgeSend_native hm]
  exact all_caught ((ran_natTx _ p s).mono fun _ h => h.widen fun _ _ => rfl)

theorem ran_bridgeReceive_emulated {s : State} (hm : s.mode = .emulated) :
    (bridgeReceive s).all (Ran State.withDec kindAny s) := by
  rw [bridgeReceive_emulated hm]
  exact Ret.all.catching (Ran.trans frameFn_withDec) ((ran_decFrame s).mono fun _ h => h.widen fun _ _ => rfl)
    (fun n t _ => Ret.all.bind (Ran.trans frameFn_withDec) ((ran_netWrite _ t).mono fun _ h => h.widen fun _ _ => rfl)
      fun _ u _ => Ran.refl (fun _ => rfl) u)
    (fun t _ => Ran.refl (fun _ => rfl) t)

theorem ran_bridgeReceive_native {s : State} (hm : s.mode = .native) :
    (bridgeReceive s).all (Ran State.withNatRx kindAny s) := by
  rw [bridgeReceive_native hm]
  exact all_caught ((ran_natRx s).mono fun _ h => h.widen fun _ _ => rfl)

theorem passive_bridgeReceive (s : State) : (bridgeReceive s).all (Logs passive s) := by
  rcases eq_emulated_or_native s.mode with hm | hm
  · rw [bridgeReceive_emulated hm]
    exact Ret.all.catching Logs.trans (passive_decFrame s)
      (fun n t _ => Ret.all.bind Logs.trans ((aside_netWrite _ t).mono fun _ h => h.mono fun _ hx => hx.1)
        fun _ u _ => .of_same rfl)
      (fun t _ => .of_same rfl)
  · rw [bridgeReceive_native hm]
    exact all_caught (passive_natRx s)

/-! ## The octets each receive path stores to -/

/-- What is logged aside takes nothing, so the decoder stores nothing of it. -/
theorem storedBy_aside {c : Config} {s t u v : State} (h : Logs aside s t) {xs : List Xact}
    (htr : u.trace = t.trace ++ xs) (h' : Logs aside u v) : storedBy c (since s v) = storedBy c xs := by
  obtain ⟨as, ha, hka⟩ := h
  obtain ⟨bs, hb, hkb⟩ := h'
  have hv : v.trace = s.trace ++ (as ++ xs ++ bs) := by rw [hb, htr, ha]; simp
  have nothing {ys : List Xact} (hys : ∀ x ∈ ys, aside x) : ys.flatMap Xact.taken = [] :=
    List.flatMap_eq_nil_iff.2 fun x hx => (hys x hx).2
  rw [since_eq hv, storedBy, storedBy, List.flatMap_append, List.flatMap_append, nothing hka, nothing hkb]
  simp

theorem Logs.since_trace {K : Xact → Prop} {s t : State} (h : Logs K s t) : t.trace = s.trace ++ since s t := by
  obtain ⟨xs, hx, -⟩ := h
  rw [since_eq hx, hx]

/-- The receive path in Emulated mode stores what DEC.FRAME stores. -/
theorem bridgeReceive_emulated_agree {s t : State} (hm : t.mode = .emulated) (hst : Ran State.withChannels kindRx s t)
    (hlog : Logs aside s t) :
    (bridgeReceive t).all fun u => agreeOutside s.rxbuf u.rxbuf (· < storedBy s.cfg (since s u)) := by
  have hsame : t.rxbuf = s.rxbuf ∧ t.cfg = s.cfg := by
    rw [hst.frame]
    exact ⟨rfl, rfl⟩
  have hafter (u v : State) (hu : agreeOutside t.rxbuf u.rxbuf (· < storedBy t.cfg (since t u)))
      (htr : u.trace = t.trace ++ since t u) (huv : Logs aside u v) (hv : v.rxbuf = u.rxbuf) :
      agreeOutside s.rxbuf v.rxbuf (· < storedBy s.cfg (since s v)) := by
    rw [storedBy_aside hlog htr huv, hv]
    rwa [hsame.1, hsame.2] at hu
  have hdec := (decFrame_agree t).and (passive_decFrame t)
  rw [bridgeReceive_emulated hm]
  cases hd : decFrame t with
  | waiting w u =>
    rw [hd] at hdec
    exact hafter u u hdec.1 hdec.2.since_trace (.of_same rfl) rfl
  | raised e u =>
    rw [hd] at hdec
    exact hafter u u hdec.1 hdec.2.since_trace (.of_same rfl) rfl
  | done n u =>
    rw [hd] at hdec
    refine Ret.all.then (Q := fun v => agreeOutside s.rxbuf v.rxbuf (· < storedBy s.cfg (since s v)))
      ((aside_netWrite (Memory.prefixOf u.rxbuf n) u).and (ran_netWrite (Memory.prefixOf u.rxbuf n) u))
      (fun _ v hv => ?_) fun v hv => ?_
    · exact hafter u v hdec.1 hdec.2.since_trace hv.1 (by rw [hv.2.frame]; rfl)
    · exact hafter u v hdec.1 hdec.2.since_trace hv.1 (by rw [hv.2.frame]; rfl)

theorem bridgeReceive_native_agree {s t : State} (hm : t.mode = .native) (hst : Ran State.withChannels kindRx s t) :
    (bridgeReceive t).all fun u =>
      agreeOutside s.nbuf u.nbuf fun a => a < 2 ∨ (u.len.toNat ≤ s.cfg.mtu ∧ a < u.len.toNat) := by
  have hsame : t.nbuf = s.nbuf ∧ t.cfg = s.cfg := by
    rw [hst.frame]
    exact ⟨rfl, rfl⟩
  have h := natRx_agree t
  rw [hsame.1, hsame.2] at h
  rw [bridgeReceive_native hm]
  exact all_caught h

/-! ## BRG.STEP by its path -/

/-- Where BRG.STEP, or a piece of it, can have brought the state, by mode and by whether a frame was read from the
network interface. -/
def BridgeRan (s u : State) : Prop :=
  ((∃ r, Xact.netRead r ∈ since s u) ∧ (s.mode = .emulated → Ran State.withTap kindAny s u) ∧
      (s.mode = .native → Ran State.withNatTx kindAny s u)) ∨
    ((¬ ∃ r, Xact.netRead r ∈ since s u) ∧
      (s.mode = .emulated → Ran State.withDec kindAny s u ∧
        agreeOutside s.rxbuf u.rxbuf (· < storedBy s.cfg (since s u))) ∧
      (s.mode = .native → Ran State.withNatRx kindAny s u ∧
        agreeOutside s.nbuf u.nbuf fun a => a < 2 ∨ (u.len.toNat ≤ s.cfg.mtu ∧ a < u.len.toNat)))

theorem not_netRead_of_passive {s u : State} (h : Logs passive s u) : ¬ ∃ r, Xact.netRead r ∈ since s u :=
  fun ⟨r, hr⟩ => h.all_since (.netRead r) hr

/-- Nothing read yet: only the channels have changed. -/
theorem bridgeRan_of_channels {s u : State} (hr : Ran State.withChannels kindRx s u) (hl : Logs aside s u) :
    BridgeRan s u := by
  have hsame : u.rxbuf = s.rxbuf ∧ u.nbuf = s.nbuf := by
    rw [hr.frame]
    exact ⟨rfl, rfl⟩
  exact .inr ⟨not_netRead_of_passive (hl.mono fun _ hx => hx.1),
    fun _ => ⟨hr.widen fun _ _ => rfl, by rw [hsame.1]; exact .refl _ _⟩,
    fun _ => ⟨hr.widen fun _ _ => rfl, by rw [hsame.2]; exact .refl _ _⟩⟩

/-- NetRead is in the log from its turn on. -/
theorem netRead_log (s : State) : (netRead s).all fun t => ∃ r, t.trace = s.trace ++ turnLog s (.netRead r) := by
  refine all_orReset _ ?_
  split
  · exact ⟨none, List.append_assoc ..⟩
  · split
    next p _ _ => exact ⟨some p, List.append_assoc ..⟩
    next => exact ⟨none, List.append_assoc ..⟩

theorem mem_since_of_log {s t u : State} {xs ys : List Xact} {x : Xact} (h : t.trace = s.trace ++ xs) (hx : x ∈ xs)
    (h' : u.trace = t.trace ++ ys) : x ∈ since s u := by
  rw [since_eq (xs := xs ++ ys) (by rw [h', h, List.append_assoc])]
  exact List.mem_append_left _ hx

theorem brgStep_paths (s : State) : (brgStep s).all (BridgeRan s) := by
  have hready := (ran_anyReady (readyBudget s) s).and (aside_anyReady (readyBudget s) s)
  refine Ret.all.then (P := fun t => Ran State.withChannels kindRx s t ∧ Logs aside s t) hready (fun d t ht => ?_)
    fun t ht => bridgeRan_of_channels ht.1 ht.2
  obtain ⟨hran, hlog⟩ := ht
  have hmode : t.mode = s.mode := by rw [hran.frame]; rfl
  cases d with
  | net =>
    refine Ret.all.then
      (P := fun u => Ran State.withChannels kindRx s u ∧ ∃ xs r, u.trace = s.trace ++ xs ∧ Xact.netRead r ∈ xs) ?_
      (fun p u hu => ?_) fun u hu => ?_
    · refine ((ran_netRead t).and (netRead_log t)).mono fun u hu => ?_
      obtain ⟨hru, r, htr⟩ := hu
      exact ⟨Ran.trans frameFn_withChannels _ _ _ hran hru, since s t ++ turnLog t (.netRead r), r,
        by rw [htr, ← List.append_assoc, ← hlog.since_trace], by simp [turnLog]⟩
    · obtain ⟨hru, xs, r, htr, hmem⟩ := hu
      have hmu : u.mode = s.mode := by rw [hru.frame]; rfl
      rcases eq_emulated_or_native s.mode with hm | hm
      · refine (ran_bridgeSend_emulated (hmu.trans hm) p).mono fun v hv => .inl ⟨⟨r, ?_⟩, fun _ => ?_, ?_⟩
        · obtain ⟨ys, hy, -⟩ := hv.logged
          exact mem_since_of_log htr hmem hy
        · exact Ran.trans frameFn_withTap _ _ _ (hru.widen fun _ _ => rfl) hv
        · exact fun hn => by rw [hm] at hn; cases hn
      · refine (ran_bridgeSend_native (hmu.trans hm) p).mono fun v hv => .inl ⟨⟨r, ?_⟩, ?_, fun _ => ?_⟩
        · obtain ⟨ys, hy, -⟩ := hv.logged
          exact mem_since_of_log htr hmem hy
        · exact fun hn => by rw [hm] at hn; cases hn
        · exact Ran.trans frameFn_withNatTx _ _ _ (hru.widen fun _ _ => rfl) hv
    · obtain ⟨hru, xs, r, htr, hmem⟩ := hu
      exact .inl ⟨⟨r, mem_since_of_log htr hmem (List.append_nil _).symm⟩, fun _ => hru.widen fun _ _ => rfl,
        fun _ => hru.widen fun _ _ => rfl⟩
  | ser =>
    have hpass : (bridgeReceive t).all fun u => ¬ ∃ r, Xact.netRead r ∈ since s u :=
      (passive_bridgeReceive t).mono fun u hu =>
        not_netRead_of_passive (Logs.trans _ _ _ (hlog.mono fun _ hx => hx.1) hu)
    rcases eq_emulated_or_native s.mode with hm | hm
    · have hmt := hmode.trans hm
      refine (hpass.and ((ran_bridgeReceive_emulated hmt).and (bridgeReceive_emulated_agree hmt hran hlog))).mono
        fun u hu => ?_
      exact .inr ⟨hu.1, fun _ => ⟨Ran.trans frameFn_withDec _ _ _ (hran.widen fun _ _ => rfl) hu.2.1, hu.2.2⟩,
        fun hn => by rw [hm] at hn; cases hn⟩
    · have hmt := hmode.trans hm
      refine (hpass.and ((ran_bridgeReceive_native hmt).and (bridgeReceive_native_agree hmt hran))).mono fun u hu => ?_
      refine .inr ⟨hu.1, ?_, fun _ => ⟨Ran.trans frameFn_withNatRx _ _ _ (hran.widen fun _ _ => rfl) hu.2.1, hu.2.2⟩⟩
      exact fun hn => by rw [hm] at hn; cases hn

/-- The frame of a piece, seen from a state that differs in RESULT, the operation in progress and the stop. -/
theorem Ran.frame_close {f : State → State → State} {K : Xact → Prop} {s t : State} (hf : EndFn f)
    (hh : ∀ s t b, f s { t with halted := b } = f s t) (h : Ran f K s t) (r : Result) (w : Option Wait) (b : Bool) :
    ({ t with result := r, wait := w, halted := b } : State) =
      { f s { t with result := r, wait := w, halted := b } with wait := w, halted := b } := by
  rw [hh s { t with result := r, wait := w } b, hf.result]
  exact congrArg (fun x : State => { x with result := r, wait := w, halted := b }) h.frame

/-- What BRG.STEP did is seen in the next state too. -/
theorem bridgeFrame_of_ran {s u : State} (h : BridgeRan s u) (r : Result) (w : Option Wait) (b : Bool) :
    let t : State := { u with result := r, wait := w, halted := b }
    ((∃ r, Xact.netRead r ∈ since s t) →
      (s.mode = .emulated → t = { s.withTap t with wait := t.wait, halted := t.halted }) ∧
      (s.mode = .native → t = { s.withNatTx t with wait := t.wait, halted := t.halted })) ∧
    ((¬ ∃ r, Xact.netRead r ∈ since s t) →
      (s.mode = .emulated →
        t = { s.withDec t with wait := t.wait, halted := t.halted } ∧
          agreeOutside s.rxbuf t.rxbuf (· < storedBy s.cfg (since s t))) ∧
      (s.mode = .native →
        t = { s.withNatRx t with wait := t.wait, halted := t.halted } ∧
          agreeOutside s.nbuf t.nbuf fun a => a < 2 ∨ (t.len.toNat ≤ s.cfg.mtu ∧ a < t.len.toNat))) := by
  rcases h with ⟨hin, hemu, hnat⟩ | ⟨hout, hemu, hnat⟩
  · exact ⟨fun _ => ⟨fun hm => (hemu hm).frame_close endFn_withTap (fun _ _ _ => rfl) r w b,
      fun hm => (hnat hm).frame_close endFn_withNatTx (fun _ _ _ => rfl) r w b⟩, fun hn => absurd hin hn⟩
  · exact ⟨fun hin => absurd hin hout, fun _ =>
      ⟨fun hm => ⟨(hemu hm).1.frame_close endFn_withDec (fun _ _ _ => rfl) r w b, (hemu hm).2⟩,
        fun hm => ⟨(hnat hm).1.frame_close endFn_withNatRx (fun _ _ _ => rfl) r w b, (hnat hm).2⟩⟩⟩

/-- Settles O51: the paths of the body, and the three ways it closes. -/
theorem bridgeFrame : Obligations.BridgeFrame := by
  intro s t h
  rcases exec_cases h with ⟨ha, -⟩ | ⟨-, rfl⟩
  · have hwait := wait_of_accepts ha
    rcases brgStep_exec_cases ha h (((brgStep_ends s).and (brgStep_halted s)).and (brgStep_paths s)) with
      ⟨v, u, ⟨⟨-, hhalt⟩, hran⟩, rfl⟩ | ⟨e, u, ⟨⟨rfl, -⟩, hran⟩, rfl⟩ | ⟨w, u, ⟨⟨hw, hhalt⟩, hran⟩, rfl⟩
    · exact ⟨.inl (.inl hwait.symm), .inl hhalt, bridgeFrame_of_ran hran (.ok v) none u.halted⟩
    · exact ⟨.inl (.inl hwait.symm), .inr ⟨rfl, rfl⟩, bridgeFrame_of_ran hran (.err .ioError) none true⟩
    · refine ⟨?_, .inl hhalt, bridgeFrame_of_ran hran u.result (some w) u.halted⟩
      rcases hw with rfl | rfl | ⟨p, rfl⟩
      · exact .inr (.inl rfl)
      · exact .inl (.inr rfl)
      · exact .inr (.inr ⟨p, rfl⟩)
  · have hran : BridgeRan s s := bridgeRan_of_channels (Ran.refl (fun _ => rfl) s) (.of_same rfl)
    exact ⟨.inl (.inl rfl), .inl rfl, bridgeFrame_of_ran hran (.err .ioError) s.wait s.halted⟩

/-! ## Errors by operation -/

/-- The error the value-bearing form of a piece ends in is the piece's. -/
theorem raises_value {α : Type} {r : Ret α} {D : α → State → Prop} {E : Err → State → Prop} {W : Wait → State → Prop}
    {P : Err → Prop} (h : r.ends D E W) (hE : ∀ e s, E e s → P e) (g : α → Value) :
    (r.bind fun a s => .done (g a) s).ends (fun _ _ => True) (fun e _ => P e) (fun _ _ => True) :=
  (ends_value h g).mono (fun _ _ h => h) hE fun _ _ _ => trivial

theorem raises {r : Ret Value} {D : Value → State → Prop} {E : Err → State → Prop} {W : Wait → State → Prop}
    {P : Err → Prop} (h : r.ends D E W) (hE : ∀ e s, E e s → P e) :
    r.ends (fun _ _ => True) (fun e _ => P e) (fun _ _ => True) :=
  h.mono (fun _ _ _ => trivial) hE fun _ _ _ => trivial

/-- What R242 says of an error of an operation: the table, and no Timeout on the sense line without a limit. -/
def MayEndIn (c : Config) (i : Instr) (e : Err) : Prop :=
  e ∈ mayRaise i ∧ (c.natWaitLimit = none → (i = .sensePoll ∨ ∃ p, i = .natTx p) → e ≠ .timeout)

/-- For an operation that is not of the sense line the table is all. -/
theorem mayEndIn_of_mem {c : Config} {i : Instr} {e : Err} (h : e ∈ mayRaise i)
    (hi : i ≠ .sensePoll := by exact nofun) (hi' : ∀ p, i ≠ .natTx p := by exact nofun) : MayEndIn c i e :=
  ⟨h, fun _ hs => hs.elim (fun h => absurd h hi) fun ⟨p, h⟩ => absurd h (hi' p)⟩

theorem mem_timeout_ioError {e : Err} (h : e = .timeout ∨ e = .ioError) : e ∈ [Err.timeout, .ioError] := by
  rcases h with rfl | rfl <;> decide

theorem body_raises {i : Instr} (hi : formatOf i = .cmd4) (s : State) :
    (body i s).ends (fun _ _ => True) (fun e _ => MayEndIn s.cfg i e) (fun _ _ => True) := by
  cases i with
  | crcInit | crcUpdate | modeSet => trivial
  | flush => exact raises_value (flush_ends s) (fun e _ h => mayEndIn_of_mem (by rw [h]; decide)) _
  | txRaw o => exact raises_value (txRaw_ends o s) (fun _ _ h => mayEndIn_of_mem h) _
  | rxRaw => exact raises_value (rxRaw_ends s) (fun _ _ h => mayEndIn_of_mem (mem_timeout_ioError h)) _
  | encOctet b => exact raises_value (encOctet_ends b s) (fun _ _ h => mayEndIn_of_mem h) _
  | encFrame p => exact raises_value (encFrame_ends p s) (fun _ _ h => mayEndIn_of_mem h.1) _
  | decFrame => exact raises_value (decFrame_ends s) (fun _ _ h => mayEndIn_of_mem h.1) _
  | rdBytes k =>
    exact raises_value (readLoop_ends _ _ _) (fun _ _ h => mayEndIn_of_mem (mem_timeout_ioError h)) _
  | natRx => exact raises (natRx_ends s) fun _ _ h => mayEndIn_of_mem (mem_timeout_ioError h.1)
  | natTx p =>
    refine raises (natTx_ends _ p s) fun e _ h => ?_
    rcases h.1 with rfl | rfl | ⟨rfl, hlim⟩
    · exact ⟨by simp [mayRaise], fun _ _ => by decide⟩
    · exact ⟨by simp [mayRaise], fun _ _ => by decide⟩
    · exact ⟨by simp [mayRaise], fun hn => absurd hn hlim⟩
  | sensePoll =>
    refine raises_value (pollLoop_ends _ _ 0 s) (fun e _ h => ?_) _
    rcases h with rfl | ⟨rfl, hlim⟩
    · exact ⟨by decide, fun _ _ => by decide⟩
    · exact ⟨by decide, fun hn => absurd hn hlim⟩
  | tap2tty p => exact raises (tap2tty_ends p s) fun _ _ h => h.elim
  | brgStep => exact raises (brgStep_ends s) fun e _ h => mayEndIn_of_mem (by rw [h]; decide)
  | symEnd | symEsc | symData | symLit | stuffPlain | stuffEscaped | eframe | nframe | natLenOk | natLenOver =>
    cases hi

/-- Settles O44: an error in RESULT is the one the body ended in. -/
theorem errorsByOperation : Obligations.ErrorsByOperation := by
  intro i s t e ha hi h hw he
  obtain rfl := eq_of_exec ha h
  have hb := body_raises hi s
  have hclose : closing i = Ret.conclude ∨ i = .brgStep := by
    cases i with
    | brgStep => exact .inr rfl
    | symEsc | symData | symLit => cases hi
    | _ => exact .inl rfl
  rcases hclose with hc | rfl
  · rw [hc] at hw he
    rcases conclude_cases hb with ⟨v, u, -, heq⟩ | ⟨e', u, hE, heq⟩ | ⟨w, u, -, heq⟩ <;> rw [heq] at hw he
    · cases he
    · obtain rfl : e' = e := Result.err.inj he
      exact hE
    · cases hw
  · rcases concludeBridge_cases hb with ⟨v, u, -, heq⟩ | ⟨e', u, hE, heq⟩ | ⟨w, u, -, heq⟩ <;>
      rw [closing, heq] at hw he
    · cases he
    · obtain rfl : e' = e := Result.err.inj he
      exact hE
    · cases hw

/-! ## The modes kept apart -/

/-- Beside the channels, every register used only in Emulated mode (60_exceptions.md R258). -/
def State.withEmulated (s t : State) : State :=
  { s.withTap t with rxbuf := t.rxbuf, rxcnt := t.rxcnt, dstate := t.dstate }

theorem endFn_withEmulated : EndFn State.withEmulated :=
  ⟨⟨fun _ _ _ => rfl, fun _ _ => rfl⟩, fun _ => rfl, fun _ _ _ _ => rfl⟩

/-- The bodies of Native mode's instructions write only Native mode's registers. -/
theorem ran_body_native {i : Instr} (hi : isNative i = true) (s : State) :
    (body i s).all (Ran State.withNatRx kindAny s) := by
  cases i with
  | rdBytes k => exact all_value ((ran_rdBytes _ s).mono fun _ h => h.widen fun _ _ => rfl) _
  | natRx => exact (ran_natRx s).mono fun _ h => h.widen fun _ _ => rfl
  | natTx p => exact (ran_natTx _ p s).mono fun _ h => h.widen fun _ _ => rfl
  | sensePoll => exact all_value ((ran_sensePoll _ s).mono fun _ h => h.widen fun _ _ => rfl) _
  | nframe p => exact (ran_sendNFrame p s).mono fun _ h => h.widen fun _ _ => rfl
  | natLenOk n => exact (ran_natLenOk n s).mono fun _ h => h.widen fun _ _ => rfl
  | natLenOver n => exact (ran_natLenOver n s).mono fun _ h => h.widen fun _ _ => rfl
  | _ => cases hi

/-- The bodies of Emulated mode's instructions write only Emulated mode's registers. -/
theorem ran_body_emulated {i : Instr} (hi : isEmulated i = true) (s : State) :
    (body i s).all (Ran State.withEmulated kindAny s) := by
  cases i with
  | flush => exact all_value ((ran_flush s).mono fun _ h => h.widen fun _ _ => rfl) _
  | txRaw o => exact all_value ((ran_txRaw o s).mono fun _ h => h.widen fun _ _ => rfl) _
  | rxRaw => exact all_value ((ran_rxRaw s).mono fun _ h => h.widen fun _ _ => rfl) _
  | encOctet b => exact all_value ((ran_encOctet b s).mono fun _ h => h.widen fun _ _ => rfl) _
  | encFrame p => exact all_value ((ran_encFrame p s).mono fun _ h => h.widen fun _ _ => rfl) _
  | decFrame => exact all_value ((ran_decFrame s).mono fun _ h => h.widen fun _ _ => rfl) _
  | tap2tty p => exact (ran_tap2tty p s).mono fun _ h => h.widen fun _ _ => rfl
  | symEnd => exact all_value ((ran_symEnd s).mono fun _ h => h.widen fun _ _ => rfl) _
  | symEsc => exact Ran.of_write rfl rfl rfl rfl
  | symData o => exact all_value ((ran_storeOctet o s).mono fun _ h => h.widen fun _ _ => rfl) _
  | symLit o => exact all_value ((ran_symLit o s).mono fun _ h => h.widen fun _ _ => rfl) _
  | stuffPlain b => exact all_value ((ran_txRaw b s).mono fun _ h => h.widen fun _ _ => rfl) _
  | stuffEscaped b => exact all_value ((ran_sendEscaped b s).mono fun _ h => h.widen fun _ _ => rfl) _
  | eframe p => exact all_value ((ran_sendFrame p s).mono fun _ h => h.widen fun _ _ => rfl) _
  | _ => cases hi

theorem sameEmulated_of_ran {K : Xact → Prop} {s t : State} (h : Ran State.withNatRx K s t) : sameEmulated s t := by
  rw [h.frame]
  exact ⟨rfl, rfl, rfl, rfl, rfl, rfl, rfl, rfl⟩

theorem sameNative_of_ran {K : Xact → Prop} {s t : State} (h : Ran State.withEmulated K s t) : sameNative s t := by
  rw [h.frame]
  exact ⟨rfl, rfl, rfl, rfl⟩

/-- BRG.STEP leaves alone the registers of the mode it is not in. -/
theorem brgStep_sameEmulated {s : State} (hm : s.mode = .native) : (brgStep s).all (sameEmulated s) :=
  (brgStep_paths s).mono fun _ h => h.elim (fun h => sameEmulated_of_ran ((h.2.2 hm).widen fun _ _ => rfl))
    fun h => sameEmulated_of_ran (h.2.2 hm).1

theorem brgStep_sameNative {s : State} (hm : s.mode = .emulated) : (brgStep s).all (sameNative s) :=
  (brgStep_paths s).mono fun _ h => h.elim
    (fun h => sameNative_of_ran (K := kindAny) ((h.2.1 hm).widen fun _ _ => rfl))
    fun h => sameNative_of_ran (K := kindAny) ((h.2.1 hm).1.widen fun _ _ => rfl)

/-- What holds of every end of BRG.STEP's body, of a refusal, and whatever RESULT, the wait and the stop are. -/
theorem prop_of_exec_brgStep {s t : State} {P : State → Prop} (h : exec .brgStep s = .next t) (hb : (brgStep s).all P)
    (hs : P s) (hP : ∀ (t : State) r w b, P t → P { t with result := r, wait := w, halted := b }) : P t := by
  rcases exec_cases h with ⟨ha, -⟩ | ⟨-, rfl⟩
  · rcases brgStep_exec_cases ha h hb with ⟨v, u, hu, rfl⟩ | ⟨e, u, hu, rfl⟩ | ⟨w, u, hu, rfl⟩
    · exact hP u _ _ u.halted hu
    · exact hP u _ _ _ hu
    · exact hP u u.result _ u.halted hu
  · exact hP s _ s.wait s.halted hs

/-- Settles O45: the frames of the bodies by mode; BRG.STEP by its paths. -/
theorem modesKeepApart : Obligations.ModesKeepApart := by
  intro i s t h
  refine ⟨fun hi => ?_, fun hi => ?_, ?_, ?_⟩
  · have hl := left_of_exec h (by rintro rfl; cases hi) endFn_withNatRx (ran_body_native hi s)
    rw [hl.frame]
    exact ⟨rfl, rfl, rfl, rfl, rfl, rfl, rfl, rfl⟩
  · have hl := left_of_exec h (by rintro rfl; cases hi) endFn_withEmulated (ran_body_emulated hi s)
    rw [hl.frame]
    exact ⟨rfl, rfl, rfl, rfl⟩
  · rintro rfl hm
    exact prop_of_exec_brgStep h (brgStep_sameEmulated hm) ⟨rfl, rfl, rfl, rfl, rfl, rfl, rfl, rfl⟩ fun _ _ _ _ hp => hp
  · rintro rfl hm
    exact prop_of_exec_brgStep h (brgStep_sameNative hm) ⟨rfl, rfl, rfl, rfl⟩ fun _ _ _ _ hp => hp

end Sys2Proof.Machine
end

section
/-! SUPPORT. What a step can do, said once, and what every step keeps: the parameters, MODE once set, WIRE and the log
(spec/10_state.md R32, R35, 20_memory.md R56); where the invariant holds to begin with. -/

namespace Sys2Proof.Machine

/-! ## Steps -/

/-- What a step that answers a next state did. -/
theorem step_cases {s t : State} (h : step s = .next t) :
    (s.issue.head? = some .reset ∧ t = s.popIssue.resetInput) ∨
    (∃ w, s.issue.head? ≠ some .reset ∧ s.wait = some w ∧ t = resume w s) ∨
    (s.issue.head? ≠ some .reset ∧ s.wait = none ∧
      (t = s ∨ t = s.popIssue.refuse ∨ (∃ i, exec i s.popIssue = .next t) ∨ exec .brgStep s = .next t)) := by
  by_cases hi : s.issue.head? = some .reset
  · exact .inl ⟨hi, by simpa [step, hi] using h.symm⟩
  · have hhalt : s.halted = false := by
      cases hh : s.halted with
      | false => rfl
      | true => simp [step, hi, hh] at h
    refine .inr ?_
    cases hw : s.wait with
    | some w =>
      rw [step_of_wait hi hhalt hw] at h
      exact .inl ⟨w, hi, rfl, (Host.Outcome.next.inj h).symm⟩
    | none =>
      rw [step_of_idle hi hhalt hw] at h
      refine .inr ⟨hi, rfl, ?_⟩
      unfold issueNext at h
      split at h
      · exact .inl (Host.Outcome.next.inj h).symm
      · unfold runWord at h
        split at h
        next i _ => exact .inr (.inr (.inl ⟨i, h⟩))
        next f _ _ _ _ _ _ =>
          cases f with
          | cmd4 => exact .inr (.inl (Host.Outcome.next.inj h).symm)
          | sym8 | stuff | eframe | len16 | nframe => cases h
      · exact .inr (.inr (.inr h))
      next heq => exact absurd (by rw [heq]; rfl) hi

/-- An operation in progress goes on as the instruction it was, or as the transmit path of BRG.STEP. -/
theorem resume_sense (s : State) : resume .sense s = closing .sensePoll (body .sensePoll s) := rfl
theorem resume_natTx (p : List Octet) (s : State) : resume (.natTx p) s = closing (.natTx p) (body (.natTx p) s) := rfl
theorem resume_brgAny (s : State) : resume .brgAny s = closing .brgStep (body .brgStep s) := rfl

/-! ## What every step but a reset keeps -/

/-- The parameters, MODE once set, and what WIRE and the log had. -/
def Kept (s t : State) : Prop :=
  t.cfg = s.cfg ∧ (s.modeSet = true → t.mode = s.mode ∧ t.modeSet = true) ∧ s.wire <+: t.wire ∧ s.trace <+: t.trace

/-- Every body but MODE.SET's writes the registers of the two modes at most. -/
theorem ran_body {i : Instr} (hi : ∀ m, i ≠ .modeSet m) (s : State) : (body i s).all (Ran State.withBridge kindAny s) := by
  cases he : isEmulated i with
  | true => exact (ran_body_emulated he s).mono fun _ h => h.widen fun _ _ => rfl
  | false =>
    cases hn : isNative i with
    | true => exact (ran_body_native hn s).mono fun _ h => h.widen fun _ _ => rfl
    | false =>
      cases i with
      | crcInit => exact Ran.of_write rfl rfl rfl rfl
      | crcUpdate o => exact Ran.of_write rfl rfl rfl rfl
      | brgStep => exact ran_brgStep s
      | modeSet m => exact absurd rfl (hi m)
      | flush | txRaw | rxRaw | encOctet | encFrame | decFrame | tap2tty | symEnd | symEsc | symData | symLit
      | stuffPlain | stuffEscaped | eframe => cases he
      | rdBytes | natRx | natTx | sensePoll | nframe | natLenOk | natLenOver => cases hn

theorem kept_of_ran {K : Xact → Prop} {s t : State} (h : Ran State.withBridge K s t) : Kept s t := by
  obtain ⟨xs, htr, hw, -⟩ := h.logged
  refine ⟨by rw [h.frame]; rfl, fun hm => ?_, hw ▸ List.prefix_append _ _, htr ▸ List.prefix_append _ _⟩
  rw [h.frame]
  exact ⟨rfl, hm⟩

/-- Closing writes none of these. -/
theorem Kept.close {s t : State} (h : Kept s t) (r : Result) (w : Option Wait) (b : Bool) :
    Kept s { t with result := r, wait := w, halted := b } := h

theorem all_concludeBridge {r : Ret Value} {P : State → Prop} (h : r.all P)
    (hP : ∀ (t : State) r w b, P t → P { t with result := r, wait := w, halted := b }) : P (concludeBridge r) := by
  cases r with
  | done v t => exact hP t _ _ t.halted h
  | raised e t => exact hP t _ _ _ h
  | waiting w t => exact hP t t.result _ t.halted h

theorem all_concludeInner {r : Ret Value} {P : State → Prop} (h : r.all P)
    (hP : ∀ (t : State) r w b, P t → P { t with result := r, wait := w, halted := b }) : P r.concludeInner := by
  cases r with
  | done v t => exact hP t t.result t.wait t.halted h
  | raised e t => exact hP t _ _ t.halted h
  | waiting w t => exact hP t t.result _ t.halted h

theorem all_closing {i : Instr} {r : Ret Value} {P : State → Prop} (h : r.all P)
    (hP : ∀ (t : State) r w b, P t → P { t with result := r, wait := w, halted := b }) : P (closing i r) := by
  unfold closing
  split
  · exact all_concludeBridge h hP
  · exact all_concludeInner h hP
  · exact all_concludeInner h hP
  · exact all_concludeInner h hP
  · exact all_conclude h fun t r w => hP t r w t.halted

theorem kept_of_exec {i : Instr} {s t : State} (h : exec i s = .next t) : Kept s t := by
  rcases exec_cases h with ⟨ha, rfl⟩ | ⟨-, rfl⟩
  · by_cases hm : ∃ m, i = .modeSet m
    · obtain ⟨m, rfl⟩ := hm
      have hset : s.modeSet = false := by simpa [accepts] using (Bool.and_eq_true_iff.1 ha).2
      refine ⟨rfl, fun hs => ?_, List.prefix_refl _, List.prefix_refl _⟩
      rw [hset] at hs
      cases hs
    · exact all_closing ((ran_body (fun m hi => hm ⟨m, hi⟩) s).mono fun _ => kept_of_ran) fun _ r w b h => h.close r w b
  · exact ⟨rfl, fun hm => ⟨rfl, hm⟩, List.prefix_refl _, List.prefix_refl _⟩

theorem kept_of_resume {w : Wait} (hw : w ≠ .reset) (s : State) : Kept s (resume w s) := by
  have hclose (i : Instr) (hi : ∀ m, i ≠ .modeSet m) : Kept s (closing i (body i s)) :=
    all_closing ((ran_body hi s).mono fun _ => kept_of_ran) fun _ r w b h => h.close r w b
  cases w with
  | sense => exact hclose .sensePoll nofun
  | natTx p => exact hclose (.natTx p) nofun
  | brgAny => exact hclose .brgStep nofun
  | brgTx p =>
    refine all_concludeBridge (all_caught ((ran_natTx (.brgTx p) p s).mono fun _ h => ?_)) fun _ r w b h => h.close r w b
    exact kept_of_ran (K := kindAny) (h.widen fun _ _ => rfl)
  | reset => exact absurd rfl hw

/-- Any step but a reset. -/
theorem kept_of_step {s t : State} (h : step s = .next t) (hi : s.issue.head? ≠ some .reset)
    (hw : s.wait ≠ some .reset) : Kept s t := by
  rcases step_cases h with ⟨hr, -⟩ | ⟨w, -, hws, rfl⟩ | ⟨-, -, rfl | rfl | ⟨i, he⟩ | he⟩
  · exact absurd hr hi
  · exact kept_of_resume (fun hh => hw (hh ▸ hws)) s
  · exact ⟨rfl, fun hm => ⟨rfl, hm⟩, List.prefix_refl _, List.prefix_refl _⟩
  · exact ⟨rfl, fun hm => ⟨rfl, hm⟩, List.prefix_refl _, List.prefix_refl _⟩
  · exact kept_of_exec (s := s.popIssue) he
  · exact kept_of_exec he

/-- Settles O52: the parameters outlast even a reset. -/
theorem modeFixedUntilReset : Obligations.ModeFixedUntilReset := by
  intro s t h
  refine ⟨?_, fun hm hi hw => (kept_of_step h hi hw).2.1 hm⟩
  by_cases hi : s.issue.head? = some .reset
  · obtain rfl : t = s.popIssue.resetInput := by simpa [step, hi] using h.symm
    rfl
  · by_cases hw : s.wait = some .reset
    · rcases step_cases h with ⟨hr, -⟩ | ⟨w, -, hws, rfl⟩ | ⟨-, hn, -⟩
      · exact absurd hr hi
      · obtain rfl : w = .reset := Option.some.inj (hws.symm.trans hw)
        rfl
      · rw [hn] at hw
        cases hw
    · exact (kept_of_step h hi hw).1

/-- The bodies without a SerWrite leave WIRE alone. -/
theorem body_wire {i : Instr} (hi : transmits i = false) (s : State) : (body i s).all fun t => t.wire = s.wire := by
  cases i with
  | crcInit | crcUpdate | modeSet | symEsc => rfl
  | flush => exact all_value ((ran_flush s).mono fun _ h => h.wire_eq fun _ hx => hx.1) _
  | rxRaw => exact all_value ((ran_rxRaw s).mono fun _ h => h.wire_eq fun _ hx => hx.1) _
  | decFrame => exact all_value ((ran_decFrame s).mono fun _ h => h.wire_eq fun _ hx => hx.1) _
  | rdBytes k => exact all_value ((ran_rdBytes _ s).mono fun _ h => h.wire_eq fun _ hx => hx.1) _
  | natRx => exact (ran_natRx s).mono fun _ h => h.wire_eq fun _ hx => hx.1
  | sensePoll => exact all_value ((ran_sensePoll _ s).mono fun _ h => h.wire_eq fun _ hx => hx.1) _
  | symEnd => exact all_value ((ran_symEnd s).mono fun _ h => h.wire_eq fun _ hx => hx.1) _
  | symData o => exact all_value ((ran_storeOctet o s).mono fun _ h => h.wire_eq fun _ hx => hx.1) _
  | symLit o => exact all_value ((ran_symLit o s).mono fun _ h => h.wire_eq fun _ hx => hx.1) _
  | natLenOk n => exact (ran_natLenOk n s).mono fun _ h => h.wire_eq fun _ hx => hx.1
  | natLenOver n => exact (ran_natLenOver n s).mono fun _ h => h.wire_eq fun _ hx => hx.1
  | txRaw | encOctet | encFrame | natTx | tap2tty | brgStep | stuffPlain | stuffEscaped | eframe | nframe => cases hi

/-- Settles O53: every piece only appends to WIRE and the log; the bodies without a SerWrite append nothing to WIRE. -/
theorem wireOnlyGrows : Obligations.WireOnlyGrows := by
  refine ⟨fun s t h hi hw => (kept_of_step h hi hw).2.2, fun i s t h hi => ?_⟩
  rcases exec_cases h with ⟨-, rfl⟩ | ⟨-, rfl⟩
  · exact all_closing (P := fun t => t.wire = s.wire) (body_wire hi s) fun _ _ _ _ h => h
  · rfl

/-! ## The invariant -/

/-- Settles O54: every clause is about reset values. -/
theorem resetMeetsInvariant : Obligations.ResetMeetsInvariant where
  cfgOk := ⟨by decide, rfl, rfl, by decide⟩
  rxbufWf := ⟨List.Pairwise.nil, nofun⟩
  rxbufIn := nofun
  nbufWf := ⟨List.Pairwise.nil, nofun⟩
  nbufIn := nofun
  rxcntIn := Nat.zero_le _
  ncntIn := Nat.zero_le _
  txidxIn := Nat.zero_le _
  attemptIn := Nat.zero_le _
  decoderAtRest := .inr (.inl rfl)
  decoded := ⟨nofun, nofun⟩
  encoderAtRest := .inr (.inl rfl)
  waitOk := .inl rfl
  netInFits := nofun
  wireLogged := rfl

/-- The reset input leaves what reset does, and the parameters and the network interface's queue. -/
theorem stateInv_resetInput {s : State} (h : StateInv s) : StateInv s.resetInput where
  cfgOk := h.cfgOk
  rxbufWf := ⟨List.Pairwise.nil, nofun⟩
  rxbufIn := nofun
  nbufWf := ⟨List.Pairwise.nil, nofun⟩
  nbufIn := nofun
  rxcntIn := Nat.zero_le _
  ncntIn := Nat.zero_le _
  txidxIn := Nat.zero_le _
  attemptIn := Nat.zero_le _
  decoderAtRest := .inr (.inl rfl)
  decoded := ⟨nofun, nofun⟩
  encoderAtRest := .inr (.inl rfl)
  waitOk := .inl rfl
  netInFits := h.netInFits
  wireLogged := rfl

/-- The invariant does not look at RESULT, the host's stop or what is still to issue. -/
theorem StateInv.close {s : State} (h : StateInv s) (r : Result) (b : Bool) (is : List Issue) :
    StateInv { s with result := r, halted := b, issue := is } where
  cfgOk := h.cfgOk
  rxbufWf := h.rxbufWf
  rxbufIn := h.rxbufIn
  nbufWf := h.nbufWf
  nbufIn := h.nbufIn
  rxcntIn := h.rxcntIn
  ncntIn := h.ncntIn
  txidxIn := h.txidxIn
  attemptIn := h.attemptIn
  decoderAtRest := h.decoderAtRest
  decoded := h.decoded
  encoderAtRest := h.encoderAtRest
  waitOk := h.waitOk
  netInFits := h.netInFits
  wireLogged := h.wireLogged

end Sys2Proof.Machine
end

section
/-! SUPPORT. Every step keeps the invariant (spec/10_state.md section 11): each operation's body ends where it holds. -/

namespace Sys2Proof.Machine

/-! ## Where an operation starts and ends -/

/-- The native transport is at rest. -/
abbrev nativeAtRest (s : State) : Prop := s.nstate = .idle ∨ s.nstate = .done ∨ s.nstate = .failed

/-- `u` is a state in which a piece may end, with `w` in progress. -/
abbrev InvWith (w : Option Wait) (u : State) : Prop := StateInv { u with wait := w }

/-- What an operation finds of the invariant where it starts, whatever the native transport is at: nothing of the codec
is in progress. -/
abbrev Settled (s : State) : Prop := StateInv { s with wait := none, nstate := .idle }

/-- Where every operation but a resumed NAT.TX starts: MODE.SET is done, and the native transport is at rest too. -/
structure Calm (s : State) : Prop where
  settled : Settled s
  modeSet : s.modeSet = true
  rest : nativeAtRest s

theorem settled_of_stateInv {s : State} (h : StateInv s) (hdue : s.wait ≠ some .reset) : Settled s :=
  { h with
    decoderAtRest := .inr (h.decoderAtRest.resolve_left hdue)
    encoderAtRest := .inr (h.encoderAtRest.resolve_left hdue)
    waitOk := .inl rfl }

theorem calm_of_invWith {s : State} (h : InvWith none s) (hset : s.modeSet = true) : Calm s :=
  ⟨settled_of_stateInv (s := { s with wait := none }) h nofun, hset, h.waitOk⟩

theorem calm_of_accepts {i : Instr} {s : State} (h : StateInv s) (ha : accepts i s = true) (hm : ∀ m, i ≠ .modeSet m) :
    Calm s := by
  have hw := wait_of_accepts ha
  have hrest := h.waitOk
  rw [waitFits, hw] at hrest
  exact ⟨settled_of_stateInv h (by rw [hw]; nofun), modeSet_of_accepts ha hm, hrest⟩

/-- What a frame's transactions keep of the invariant by themselves. -/
theorem common_of_ran {f : State → State → State} {K : Xact → Prop} {s u : State} (hf : FrameFn f) (h : Ran f K s u)
    (hs : Settled s) :
    u.cfg = s.cfg ∧ (∀ p ∈ u.netIn, p.length ≤ u.cfg.mtu) ∧ u.wire = wireOf u.trace := by
  have hcfg : u.cfg = s.cfg := by
    rw [h.frame]
    exact hf.cfg s u
  obtain ⟨xs, htr, hw, -⟩ := h.logged
  refine ⟨hcfg, ?_, ?_⟩
  · rw [hcfg]
    exact h.net hs.netInFits
  · rw [hw, htr, wireOf_append, hs.wireLogged]

theorem waitFits_rest {u : State} {w : Option Wait} (hset : u.modeSet = true) (hrest : nativeAtRest u)
    (hw : w = none ∨ w = some .reset ∨ w = some .brgAny) : waitFits { u with wait := w } := by
  rcases hw with rfl | rfl | rfl
  · exact hrest
  · exact hset
  · exact ⟨hset, hrest⟩

/-- An end on the transmit path in Emulated mode. -/
theorem invWith_of_tap {K : Xact → Prop} {s u : State} {w : Option Wait} (hs : Calm s) (h : Ran State.withTap K s u)
    (hidx : u.txidx ≤ s.cfg.mtu) (hatt : u.attempt ≤ s.cfg.retryMax)
    (hw : w = some .reset ∨ ((w = none ∨ w = some .brgAny) ∧
      (u.txphase = .idle ∨ u.txphase = .done ∨ u.txphase = .failed))) : InvWith w u := by
  obtain ⟨hcfg, hnet, hwire⟩ := common_of_ran frameFn_withTap h hs.settled
  obtain ⟨hrx, hcnt, hds, hnb, hnc, hns, hset⟩ : u.rxbuf = s.rxbuf ∧ u.rxcnt = s.rxcnt ∧ u.dstate = s.dstate ∧
      u.nbuf = s.nbuf ∧ u.ncnt = s.ncnt ∧ u.nstate = s.nstate ∧ u.modeSet = s.modeSet := by
    rw [h.frame]
    exact ⟨rfl, rfl, rfl, rfl, rfl, rfl, rfl⟩
  exact {
    cfgOk := by simpa only [hcfg] using hs.settled.cfgOk
    rxbufWf := by simpa only [hrx] using hs.settled.rxbufWf
    rxbufIn := by simpa only [hrx, hcfg] using hs.settled.rxbufIn
    nbufWf := by simpa only [hnb] using hs.settled.nbufWf
    nbufIn := by simpa only [hnb, hcfg] using hs.settled.nbufIn
    rxcntIn := by simpa only [hcnt, hcfg] using hs.settled.rxcntIn
    ncntIn := by simpa only [hnc, hcfg] using hs.settled.ncntIn
    txidxIn := by simpa only [hcfg] using hidx
    attemptIn := by simpa only [hcfg] using hatt
    decoderAtRest := .inr (by simpa only [hds] using hs.settled.decoderAtRest.resolve_left nofun)
    decoded := by simpa only [hds, hcnt] using hs.settled.decoded
    encoderAtRest := hw.imp id And.right
    waitOk := waitFits_rest (hset.trans hs.modeSet) (by simpa only [nativeAtRest, hns] using hs.rest)
      (hw.elim (fun h => .inr (.inl h)) fun h => h.1.imp id .inr)
    netInFits := hnet
    wireLogged := hwire }

/-- An end of DEC.FRAME. -/
theorem invWith_of_dec {K : Xact → Prop} {s u : State} {w : Option Wait} (hs : Calm s) (h : Ran State.withDec K s u)
    (hfits : rxFits u) (hw : (w = some .reset ∧ u.dstate ≠ .done ∧ u.dstate ≠ .failed) ∨
      (w = none ∧ ((u.dstate = .done ∧ 2 ≤ u.rxcnt) ∨ (u.dstate = .failed ∧ u.rxcnt = 0)))) : InvWith w u := by
  obtain ⟨hcfg, hnet, hwire⟩ := common_of_ran frameFn_withDec h hs.settled
  obtain ⟨hidx, hatt, hph, hnb, hnc, hns, hset⟩ : u.txidx = s.txidx ∧ u.attempt = s.attempt ∧ u.txphase = s.txphase ∧
      u.nbuf = s.nbuf ∧ u.ncnt = s.ncnt ∧ u.nstate = s.nstate ∧ u.modeSet = s.modeSet := by
    rw [h.frame]
    exact ⟨rfl, rfl, rfl, rfl, rfl, rfl, rfl⟩
  exact {
    cfgOk := by simpa only [hcfg] using hs.settled.cfgOk
    rxbufWf := hfits.1
    rxbufIn := hfits.2.1
    nbufWf := by simpa only [hnb] using hs.settled.nbufWf
    nbufIn := by simpa only [hnb, hcfg] using hs.settled.nbufIn
    rxcntIn := hfits.2.2
    ncntIn := by simpa only [hnc, hcfg] using hs.settled.ncntIn
    txidxIn := by simpa only [hidx, hcfg] using hs.settled.txidxIn
    attemptIn := by simpa only [hatt, hcfg] using hs.settled.attemptIn
    decoderAtRest := hw.imp And.left fun h => .inr (h.2.imp And.left And.left)
    decoded := by
      rcases hw with ⟨-, hnd, hnf⟩ | ⟨-, ⟨hd, hc⟩ | ⟨hd, hc⟩⟩
      · exact ⟨fun h => absurd h hnd, fun h => absurd h hnf⟩
      · exact ⟨fun _ => hc, fun h => by simp [hd] at h⟩
      · exact ⟨fun h => by simp [hd] at h, fun _ => hc⟩
    encoderAtRest := .inr (by simpa only [hph] using hs.settled.encoderAtRest.resolve_left nofun)
    waitOk := waitFits_rest (hset.trans hs.modeSet) (by simpa only [nativeAtRest, hns] using hs.rest)
      (hw.elim (fun h => .inr (.inl h.1)) fun h => .inl h.1)
    netInFits := hnet
    wireLogged := hwire }

/-- An end of a native operation. -/
theorem invWith_of_native {K : Xact → Prop} {s u : State} {w : Option Wait} (hs : Settled s)
    (h : Ran State.withNatRx K s u) (hfits : nFits u)
    (hw : waitFits { u with wait := w }) : InvWith w u := by
  obtain ⟨hcfg, hnet, hwire⟩ := common_of_ran frameFn_withNatRx h hs
  obtain ⟨hrx, hcnt, hds, hidx, hatt, hph⟩ : u.rxbuf = s.rxbuf ∧ u.rxcnt = s.rxcnt ∧ u.dstate = s.dstate ∧
      u.txidx = s.txidx ∧ u.attempt = s.attempt ∧ u.txphase = s.txphase := by
    rw [h.frame]
    exact ⟨rfl, rfl, rfl, rfl, rfl, rfl⟩
  exact {
    cfgOk := by simpa only [hcfg] using hs.cfgOk
    rxbufWf := by simpa only [hrx] using hs.rxbufWf
    rxbufIn := by simpa only [hrx, hcfg] using hs.rxbufIn
    nbufWf := hfits.1
    nbufIn := hfits.2.1
    rxcntIn := by simpa only [hcnt, hcfg] using hs.rxcntIn
    ncntIn := hfits.2.2
    txidxIn := by simpa only [hidx, hcfg] using hs.txidxIn
    attemptIn := by simpa only [hatt, hcfg] using hs.attemptIn
    decoderAtRest := .inr (by simpa only [hds] using hs.decoderAtRest.resolve_left nofun)
    decoded := by simpa only [hds, hcnt] using hs.decoded
    encoderAtRest := .inr (by simpa only [hph] using hs.encoderAtRest.resolve_left nofun)
    waitOk := hw
    netInFits := hnet
    wireLogged := hwire }

/-! ## Pieces -/

/-- Wherever the piece ends the invariant holds, with what is then left in progress. -/
def Keeps {α : Type} (r : Ret α) : Prop :=
  r.ends (fun _ => InvWith none) (fun _ => InvWith none) fun w => InvWith (some w)

theorem keeps_value {α : Type} {r : Ret α} (h : Keeps r) (g : α → Value) :
    Keeps (r.bind fun a s => .done (g a) s) := (ends_bind_value r g _ _ _).2 h

/-- `catch` gives every end a value. -/
theorem keeps_catching {α : Type} {r : Ret α} (h : Keeps r) (v : Value) :
    Keeps (r.catching (fun _ s => .done v s) fun s => .done v s) := by cases r <;> exact h

theorem stateInv_conclude {r : Ret Value} (h : Keeps r) : StateInv r.conclude := by
  cases r with
  | done v t => exact StateInv.close h (.ok v) t.halted t.issue
  | raised e t => exact StateInv.close h (.err e) t.halted t.issue
  | waiting w t => exact h

theorem stateInv_concludeBridge {r : Ret Value} (h : Keeps r) : StateInv (concludeBridge r) := by
  cases r with
  | done v t => exact StateInv.close h (.ok v) t.halted t.issue
  | raised e t => exact StateInv.close h (.err e) true t.issue
  | waiting w t => exact h

section pieces

variable {α : Type} {s : State}

/-- Transactions alone leave a calm state calm. -/
theorem calm_of_channels {K : Xact → Prop} {t : State} (hs : Calm s) (h : Ran State.withChannels K s t) : Calm t := by
  have hset : t.modeSet = s.modeSet := by rw [h.frame]; rfl
  have hkept : t.txidx = s.txidx ∧ t.attempt = s.attempt ∧ t.txphase = s.txphase ∧ t.cfg = s.cfg := by
    rw [h.frame]
    exact ⟨rfl, rfl, rfl, rfl⟩
  obtain ⟨hidx, hatt, hph, hcfg⟩ := hkept
  refine calm_of_invWith (invWith_of_tap (K := K) hs (h.widen fun _ _ => rfl) (by rw [hidx]; exact hs.settled.txidxIn)
    (by rw [hatt]; exact hs.settled.attemptIn) (.inr ⟨.inl rfl, ?_⟩)) (hset.trans hs.modeSet)
  rw [hph]
  exact hs.settled.encoderAtRest.resolve_left nofun

/-- A calm state may be an operation's end, or where a reset has cut it or BRG.STEP waits. -/
theorem Calm.invWith {w : Option Wait} (hs : Calm s) (hw : w = none ∨ w = some .reset ∨ w = some .brgAny) :
    InvWith w s := by
  refine invWith_of_tap (K := kindAny) hs (Ran.refl (fun _ => rfl) s) hs.settled.txidxIn hs.settled.attemptIn ?_
  have hrest := hs.settled.encoderAtRest.resolve_left nofun
  rcases hw with rfl | rfl | rfl
  · exact .inr ⟨.inl rfl, hrest⟩
  · exact .inl rfl
  · exact .inr ⟨.inr rfl, hrest⟩

/-- A piece of transactions alone. -/
theorem keeps_of_channels {K : Xact → Prop} {r : Ret α} {D : α → State → Prop} {E : Err → State → Prop} (hs : Calm s)
    (hran : r.all (Ran State.withChannels K s)) (hends : r.ends D E fun w _ => w = .reset ∨ w = .brgAny) : Keeps r :=
  (hends.and hran).mono (fun _ _ h => (calm_of_channels hs h.2).invWith (.inl rfl))
    (fun _ _ h => (calm_of_channels hs h.2).invWith (.inl rfl))
    fun _ _ h => (calm_of_channels hs h.2).invWith (.inr (h.1.imp (congrArg some) (congrArg some)))

/-- A piece that transmits octets. -/
theorem keeps_of_tx {K : Xact → Prop} {r : Ret α} {D : α → State → Prop} {E : Err → State → Prop} (hs : Calm s)
    (hran : r.all (Ran State.withTx K s)) (hends : r.ends D E fun w _ => w = .reset) : Keeps r := by
  have hend {w : Option Wait} {t : State} (hw : w = none ∨ w = some .reset) (h : Ran State.withTx K s t) :
      InvWith w t := by
    have hkept : t.txidx = s.txidx ∧ t.attempt = s.attempt ∧ t.txphase = s.txphase := by
      rw [h.frame]
      exact ⟨rfl, rfl, rfl⟩
    obtain ⟨hidx, hatt, hph⟩ := hkept
    refine invWith_of_tap (K := K) hs (h.widen fun _ _ => rfl) (by rw [hidx]; exact hs.settled.txidxIn)
      (by rw [hatt]; exact hs.settled.attemptIn) (hw.symm.imp id fun hn => ⟨.inl hn, ?_⟩)
    rw [hph]
    exact hs.settled.encoderAtRest.resolve_left nofun
  exact (hends.and hran).mono (fun _ _ h => hend (.inl rfl) h.2) (fun _ _ h => hend (.inl rfl) h.2)
    fun _ _ h => hend (.inr (congrArg some h.1)) h.2

theorem keeps_encFrame (hs : Calm s) {p : List Octet} (hp : p.length ≤ s.cfg.mtu) : Keeps (encFrame p s) := by
  have hend {w : Option Wait} {t : State} (hidx : t.txidx = s.txidx ∨ t.txidx < p.length)
      (h : Ran State.withEnc kindTx s t)
      (hw : w = some .reset ∨ (w = none ∧ (t.txphase = .done ∨ t.txphase = .failed))) : InvWith w t := by
    have hatt : t.attempt = s.attempt := by rw [h.frame]; rfl
    have hin := hs.settled.txidxIn
    exact invWith_of_tap (K := kindTx) hs (h.widen fun _ _ => rfl) (hidx.elim (fun h => h ▸ hin) fun h => by omega)
      (by rw [hatt]; exact hs.settled.attemptIn) (hw.imp id fun h => ⟨.inl h.1, .inr h.2⟩)
  exact ((encFrame_ends p s).and ((encFrame_txidx p s).and (ran_encFrame p s))).mono
    (fun _ _ h => hend h.2.1 h.2.2 (.inr ⟨rfl, .inl h.1⟩)) (fun _ _ h => hend h.2.1 h.2.2 (.inr ⟨rfl, .inr h.1.2⟩))
    fun _ _ h => hend h.2.1 h.2.2 (.inl (congrArg some h.1))

theorem keeps_tap2tty (hs : Calm s) {p : List Octet} (hp : p.length ≤ s.cfg.mtu) : Keeps (tap2tty p s) := by
  have hend {w : Option Wait} {t : State} (hidx : t.txidx = s.txidx ∨ t.txidx < p.length)
      (hatt : t.attempt ≤ 0 + s.cfg.retryMax) (h : Ran State.withTap kindHost s t)
      (hw : w = some .reset ∨ (w = none ∧ (t.txphase = .done ∨ t.txphase = .failed))) : InvWith w t := by
    have hin := hs.settled.txidxIn
    exact invWith_of_tap hs h (hidx.elim (fun h => h ▸ hin) fun h => by omega) (by omega)
      (hw.imp id fun h => ⟨.inl h.1, .inr h.2⟩)
  exact ((attempts_bounds s.cfg.retryMax p { s with attempt := 0 }).and (ran_tap2tty p s)).mono
    (fun _ _ h => hend h.1.2.2 h.1.1 h.2 (.inr ⟨rfl, h.1.2.1⟩)) (fun _ _ h => h.1.elim)
    fun _ _ h => hend h.1.2.2 h.1.2.1 h.2 (.inl (congrArg some h.1.1))

/-- A decode is in progress. -/
abbrev reading (s : State) : Prop := s.dstate = .awaitOctet ∨ s.dstate = .escaped

/-- Where a reset cuts the decoder's loop a decode is in progress. -/
theorem decLoop_cut (n : Nat) (s : State) (h : reading s) :
    (decLoop n s).ends (fun _ _ => True) (fun _ _ => True) fun _ t => reading t := by
  have hstore (o : Octet) (s : State) (h : reading s) :
      (storeOctet o s).ends (fun _ t => reading t) (fun _ _ => True) fun _ t => reading t := by
    unfold storeOctet
    split
    · trivial
    · exact h
  induction n generalizing s with
  | zero => trivial
  | succ n ih =>
    rw [decLoop, ends_bind, ends_onRaise]
    have hkeep : (rxRaw s).all reading := (rxRaw_keeps s).mono fun t ht => by
      unfold reading
      rw [ht.2.2.1]
      exact h
    refine Ret.ends.mono hkeep (fun o t ht => ?_) (fun _ _ _ => trivial) fun _ _ h => h
    split_ifs
    · rw [ends_bind]
      exact (hstore o { t with dstate := .awaitOctet } (.inl rfl)).mono (fun _ u hu => ih u hu) (fun _ _ h => h)
        fun _ _ h => h
    · exact ih (symEsc t) (.inr rfl)
    · unfold symEnd
      split <;> trivial
    · rw [ends_bind]
      exact (hstore o t ht).mono (fun _ u hu => ih u hu) (fun _ _ h => h) fun _ _ h => h

theorem keeps_decFrame (hs : Calm s) : Keeps (decFrame s) := by
  have hfits : rxFits s := ⟨hs.settled.rxbufWf, hs.settled.rxbufIn, hs.settled.rxcntIn⟩
  exact (((decFrame_ends s).and (decLoop_cut _ (decStart s) (.inl rfl))).and
      ((decFrame_fits s hfits).and (ran_decFrame s))).mono
    (fun _ _ h => invWith_of_dec hs h.2.2 h.2.1 (.inr ⟨rfl, .inl ⟨h.1.1.1, by omega⟩⟩))
    (fun _ _ h => invWith_of_dec hs h.2.2 h.2.1 (.inr ⟨rfl, .inr h.1.1.2⟩))
    fun _ t h => invWith_of_dec hs h.2.2 h.2.1 (.inl ⟨congrArg some h.1.1, by
      rcases h.1.2 with hd | hd <;> rw [hd] <;> exact ⟨nofun, nofun⟩⟩)

/-- A native piece where the invariant holds but for the native transport. -/
theorem keeps_of_native {r : Ret α} {K : Xact → Prop} (hs : Settled s) (hran : r.all (Ran State.withNatRx K s))
    (hfits : r.all nFits)
    (hends : r.ends (fun _ => nativeAtRest) (fun _ => nativeAtRest) fun w t =>
      t.cfg = s.cfg → t.mode = s.mode → t.modeSet = s.modeSet → waitFits { t with wait := some w }) : Keeps r := by
  refine ((hends.and hran).and hfits).mono (fun _ _ h => invWith_of_native hs h.1.2 h.2 h.1.1)
    (fun _ _ h => invWith_of_native hs h.1.2 h.2 h.1.1)
    fun _ t h => invWith_of_native hs h.1.2 h.2 ?_
  have hframe := h.1.2.frame
  exact h.1.1 (by rw [hframe]; rfl) (by rw [hframe]; rfl) (by rw [hframe]; rfl)

theorem Settled.nFits (hs : Settled s) : nFits s := ⟨hs.nbufWf, hs.nbufIn, hs.ncntIn⟩

theorem keeps_rdBytes (hs : Calm s) {k : Nat} (hk : k ≤ s.cfg.nbufCap) : Keeps (rdBytes k s) := by
  have hstate : (rdBytes k s).all fun t => t.nstate = s.nstate := (ran_rdBytes k s).mono fun t h => by
    rw [h.frame]
    rfl
  refine keeps_of_native hs.settled ((ran_rdBytes k s).mono fun _ h => h.widen fun _ _ => rfl)
    (rdBytes_fits k s hs.settled.nFits hk) ?_
  have hrest {t : State} (h : t.nstate = s.nstate) : nativeAtRest t := by
    unfold nativeAtRest
    rw [h]
    exact hs.rest
  exact ((readLoop_ends k k _).and hstate).mono (fun _ _ h => hrest h.2) (fun _ _ h => hrest h.2)
    fun _ _ h _ _ hset => h.1 ▸ hset.trans hs.modeSet

theorem keeps_natRx (hs : Calm s) : Keeps (natRx s) :=
  keeps_of_native hs.settled (ran_natRx s) (natRx_fits s hs.settled.nFits)
    ((natRx_ends s).mono (fun _ _ h => .inr (.inl h.2)) (fun _ _ h => .inr (.inr h.2))
      fun _ _ h _ _ hset => h ▸ hset.trans hs.modeSet)

/-- NAT.TX and its wait, from where it starts or where it was left in its SENSE.POLL. -/
theorem keeps_natTx (hs : Settled s) (hset : s.modeSet = true) (hmode : s.mode = .native) {p : List Octet}
    (hp : p.length ≤ s.cfg.mtu) {w : Wait} (hw : w = .natTx p ∨ w = .brgTx p) : Keeps (natTx w p s) := by
  have hfits : (natTx w p s).all nFits := (ran_natTx w p s).mono fun t h => by
    rw [h.frame]
    exact hs.nFits
  refine keeps_of_native hs ((ran_natTx w p s).mono fun _ h => h.widen fun _ _ => rfl) hfits
    ((natTx_ends w p s).mono (fun _ _ h => .inr (.inl h.2)) (fun _ _ h => .inr (.inr h.2))
      fun v t h hcfg hm hs' => ?_)
  rcases h with ⟨rfl, hstate⟩ | rfl
  · have hwait : t.modeSet = true ∧ t.mode = .native ∧ t.nstate = .senseWait ∧ p.length ≤ t.cfg.mtu :=
      ⟨hs'.trans hset, hm.trans hmode, hstate, by rw [hcfg]; exact hp⟩
    rcases hw with rfl | rfl <;> exact hwait
  · exact hs'.trans hset

theorem keeps_sensePoll (hs : Calm s) (hmode : s.mode = .native) : Keeps (sensePoll .sense s) := by
  have hran := ran_sensePoll .sense s
  have hfits : (sensePoll .sense s).all nFits := hran.mono fun t h => by
    rw [h.frame]
    exact hs.settled.nFits
  have hrest : (sensePoll .sense s).all nativeAtRest := hran.mono fun t h => by
    rw [h.frame]
    exact hs.rest
  refine keeps_of_native hs.settled (hran.mono fun _ h => h.widen fun _ _ => rfl) hfits
    (((pollLoop_ends .sense _ 0 s).and hrest).mono (fun _ _ h => h.2) (fun _ _ h => h.2) fun v t h _ hm hset => ?_)
  rcases h.1 with rfl | rfl
  · exact ⟨hset.trans hs.modeSet, hm.trans hmode, h.2⟩
  · exact hset.trans hs.modeSet

/-! ## BRG.STEP -/

theorem keeps_bridgeSend (hs : Calm s) {p : List Octet} (hp : p.length ≤ s.cfg.mtu) : Keeps (bridgeSend p s) := by
  cases hm : s.mode with
  | emulated =>
    rw [bridgeSend_emulated hm]
    exact keeps_catching (keeps_tap2tty hs hp) .unit
  | native =>
    rw [bridgeSend_native hm]
    exact keeps_catching (keeps_natTx hs.settled hs.modeSet hm hp (.inr rfl)) .unit

theorem keeps_bridgeReceive (hs : Calm s) : Keeps (bridgeReceive s) := by
  cases hm : s.mode with
  | emulated =>
    rw [bridgeReceive_emulated hm, Keeps, ends_catching]
    have hset : (decFrame s).all fun t => t.modeSet = s.modeSet := (ran_decFrame s).mono fun t h => by
      rw [h.frame]
      rfl
    refine ((keeps_decFrame hs).and hset).mono (fun n t h => ?_) (fun _ _ h => h.1) fun _ _ h => h.1
    have ht : Calm t := calm_of_invWith h.1 (h.2.trans hs.modeSet)
    exact keeps_value (keeps_of_channels ht (ran_netWrite _ t)
      ((netWrite_ends _ t).mono (fun _ _ h => h) (fun _ _ h => h) fun _ _ h => .inl h)) fun _ => .unit
  | native =>
    rw [bridgeReceive_native hm]
    exact keeps_catching (keeps_natRx hs) .unit

theorem keeps_brgStep (hs : Calm s) : Keeps (brgStep s) := by
  rw [brgStep, Keeps, ends_bind]
  refine ((anyReady_ends _ s).and (ran_anyReady _ s)).mono (fun d t h => ?_)
    (fun _ _ h => (calm_of_channels hs h.2).invWith (.inl rfl))
    fun _ _ h => (calm_of_channels hs h.2).invWith (.inr (h.1.symm.imp (congrArg some) (congrArg some)))
  have ht := calm_of_channels hs h.2
  cases d with
  | ser => exact keeps_bridgeReceive ht
  | net =>
    rw [ends_bind]
    refine ((netRead_fits (s := t) ht.settled.netInFits).and (ran_netRead t)).mono (fun p u h => ?_)
      (fun _ _ h => (calm_of_channels ht h.2).invWith (.inl rfl))
      fun _ _ h => (calm_of_channels ht h.2).invWith (.inr (.inl (congrArg some h.1)))
    exact keeps_bridgeSend (calm_of_channels ht h.2) (by rw [h.2.frame]; exact h.1)

end pieces

/-! ## Steps -/

/-- An accepted instruction ends where the invariant holds. The steps inside an operation are not accepted between
operations, but for the stuffed octets. -/
theorem stateInv_of_accepts {i : Instr} {s : State} (h : StateInv s) (ha : accepts i s = true) :
    StateInv (closing i (body i s)) := by
  have hcalm := calm_of_accepts h ha
  have hdec : s.dstate ≠ .awaitOctet ∧ s.dstate ≠ .escaped := by
    have hd := h.decoderAtRest
    rw [wait_of_accepts ha] at hd
    rcases hd with hd | hd | hd | hd <;> simp_all
  have henc : s.txphase ≠ .drain := by
    have hd := h.encoderAtRest
    rw [wait_of_accepts ha] at hd
    rcases hd with hd | hd | hd | hd <;> simp_all
  have hnat : s.nstate ≠ .lenPrefix ∧ s.nstate ≠ .write := by
    have hd := h.waitOk
    rw [waitFits, wait_of_accepts ha] at hd
    rcases hd with hd | hd | hd <;> simp_all
  have hcrc (a : Word16) (hs : Calm s) : InvWith none { s with acc := a } :=
    invWith_of_tap (K := kindAny) hs (Ran.of_write rfl rfl rfl rfl) h.txidxIn h.attemptIn
      (.inr ⟨.inl rfl, hs.settled.encoderAtRest.resolve_left nofun⟩)
  cases i with
  | crcInit => exact stateInv_conclude (r := body .crcInit s) (hcrc _ (hcalm nofun))
  | crcUpdate o => exact stateInv_conclude (r := body (.crcUpdate o) s) (hcrc _ (hcalm nofun))
  | flush =>
    exact stateInv_conclude (keeps_value (keeps_of_channels (hcalm nofun) (ran_flush s)
      ((flush_ends s).mono (fun _ _ h => h) (fun _ _ h => h) fun _ _ h => .inl h)) _)
  | txRaw o => exact stateInv_conclude (keeps_value (keeps_of_tx (hcalm nofun) (ran_txRaw o s) (txRaw_ends o s)) _)
  | rxRaw =>
    exact stateInv_conclude (keeps_value (keeps_of_channels (hcalm nofun) (ran_rxRaw s)
      ((rxRaw_ends s).mono (fun _ _ h => h) (fun _ _ h => h) fun _ _ h => .inl h)) _)
  | encOctet b =>
    exact stateInv_conclude (keeps_value (keeps_of_tx (hcalm nofun) (ran_encOctet b s) (encOctet_ends b s)) _)
  | encFrame p => exact stateInv_conclude (keeps_value (keeps_encFrame (hcalm nofun) (mtu_of_accepts (.inl ha))) _)
  | decFrame => exact stateInv_conclude (keeps_value (keeps_decFrame (hcalm nofun)) _)
  | rdBytes k =>
    have hk : k.toNat ≤ s.cfg.nbufCap := of_decide_eq_true (Bool.and_eq_true_iff.1 ha).2
    exact stateInv_conclude (keeps_value (keeps_rdBytes (hcalm nofun) hk) _)
  | natRx => exact stateInv_conclude (keeps_natRx (hcalm nofun))
  | natTx p =>
    exact stateInv_conclude (keeps_natTx (hcalm nofun).settled (hcalm nofun).modeSet (mode_of_accepts_native ha rfl)
      (mtu_of_accepts (.inr (.inl ha))) (.inl rfl))
  | sensePoll =>
    exact stateInv_conclude (keeps_value (keeps_sensePoll (hcalm nofun) (mode_of_accepts_native ha rfl)) _)
  | tap2tty p => exact stateInv_conclude (keeps_tap2tty (hcalm nofun) (mtu_of_accepts (.inr (.inr (.inl ha)))))
  | brgStep => exact stateInv_concludeBridge (keeps_brgStep (hcalm nofun))
  | modeSet m =>
    have hrest := h.waitOk
    rw [waitFits, wait_of_accepts ha] at hrest
    exact { h with
      decoderAtRest := .inr (h.decoderAtRest.resolve_left (by rw [wait_of_accepts ha]; nofun))
      encoderAtRest := .inr (h.encoderAtRest.resolve_left (by rw [wait_of_accepts ha]; nofun))
      waitOk := hrest }
  | stuffPlain b => exact stateInv_conclude (keeps_value (keeps_of_tx (hcalm nofun) (ran_txRaw b s) (txRaw_ends b s)) _)
  | stuffEscaped b =>
    exact stateInv_conclude (keeps_value (keeps_of_tx (hcalm nofun) (ran_sendEscaped b s) (sendEscaped_ends b s)) _)
  | symEnd | symEsc | symData | symLit | eframe | nframe | natLenOk | natLenOver => simp_all [accepts]

theorem stateInv_of_exec {i : Instr} {s t : State} (h : StateInv s) (he : exec i s = .next t) : StateInv t := by
  rcases exec_cases he with ⟨ha, rfl⟩ | ⟨-, rfl⟩
  · exact stateInv_of_accepts h ha
  · exact h.close (.err .ioError) s.halted s.issue

theorem stateInv_resume {s : State} {w : Wait} (h : StateInv s) (hw : s.wait = some w) : StateInv (resume w s) := by
  have hfits := h.waitOk
  rw [waitFits, hw] at hfits
  have hdue (hne : w ≠ .reset) : Settled s := settled_of_stateInv h (by rw [hw]; simpa using hne)
  cases w with
  | sense =>
    obtain ⟨hset, hmode, hrest⟩ := hfits
    exact stateInv_conclude (keeps_value (keeps_sensePoll ⟨hdue nofun, hset, hrest⟩ hmode) _)
  | natTx p =>
    obtain ⟨hset, hmode, -, hp⟩ := hfits
    exact stateInv_conclude (keeps_natTx (hdue nofun) hset hmode hp (.inl rfl))
  | brgAny => exact stateInv_concludeBridge (keeps_brgStep ⟨hdue nofun, hfits.1, hfits.2⟩)
  | brgTx p =>
    obtain ⟨hset, hmode, -, hp⟩ := hfits
    exact stateInv_concludeBridge (keeps_catching (keeps_natTx (hdue nofun) hset hmode hp (.inr rfl)) .unit)
  | reset => exact stateInv_resetInput h

/-- Settles O55: each thing a step can do ends where the invariant holds. -/
theorem stepKeepsInvariant : Obligations.StepKeepsInvariant := by
  intro s t h hstep
  have hpop : StateInv s.popIssue := h.close s.result s.halted s.issue.tail
  rcases step_cases hstep with ⟨-, rfl⟩ | ⟨w, -, hw, rfl⟩ | ⟨-, -, rfl | rfl | ⟨i, he⟩ | he⟩
  · exact stateInv_resetInput hpop
  · exact stateInv_resume h hw
  · exact h
  · exact hpop.close (.err .ioError) s.popIssue.halted s.popIssue.issue
  · exact stateInv_of_exec hpop he
  · exact stateInv_of_exec h he

end Sys2Proof.Machine
end

section
/-! SUPPORT. Operations of the octet transport and the encoder turn by turn (spec/41_octet_transport.md, 42_emulated_codec.md
section 1): what a given turn makes of each transaction, and the paths on a bus that echoes. -/

namespace Sys2Proof.Machine

/-! ## What a turn makes of a transaction -/

/-- A state that transactions have led to, in which WIRE is as it was. -/
abbrev Moved (s u : State) : Prop := u = s.withChannels u ∧ u.wire = s.wire

theorem Moved.trans {s t u : State} (h : Moved s t) (h' : Moved t u) : Moved s u :=
  ⟨by
    calc u = t.withChannels u := h'.1
      _ = (s.withChannels t).withChannels u := congrArg (fun x => State.withChannels x u) h.1
      _ = s.withChannels u := rfl, h'.2.trans h.2⟩

theorem serPending_turn {s : State} {a : Turn} {ts : List Turn} (h : s.script = a :: ts) (hr : a.reset = false) :
    ∃ u, serPending s = .done (s.sq ++ a.rx).length u ∧ u.sq = s.sq ++ a.rx ∧ u.script = ts ∧ Moved s u :=
  ⟨s.elapse.record (.serPending (s.sq ++ a.rx).length), by simp [serPending, turn_cons h, hr, Ret.orReset],
    by simp [turn_cons h], by simp [h], rfl, rfl⟩

theorem serWait_ready {s : State} {a : Turn} {ts : List Turn} (T : Nat) (h : s.script = a :: ts) (hr : a.reset = false)
    (hq : s.sq ++ a.rx ≠ []) :
    ∃ u, serWait T s = .done () u ∧ u.sq = s.sq ++ a.rx ∧ u.script = ts ∧ Moved s u := by
  have hout : serWaitOut s = .ready := if_pos (by rw [elapse_sq, turn_cons h]; exact hq)
  refine ⟨s.elapse.record (.serWait T .ready), ?_, by simp [turn_cons h], by simp [h], rfl, rfl⟩
  rw [serWait, hout, turn_cons h, orReset_of_not hr]

theorem serWait_nothing {s : State} {a : Turn} {ts : List Turn} (T : Nat) (h : s.script = a :: ts)
    (hr : a.reset = false) (hq : s.sq ++ a.rx = []) :
    ∃ u, serWait T s = .raised (if a.fail then .ioError else .timeout) u ∧ u.sq = [] ∧ u.script = ts ∧ Moved s u := by
  have hout : serWaitOut s = if a.fail then .fail else .expired := by
    rw [serWaitOut, elapse_sq, turn_cons h, if_neg (not_not.2 hq)]
  rw [serWait, hout, turn_cons h, orReset_of_not hr]
  refine ⟨s.elapse.record (.serWait T (if a.fail then .fail else .expired)), ?_, by simp [turn_cons h, hq], by simp [h],
    rfl, rfl⟩
  cases a.fail <;> rfl

theorem readOne_oldest {s : State} {a : Turn} {ts : List Turn} {o : Octet} {q : List Octet} (h : s.script = a :: ts)
    (hr : a.reset = false) (hf : a.fail = false) (hq : s.sq ++ a.rx = o :: q) :
    ∃ u, readOne s = .done o u ∧ u.sq = q ∧ u.script = ts ∧ Moved s u := by
  have hcount : readCount 1 (q.length + 1) a = 1 := by
    simp only [readCount]
    omega
  refine ⟨{ s.elapse with sq := q }.record (.serRead 1 (some [o])), ?_, rfl, by simp [h], rfl, rfl⟩
  simp [readOne, serRead, turn_cons h, hr, hf, hq, hcount, Ret.orReset, Ret.bind]

theorem readOne_fails {s : State} {a : Turn} {ts : List Turn} (h : s.script = a :: ts) (hr : a.reset = false)
    (hf : a.fail = true) : ∃ u, readOne s = .raised .ioError u ∧ u.script = ts ∧ Moved s u :=
  ⟨{ s.elapse with sq := s.elapse.sq.drop (min (a.short.getD 0) 1) }.record (.serRead 1 none),
    by simp [readOne, serRead, turn_cons h, hr, hf, Ret.orReset, Ret.bind], by simp [h], rfl, rfl⟩

/-! ## RX.RAW -/

theorem rxRaw_nothing {s : State} {a : Turn} {ts : List Turn} (h : s.script = a :: ts) (hr : a.reset = false)
    (hq : s.sq ++ a.rx = []) :
    ∃ u, rxRaw s = .raised (if a.fail then .ioError else .timeout) u ∧ u.sq = [] ∧ u.script = ts ∧ Moved s u := by
  obtain ⟨u, hu, hrest⟩ := serWait_nothing s.cfg.tOctet h hr hq
  exact ⟨u, by rw [rxRaw, hu]; rfl, hrest⟩

theorem rxRaw_oldest {s : State} {a r : Turn} {ts : List Turn} {o : Octet} {q : List Octet}
    (h : s.script = a :: r :: ts) (ha : a.reset = false) (hr : r.reset = false) (hf : r.fail = false)
    (hq : s.sq ++ a.rx = o :: q) :
    ∃ u, rxRaw s = .done o u ∧ u.sq = q ++ r.rx ∧ u.script = ts ∧ Moved s u := by
  obtain ⟨u, hu, husq, hus, hmu⟩ := serWait_ready s.cfg.tOctet h ha (by simp [hq])
  obtain ⟨v, hv, hvsq, hvs, hmv⟩ := readOne_oldest (o := o) (q := q ++ r.rx) hus hr hf (by rw [husq, hq]; rfl)
  exact ⟨v, by rw [rxRaw, hu, Ret.bind, hv], hvsq, hvs, hmu.trans hmv⟩

theorem rxRaw_readFails {s : State} {a r : Turn} {ts : List Turn} (h : s.script = a :: r :: ts) (ha : a.reset = false)
    (hr : r.reset = false) (hf : r.fail = true) (hq : s.sq ++ a.rx ≠ []) :
    ∃ u, rxRaw s = .raised .ioError u ∧ u.script = ts ∧ Moved s u := by
  obtain ⟨u, hu, -, hus, hmu⟩ := serWait_ready s.cfg.tOctet h ha hq
  obtain ⟨v, hv, hvs, hmv⟩ := readOne_fails hus hr hf
  exact ⟨v, by rw [rxRaw, hu, Ret.bind, hv], hvs, hmu.trans hmv⟩

/-- Closing writes RESULT only, where nothing was in progress. -/
theorem Moved.finish {s u : State} (h : Moved s u) (hw : s.wait = none) (v : Value) :
    u.finish v = s.withChannels (u.finish v) ∧ (u.finish v).wire = s.wire := by
  have hu := congrArg (fun x : State => x.finish v) h.1
  have hframe : (s.withChannels u).finish v = s.withChannels (u.finish v) := by
    simp [State.withChannels, State.finish, hw]
  exact ⟨hu.trans hframe, h.2⟩

theorem Moved.raise {s u : State} (h : Moved s u) (hw : s.wait = none) (e : Err) :
    u.raise e = s.withChannels (u.raise e) ∧ (u.raise e).wire = s.wire := by
  have hu := congrArg (fun x : State => x.raise e) h.1
  have hframe : (s.withChannels u).raise e = s.withChannels (u.raise e) := by
    simp [State.withChannels, State.raise, hw]
  exact ⟨hu.trans hframe, h.2⟩

/-- Settles O10: nothing to read, an octet and a read that works, an octet and a read that fails. -/
theorem rxRawReturnsOldestOctet : Obligations.RxRawReturnsOldestOctet := by
  intro s a r rest hacc h ha hr
  have hw := wait_of_accepts hacc
  cases hq : s.sq ++ a.rx with
  | nil =>
    obtain ⟨u, hu, husq, hus, hmu⟩ := rxRaw_nothing h ha hq
    obtain ⟨hframe, hwire⟩ := hmu.raise hw (if a.fail then .ioError else .timeout)
    exact ⟨_, by rw [exec_of_accepts hacc, body, hu]; rfl, hframe, hwire, nofun, fun _ => ⟨rfl, husq, hus⟩⟩
  | cons o q =>
    cases hf : r.fail with
    | false =>
      obtain ⟨u, hu, husq, hus, hmu⟩ := rxRaw_oldest h ha hr hf hq
      obtain ⟨hframe, hwire⟩ := hmu.finish hw (.num o.toNat)
      refine ⟨_, by rw [exec_of_accepts hacc, body, hu]; rfl, hframe, hwire, fun o' q' heq => ⟨fun _ => ?_, nofun⟩,
        nofun⟩
      obtain ⟨rfl, rfl⟩ := List.cons.inj heq
      exact ⟨rfl, husq, hus⟩
    | true =>
      obtain ⟨u, hu, hus, hmu⟩ := rxRaw_readFails h ha hr hf (by simp [hq])
      obtain ⟨hframe, hwire⟩ := hmu.raise hw .ioError
      exact ⟨_, by rw [exec_of_accepts hacc, body, hu]; rfl, hframe, hwire, fun _ _ _ => ⟨nofun, fun _ => rfl⟩, nofun⟩

/-! ## TX.RAW -/

/-- The wait for the echo is RX.RAW and the comparison (R134). -/
theorem awaitEcho_eq (s : State) :
    awaitEcho s = (rxRaw s).bind fun e t => if ecc t.txlast e then .raised .lineContention t else .done () t := by
  unfold awaitEcho rxRaw
  cases serWait s.cfg.tOctet s <;> rfl

theorem serWrite_turn {s : State} {w : Turn} {ts : List Turn} (bs : List Octet) (h : s.script = w :: ts)
    (hr : w.reset = false) :
    ∃ u, serWrite bs s = .done (writeOut bs w) u ∧ u.sq = s.sq ++ w.rx ∧ u.script = ts ∧
      u.wire = s.wire ++ bs.take (writeOut bs w).count ∧ u = s.withChannels u :=
  ⟨{ s.elapse with wire := s.wire ++ bs.take (writeOut bs w).count }.record (.serWrite bs (writeOut bs w)),
    by rw [serWrite, turn_cons h, orReset_of_not hr], by simp [turn_cons h], by simp [h], rfl, rfl⟩

theorem writeOut_fail {bs : List Octet} {w : Turn} (h : w.fail = true) : writeOut bs w = .fail := if_pos h

theorem writeOut_ok {bs : List Octet} {w : Turn} (h : w.fail = false) :
    writeOut bs w = .accepted (min (w.short.getD bs.length) bs.length) := by simp [writeOut, h]

/-- What the write of TX.RAW leaves where it goes on. -/
theorem txRaw_of_accepted {s : State} {o : Octet} {w : Turn} {ts : List Turn} (h : s.script = w :: ts)
    (hr : w.reset = false) (hf : w.fail = false) (hs : w.short ≠ some 0) :
    ∃ u, txRaw o s = awaitEcho u ∧ u.sq = s.sq ++ w.rx ∧ u.script = ts ∧ u.wire = s.wire ++ [o] ∧ u.txlast = o := by
  have hout : writeOut [o] w = .accepted 1 := by
    rw [writeOut_ok hf]
    cases hw : w.short with
    | none => rfl
    | some k =>
      have hk : k ≠ 0 := fun hk => hs (by rw [hw, hk])
      simp
      omega
  obtain ⟨u, hu, husq, hus, huw, hframe⟩ := serWrite_turn (s := { s with txlast := o }) [o] h hr
  rw [hout] at hu huw
  exact ⟨u, by rw [txRaw, hu]; rfl, husq, hus, huw, by rw [hframe]; rfl⟩

/-- TX.RAW writes TXLAST first. -/
theorem txRaw_txlast (o : Octet) (s : State) : (txRaw o s).all fun t => t.txlast = o := by
  refine Ret.all.then (P := fun t => t.txlast = o) ?_ (fun out t ht => ?_) fun _ h => h
  · exact (ran_serWrite [o] _).mono fun t h => by rw [h.frame]; rfl
  · exact (ran_afterWrite out t).mono fun u h => by rw [h.frame]; exact ht

/-- What a TX.RAW that has ended leaves. -/
theorem exec_txRaw_raised {s u : State} {o : Octet} {e : Err} (hacc : accepts (.txRaw o) s = true)
    (hu : txRaw o s = .raised e u) :
    exec (.txRaw o) s = .next (u.raise e) ∧ u.txlast = o ∧ u.raise e = s.withTx (u.raise e) := by
  have hexec : exec (.txRaw o) s = .next (u.raise e) := by rw [exec_of_accepts hacc, body, hu]; rfl
  have hlast := txRaw_txlast o s
  rw [hu] at hlast
  exact ⟨hexec, hlast, (left_of_exec hexec nofun endFn_withTx (all_value (ran_txRaw o s) _)).frame_of_wait
    (wait_of_accepts hacc).symm fun _ _ => rfl⟩

theorem exec_txRaw_done {s u : State} {o : Octet} (hacc : accepts (.txRaw o) s = true) (hu : txRaw o s = .done () u) :
    exec (.txRaw o) s = .next (u.finish .unit) ∧ u.txlast = o ∧ u.finish .unit = s.withTx (u.finish .unit) := by
  have hexec : exec (.txRaw o) s = .next (u.finish .unit) := by rw [exec_of_accepts hacc, body, hu]; rfl
  have hlast := txRaw_txlast o s
  rw [hu] at hlast
  exact ⟨hexec, hlast, (left_of_exec hexec nofun endFn_withTx (all_value (ran_txRaw o s) _)).frame_of_wait
    (wait_of_accepts hacc).symm fun _ _ => rfl⟩

/-- Settles O9: the write's failure, its refusal, and the ways the wait and the read can come out. -/
theorem txRawComparesOldestOctet : Obligations.TxRawComparesOldestOctet := by
  intro s o w a r rest hacc h hw ha hr
  cases hwf : w.fail with
  | true =>
    obtain ⟨u, hu, husq, -, huw, -⟩ := serWrite_turn (s := { s with txlast := o }) [o] h hw
    rw [writeOut_fail hwf] at hu huw
    obtain ⟨hexec, hlast, hframe⟩ := exec_txRaw_raised (u := u) (e := .ioError) hacc (by rw [txRaw, hu]; rfl)
    exact ⟨_, hexec, hlast, hframe, fun _ => ⟨rfl, huw.trans (List.append_nil _), husq⟩, nofun, nofun⟩
  | false =>
    by_cases hws : w.short = some 0
    · obtain ⟨u, hu, husq, -, huw, -⟩ := serWrite_turn (s := { s with txlast := o }) [o] h hw
      rw [writeOut_ok hwf, hws] at hu huw
      obtain ⟨hexec, hlast, hframe⟩ := exec_txRaw_raised (u := u) (e := .busy) hacc (by rw [txRaw, hu]; rfl)
      exact ⟨_, hexec, hlast, hframe, nofun, fun _ _ => ⟨rfl, huw.trans (List.append_nil _), husq⟩,
        fun _ hne => absurd hws hne⟩
    · obtain ⟨u, hu, husq, hus, huw, hul⟩ := txRaw_of_accepted (o := o) h hw hwf hws
      rw [awaitEcho_eq] at hu
      cases hq : s.sq ++ w.rx ++ a.rx with
      | nil =>
        obtain ⟨v, hv, hvsq, -, hmv⟩ := rxRaw_nothing hus ha (by rw [husq, hq])
        rw [hv] at hu
        obtain ⟨hexec, hlast, hframe⟩ := exec_txRaw_raised hacc hu
        exact ⟨_, hexec, hlast, hframe, nofun, fun _ h0 => absurd h0 hws,
          fun _ _ => ⟨hmv.2.trans huw, fun _ => ⟨hvsq, rfl⟩, nofun⟩⟩
      | cons e q =>
        cases hrf : r.fail with
        | true =>
          obtain ⟨v, hv, -, hmv⟩ := rxRaw_readFails hus ha hr hrf (by rw [husq, hq]; simp)
          rw [hv] at hu
          obtain ⟨hexec, hlast, hframe⟩ := exec_txRaw_raised hacc hu
          exact ⟨_, hexec, hlast, hframe, nofun, fun _ h0 => absurd h0 hws,
            fun _ _ => ⟨hmv.2.trans huw, nofun, fun _ _ _ => ⟨fun _ => rfl, nofun⟩⟩⟩
        | false =>
          obtain ⟨v, hv, hvsq, -, hmv⟩ := rxRaw_oldest (q := q) hus ha hr hrf (by rw [husq, hq])
          have hvl : v.txlast = o := by rw [hmv.1]; exact hul
          rw [hv, Ret.bind, hvl] at hu
          by_cases he : e = o
          · rw [if_neg (by simp [ecc, Eq.symm he])] at hu
            obtain ⟨hexec, hlast, hframe⟩ := exec_txRaw_done hacc hu
            refine ⟨_, hexec, hlast, hframe, nofun, fun _ h0 => absurd h0 hws,
              fun _ _ => ⟨hmv.2.trans huw, nofun, fun e' q' heq => ⟨nofun, fun _ => ?_⟩⟩⟩
            obtain ⟨rfl, rfl⟩ := List.cons.inj heq
            exact ⟨hvsq, by rw [if_pos he]; rfl⟩
          · rw [if_pos (by simpa [ecc] using Ne.symm he)] at hu
            obtain ⟨hexec, hlast, hframe⟩ := exec_txRaw_raised hacc hu
            refine ⟨_, hexec, hlast, hframe, nofun, fun _ h0 => absurd h0 hws,
              fun _ _ => ⟨hmv.2.trans huw, nofun, fun e' q' heq => ⟨nofun, fun _ => ?_⟩⟩⟩
            obtain ⟨rfl, rfl⟩ := List.cons.inj heq
            exact ⟨hvsq, by rw [if_neg he]; rfl⟩

/-! ## FLUSH -/

/-- Reads that work take the oldest octets; what arrives in their turns stays. -/
theorem discard_works {s : State} {ts rest : List Turn} (m : Nat) (h : s.script = ts ++ rest)
    (hlen : ts.length ≤ s.sq.length) (hok : ∀ t ∈ ts, t.fail = false ∧ t.reset = false) :
    ∃ u, discard (ts.length + m) s = discard m u ∧ u.sq = s.sq.drop ts.length ++ ts.flatMap Turn.rx ∧
      u.script = rest ∧ Moved s u := by
  induction ts generalizing s with
  | nil => exact ⟨s, by rw [List.length_nil, Nat.zero_add], by simp, h, rfl, rfl⟩
  | cons t ts ih =>
    obtain ⟨hf, hr⟩ := hok t (List.mem_cons_self ..)
    cases hq : s.sq with
    | nil => simp [hq] at hlen
    | cons o q =>
      obtain ⟨u, hu, husq, hus, hmu⟩ := readOne_oldest (o := o) (q := q ++ t.rx) h hr hf (by rw [hq]; rfl)
      rw [hq, List.length_cons, List.length_cons] at hlen
      obtain ⟨v, hv, hvsq, hvs, hmv⟩ := ih hus (by rw [husq, List.length_append]; omega)
        fun x hx => hok x (List.mem_cons_of_mem _ hx)
      refine ⟨v, ?_, ?_, hvs, hmu.trans hmv⟩
      · rw [List.length_cons, Nat.add_right_comm, discard, hu, Ret.bind, hv]
      · rw [hvsq, husq, List.drop_append_of_le_length (by omega)]
        simp

/-- Settles O11: the count is taken in SerPending's turn; every read after it takes one octet, until one fails. -/
theorem flushDiscardsSnapshot : Obligations.FlushDiscardsSnapshot := by
  refine ⟨fun s first ts rest hacc h hlen hr hok => ?_, fun s first bad ts rest hacc h hlen hr hok hbf hbr => ?_⟩
  · have hw := wait_of_accepts hacc
    obtain ⟨u, hu, husq, hus, hmu⟩ := serPending_turn (ts := ts ++ rest) h hr
    obtain ⟨v, hv, hvsq, hvs, hmv⟩ := discard_works 0 hus (by rw [husq, hlen]) hok
    rw [Nat.add_zero, discard, hlen] at hv
    obtain ⟨hframe, hwire⟩ := (hmu.trans hmv).finish hw (.num (s.sq ++ first.rx).length)
    refine ⟨v.finish (.num (s.sq ++ first.rx).length), ?_, rfl, ?_, hvs, hframe, hwire⟩
    · rw [exec_of_accepts hacc, body, flush, hu, Ret.bind, hv]
      rfl
    · rw [finish_sq, hvsq, husq, hlen, List.drop_length, List.nil_append]
  · have hw := wait_of_accepts hacc
    obtain ⟨u, hu, husq, hus, hmu⟩ := serPending_turn (ts := ts ++ bad :: rest) h hr
    obtain ⟨k, hk⟩ : ∃ k, (s.sq ++ first.rx).length = ts.length + k + 1 := Nat.exists_eq_add_of_lt hlen
    obtain ⟨v, hv, -, hvs, hmv⟩ := discard_works (k + 1) hus (by rw [husq]; omega) hok
    obtain ⟨x, hx, hxs, hmx⟩ := readOne_fails hvs hbr hbf
    rw [← Nat.add_assoc, ← hk, discard, hx] at hv
    obtain ⟨hframe, hwire⟩ := ((hmu.trans hmv).trans hmx).raise hw .ioError
    refine ⟨x.raise .ioError, ?_, rfl, hxs, hframe, hwire⟩
    rw [exec_of_accepts hacc, body, flush, hu, Ret.bind, hv]
    rfl

/-! ## The transmit path on a bus that echoes -/

/-- The exact ends of the echoed pieces are frames of their operations, once closed. -/
theorem withTx_finish {s u : State} (hw : s.wait = none) (h : u = s.withTx u) (v : Value) :
    u.finish v = s.withTx (u.finish v) := by
  have hu := congrArg (fun x : State => x.finish v) h
  exact hu.trans (by simp [State.withTx, State.withChannels, State.finish, hw])

theorem withEnc_finish {s u : State} (hw : s.wait = none) (h : u = s.withEnc u) (v : Value) :
    u.finish v = s.withEnc (u.finish v) := by
  have hu := congrArg (fun x : State => x.finish v) h
  exact hu.trans (by simp [State.withEnc, State.withChannels, State.finish, hw])

theorem withTap_finish {s u : State} (hw : s.wait = none) (h : u = s.withTap u) (v : Value) :
    u.finish v = s.withTap (u.finish v) := by
  have hu := congrArg (fun x : State => x.finish v) h
  exact hu.trans (by simp [State.withTap, State.withChannels, State.finish, hw])

/-- Settles O12: the echoed ENC.OCTET. -/
theorem encOctetWritesStuffedForm : Obligations.EncOctetWritesStuffedForm := by
  intro s b rest hacc hq h
  have hexec := exec_of_accepts hacc
  rw [body, encOctet_echo hq h] at hexec
  exact ⟨_, hexec, rfl, rfl, hq, rfl, rfl, withTx_finish (wait_of_accepts hacc) rfl _⟩

/-- ESC and an octet, both echoed. -/
theorem sendEscaped_echo {s : State} {b : Octet} {rest : List Turn} (hq : s.sq = [])
    (h : s.script = echoOf s.cfg.escOctet ++ echoOf b ++ rest) :
    sendEscaped b s = .done () { s with
      txlast := b
      wire := s.wire ++ [s.cfg.escOctet] ++ [b]
      script := rest
      trace := s.trace ++ echoLog s.cfg.tOctet [s.cfg.escOctet] ++ echoLog s.cfg.tOctet [b] } := by
  rw [List.append_assoc] at h
  rw [sendEscaped, txRaw_echo hq h, Ret.bind, txRaw_echo (rest := rest) (by exact hq) rfl]

/-- Settles O13: the echoed TX.RAW, once and twice. -/
theorem stuffedFormsAreSent : Obligations.StuffedFormsAreSent := by
  refine ⟨fun s b rest hacc hq h => ?_, fun s b rest hacc hq h => ?_⟩
  · have hexec := exec_of_accepts hacc
    rw [body, sendPlain, txRaw_echo hq h] at hexec
    exact ⟨_, hexec, rfl, rfl, hq, rfl, withTx_finish (wait_of_accepts hacc) rfl _⟩
  · have hexec := exec_of_accepts hacc
    rw [body, sendEscaped_echo hq h] at hexec
    exact ⟨_, hexec, List.append_assoc _ _ _, rfl, hq, rfl, withTx_finish (wait_of_accepts hacc) rfl _⟩

/-- Settles O15: the echoed frame. -/
theorem eframeSendsFrame : Obligations.EframeSendsFrame := by
  intro s p rest hacc hq h
  have hexec := exec_of_accepts hacc
  rw [body, sendFrame_echo hq h] at hexec
  exact ⟨_, hexec, rfl, rfl, hq, rfl, rfl, rfl, withEnc_finish (wait_of_accepts hacc) rfl _⟩

/-- Settles O37: the first attempt is echoed; neither the drain nor the frame logs a sleep. -/
theorem tap2ttySendsFrame : Obligations.Tap2ttySendsFrame := by
  intro s p rest hacc h
  rw [List.append_assoc] at h
  have hexec := exec_of_accepts hacc
  rw [body, tap2tty_echo h] at hexec
  refine ⟨_, hexec, rfl, rfl, rfl, ?_, rfl, rfl, withTap_finish (wait_of_accepts hacc) rfl _⟩
  show (s.trace ++ drainLog s.sq ++ echoLog s.cfg.tOctet (eframeWire s.cfg p)).filterMap Xact.slept = s.sleeps
  rw [List.filterMap_append, List.filterMap_append, sleeps_drainLog, sleeps_echoLog, List.append_nil, List.append_nil]
  rfl

end Sys2Proof.Machine
end

section
/-! SUPPORT. What the transmit path logs under any environment (spec/41_octet_transport.md R132, 42_emulated_codec.md R158,
44_bridge_host.md R226): how a TX.RAW ends and with which log, and what follows for frames and attempts. -/

namespace Sys2Proof.Machine

/-! ## Values alone -/

/-- Where the piece is over with a value, `D` holds. -/
abbrev Ret.gives {α : Type} (r : Ret α) (D : α → State → Prop) : Prop := r.ends D (fun _ _ => True) fun _ _ => True

section gives

variable {α β : Type} {r : Ret α} {D D' : α → State → Prop}

theorem Ret.ends.gives {E : Err → State → Prop} {W : Wait → State → Prop} (h : r.ends D E W)
    (hD : ∀ a s, D a s → D' a s) : r.gives D' := h.mono hD (fun _ _ _ => trivial) fun _ _ _ => trivial

theorem gives_true (r : Ret α) : r.gives fun _ _ => True := by cases r <;> trivial

theorem gives_bind {f : α → State → Ret β} {F : β → State → Prop} (h : r.gives fun a s => (f a s).gives F) :
    (r.bind f).gives F := (ends_bind r f F _ _).2 h

end gives

/-! ## TX.RAW -/

/-- The log of a TX.RAW that went no further than its write, `a` having arrived. -/
abbrev writeLog (o : Octet) (a : List Octet) (out : WriteOut) : List Xact := arrivals a ++ [Xact.serWrite [o] out]

/-- The log of one that went no further than its wait, `b` having arrived then. -/
abbrev waitLog (T : Nat) (o : Octet) (a b : List Octet) (out : WaitOut) : List Xact :=
  writeLog o a (WriteOut.accepted 1) ++ (arrivals b ++ [Xact.serWait T out])

/-- The log of one that came to its read, `c` having arrived then. -/
abbrev readLog (T : Nat) (o : Octet) (a b c : List Octet) (got : Option (List Octet)) : List Xact :=
  waitLog T o a b WaitOut.ready ++ (arrivals c ++ [Xact.serRead 1 got])

/-- How TX.RAW can raise: its log, the octets that arrived, and what is left in SQ. -/
inductive TxRaises (T : Nat) (o : Octet) (q : List Octet) : Err → List Xact → List Octet → Prop
  | write (a : List Octet) : TxRaises T o q .ioError (writeLog o a .fail) (q ++ a)
  | busy (a : List Octet) : TxRaises T o q .busy (writeLog o a (.accepted 0)) (q ++ a)
  | expired (a b : List Octet) (h : q ++ a ++ b = []) : TxRaises T o q .timeout (waitLog T o a b .expired) []
  | wait (a b : List Octet) (h : q ++ a ++ b = []) : TxRaises T o q .ioError (waitLog T o a b .fail) []
  | read (a b c q' : List Octet) (h : q ++ a ++ b ≠ []) : TxRaises T o q .ioError (readLog T o a b c none) q'
  | contention (a b c q' : List Octet) (e : Octet) (h : q ++ a ++ b ≠ []) (hq : q ++ a ++ b ++ c = e :: q')
      (he : e ≠ o) : TxRaises T o q .lineContention (readLog T o a b c (some [e])) q'

/-- The logs of a TX.RAW that the reset input has cut. -/
inductive TxCut (T : Nat) (o : Octet) : List Xact → Prop
  | write (a : List Octet) (out : WriteOut) : TxCut T o (writeLog o a out)
  | wait (a b : List Octet) (out : WaitOut) : TxCut T o (waitLog T o a b out)
  | read (a b c : List Octet) (got : Option (List Octet)) : TxCut T o (readLog T o a b c got)

/-- A write of one octet that accepts any accepts one. -/
theorem writeOut_one {o : Octet} {a : Turn} {k : Nat} (h : .accepted (k + 1) = writeOut [o] a) : k = 0 := by
  unfold writeOut at h
  split at h
  · cases h
  · have hk := WriteOut.accepted.inj h
    simp only [List.length_singleton] at hk
    omega

theorem txRaw_log (o : Octet) (s : State) :
    (txRaw o s).ends
      (fun _ t => ∃ a b c, t.trace = s.trace ++ readLog s.cfg.tOctet o a b c (some [o]) ∧ s.sq ++ a ++ b ≠ [] ∧
        s.sq ++ a ++ b ++ c = o :: t.sq)
      (fun e t => ∃ xs, t.trace = s.trace ++ xs ∧ TxRaises s.cfg.tOctet o s.sq e xs t.sq)
      (fun _ t => ∃ xs, t.trace = s.trace ++ xs ∧ TxCut s.cfg.tOctet o xs) := by
  rw [txRaw, ends_bind]
  have hframe : (serWrite [o] { s with txlast := o }).all fun t => t.cfg = s.cfg ∧ t.txlast = o :=
    (ran_serWrite [o] _).mono fun t h => by rw [h.frame]; exact ⟨rfl, rfl⟩
  refine ((serWrite_log [o] { s with txlast := o }).and hframe).mono (fun out t h => ?_) (fun _ _ h => h.1.elim)
    fun w t h => ⟨_, h.1.2, .write _ _⟩
  obtain ⟨⟨htr, hsq, hout⟩, hcfg, hlast⟩ := h
  set a := ({ s with txlast := o } : State).turn.rx
  match out with
  | .fail => exact ⟨_, htr, by rw [hsq]; exact .write a⟩
  | .accepted 0 => exact ⟨_, htr, by rw [hsq]; exact .busy a⟩
  | .accepted (k + 1) =>
    obtain rfl := writeOut_one hout
    rw [afterWrite, awaitEcho, ends_bind]
    have hlog {u : State} {out : WaitOut} (h : u.trace = t.trace ++ turnLog t (.serWait t.cfg.tOctet out)) :
        u.trace = s.trace ++ waitLog s.cfg.tOctet o a t.turn.rx out := by
      rw [h, htr, hcfg, List.append_assoc]
      rfl
    have hframe : (serWait t.cfg.tOctet t).all fun u => u.txlast = o :=
      (ran_serWait _ t).mono fun u h => by rw [h.frame]; exact hlast
    refine ((serWait_log t.cfg.tOctet t).and hframe).mono (fun _ u hu => ?_) (fun e u hu => ?_) fun w u hu => ?_
    · obtain ⟨⟨htru, hsqu, hne⟩, hlastu⟩ := hu
      rw [ends_bind]
      have hframe : (readOne u).all fun v => v.txlast = o :=
        (ran_readOne u).mono fun v h => by rw [h.frame]; exact hlastu
      have hlogr {v : State} {got : Option (List Octet)} (h : v.trace = u.trace ++ turnLog u (.serRead 1 got)) :
          v.trace = s.trace ++ readLog s.cfg.tOctet o a t.turn.rx u.turn.rx got := by
        rw [h, hlog htru, List.append_assoc]
        rfl
      have hsome : s.sq ++ a ++ t.turn.rx ≠ [] := by
        rw [hsqu, hsq] at hne
        exact hne
      refine ((readOne_log hne).and hframe).mono (fun x v hv => ?_) (fun e v hv => ?_) fun w v hv => ?_
      · obtain ⟨⟨htrv, hsqv⟩, hlastv⟩ := hv
        rw [hsqu, hsq] at hsqv
        rw [hlastv]
        by_cases hx : x = o
        · rw [if_neg (by simp [ecc, hx])]
          subst hx
          exact ⟨a, t.turn.rx, u.turn.rx, hlogr htrv, hsome, hsqv⟩
        · rw [if_pos (by simpa [ecc] using Ne.symm hx)]
          exact ⟨_, hlogr htrv, .contention _ _ _ _ _ hsome hsqv hx⟩
      · obtain ⟨⟨rfl, htrv⟩, -⟩ := hv
        exact ⟨_, hlogr htrv, .read _ _ _ _ hsome⟩
      · obtain ⟨⟨-, got, htrv⟩, -⟩ := hv
        exact ⟨_, hlogr htrv, .read _ _ _ _⟩
    · obtain ⟨⟨hnone, hqu, hcase⟩, -⟩ := hu
      rw [hsq] at hnone
      rw [hqu]
      rcases hcase with ⟨rfl, htru⟩ | ⟨rfl, htru⟩
      · exact ⟨_, hlog htru, .expired _ _ hnone⟩
      · exact ⟨_, hlog htru, .wait _ _ hnone⟩
    · obtain ⟨⟨-, out, htru⟩, -⟩ := hu
      exact ⟨_, hlog htru, .wait _ _ _⟩

/-! ## The first octet-level error of a log -/

theorem firstError_arrivals (w : Option Octet) (os : List Octet) (xs : List Xact) :
    firstError w (arrivals os ++ xs) = firstError w xs := by
  unfold arrivals
  split <;> rfl

/-- One transaction after what has arrived. -/
theorem firstError_turn (w : Option Octet) (os : List Octet) (x : Xact) (ys : List Xact) :
    firstError w (arrivals os ++ [x] ++ ys) =
      match x.ends w with
      | some e => some (e, ys)
      | none => firstError (x.offers <|> w) ys := by
  rw [List.append_assoc, firstError_arrivals]
  rfl

theorem firstError_writeLog (w : Option Octet) (o : Octet) (a : List Octet) (ys : List Xact) :
    firstError w (writeLog o a (.accepted 1) ++ ys) = firstError (some o) ys := firstError_turn _ _ _ _

theorem firstError_waitLog (w : Option Octet) (T : Nat) (o : Octet) (a b : List Octet) (ys : List Xact) :
    firstError w (waitLog T o a b .ready ++ ys) = firstError (some o) ys := by
  rw [waitLog, List.append_assoc, firstError_writeLog, firstError_turn]
  rfl

theorem firstError_readLog (w : Option Octet) (T : Nat) (o : Octet) (a b c : List Octet) (ys : List Xact) :
    firstError w (readLog T o a b c (some [o]) ++ ys) = firstError (some o) ys := by
  have hsame : (Xact.serRead 1 (some [o])).ends (some o) = none := by simp [Xact.ends, ecc]
  rw [readLog, List.append_assoc, firstError_waitLog, firstError_turn, hsame]
  rfl

/-- The transactions of a TX.RAW that raised end in its error. -/
theorem firstError_of_txRaises {T : Nat} {o : Octet} {q q' : List Octet} {e : Err} {xs : List Xact}
    (h : TxRaises T o q e xs q') (w : Option Octet) : firstError w xs = some (e, []) := by
  have hlast (ys : List Xact) (os : List Octet) (x : Xact) (hx : x.ends (some o) = some e)
      (hys : ∀ zs, firstError w (ys ++ zs) = firstError (some o) zs) :
      firstError w (ys ++ (arrivals os ++ [x])) = some (e, []) := by
    have h := firstError_turn (some o) os x []
    rw [List.append_nil, hx] at h
    rw [hys, h]
  cases h with
  | write a => exact (List.append_nil (writeLog o a _)) ▸ firstError_turn w a (.serWrite [o] .fail) []
  | busy a => exact (List.append_nil (writeLog o a _)) ▸ firstError_turn w a (.serWrite [o] (.accepted 0)) []
  | expired a b => exact hlast _ b (.serWait T .expired) rfl (firstError_writeLog w o a)
  | wait a b => exact hlast _ b (.serWait T .fail) rfl (firstError_writeLog w o a)
  | read a b c => exact hlast _ c (.serRead 1 none) rfl (firstError_waitLog w T o a b)
  | contention a b c q' x h hq hx =>
    exact hlast _ c (.serRead 1 (some [x])) (by simpa [Xact.ends, ecc] using Ne.symm hx) (firstError_waitLog w T o a b)

/-- A transaction that is the last of a log has nothing logged after it. -/
theorem firstError_last {w v : Option Octet} {ys : List Xact} {os : List Octet} {x : Xact}
    (hys : ∀ zs, firstError w (ys ++ zs) = firstError v zs) {e : Err} {zs : List Xact}
    (h : firstError w (ys ++ (arrivals os ++ [x])) = some (e, zs)) : zs = [] := by
  rw [hys, firstError_arrivals, firstError] at h
  split at h
  · cases h
    rfl
  · cases h

theorem firstError_of_txCut {T : Nat} {o : Octet} {xs : List Xact} (h : TxCut T o xs) (w : Option Octet) {e : Err}
    {zs : List Xact} (he : firstError w xs = some (e, zs)) : zs = [] := by
  cases h with
  | write a out => exact firstError_last (ys := []) (fun _ => rfl) he
  | wait a b out => exact firstError_last (firstError_writeLog w o a) he
  | read a b c got => exact firstError_last (firstError_waitLog w T o a b) he

/-! ## What is on the wire -/

theorem wirePrefix_of_eq {xs : List Xact} {bs : List Octet} (h : wireOf xs = bs) : wireOf xs <+: bs :=
  h ▸ List.prefix_refl _

theorem wireOf_turn (os : List Octet) (x : Xact) : wireOf (arrivals os ++ [x]) = x.written := by
  rw [wireOf_append, wireOf_arrivals, List.nil_append]
  exact List.append_nil _

theorem wireOf_waitLog (T : Nat) (o : Octet) (a b : List Octet) (out : WaitOut) : wireOf (waitLog T o a b out) = [o] := by
  rw [waitLog, wireOf_append, wireOf_turn, wireOf_turn]
  rfl

theorem wireOf_readLog (T : Nat) (o : Octet) (a b c : List Octet) (got : Option (List Octet)) :
    wireOf (readLog T o a b c got) = [o] := by
  rw [readLog, wireOf_append, wireOf_waitLog, wireOf_turn]
  rfl

theorem wireOf_writeLog (o : Octet) (a : List Octet) (out : WriteOut) : wireOf (writeLog o a out) <+: [o] := by
  rw [wireOf_turn]
  exact List.take_prefix _ _

theorem wireOf_of_txRaises {T : Nat} {o : Octet} {q q' : List Octet} {e : Err} {xs : List Xact}
    (h : TxRaises T o q e xs q') : wireOf xs <+: [o] := by
  cases h with
  | write a => exact wireOf_writeLog o a _
  | busy a => exact wireOf_writeLog o a _
  | expired a b => exact wirePrefix_of_eq (wireOf_waitLog T o a b _)
  | wait a b => exact wirePrefix_of_eq (wireOf_waitLog T o a b _)
  | read a b c => exact wirePrefix_of_eq (wireOf_readLog T o a b c _)
  | contention a b c => exact wirePrefix_of_eq (wireOf_readLog T o a b c _)

theorem wireOf_of_txCut {T : Nat} {o : Octet} {xs : List Xact} (h : TxCut T o xs) : wireOf xs <+: [o] := by
  cases h with
  | write a out => exact wireOf_writeLog o a out
  | wait a b => exact wirePrefix_of_eq (wireOf_waitLog T o a b _)
  | read a b c => exact wirePrefix_of_eq (wireOf_readLog T o a b c _)

/-! ## The premise IdealEcho (R17) -/

theorem echoFrom_arrivals (v a os : List Octet) (ys : List Xact) :
    echoFrom v a (arrivals os ++ ys) = echoFrom v (a ++ os) ys := by
  unfold arrivals
  split_ifs with h
  · rw [h, List.append_nil, List.nil_append]
  · rfl

/-- From an empty SQ and where every echo is in, the log `xs` puts out `bs` and takes its echo in full. -/
def Echoed (bs : List Octet) (s : State) (xs : List Xact) (t : State) : Prop :=
  ∀ v ys, s.sq = [] → readsWork xs → echoFrom v v (xs ++ ys) = true →
    t.sq = [] ∧ echoFrom (v ++ bs) (v ++ bs) ys = true

/-- From an empty SQ and where every echo is in, `xs` is not the log of an ideal echo with reads that work. -/
def Unechoed (s : State) (xs : List Xact) : Prop := ∀ v, s.sq = [] → readsWork xs → echoFrom v v xs ≠ true

theorem Echoed.trans {bs cs : List Octet} {s t u : State} {xs ys : List Xact} (h : Echoed bs s xs t)
    (h' : Echoed cs t ys u) : Echoed (bs ++ cs) s (xs ++ ys) u := by
  intro v zs hq hr he
  rw [List.append_assoc] at he
  obtain ⟨hqt, hv⟩ := h v (ys ++ zs) hq (fun x hx => hr x (List.mem_append_left _ hx)) he
  rw [← List.append_assoc]
  exact h' (v ++ bs) zs hqt (fun x hx => hr x (List.mem_append_right _ hx)) hv

theorem Echoed.then_unechoed {bs : List Octet} {s t : State} {xs ys : List Xact} (h : Echoed bs s xs t)
    (h' : Unechoed t ys) : Unechoed s (xs ++ ys) := by
  intro v hq hr he
  obtain ⟨hqt, hv⟩ := h v ys hq (fun x hx => hr x (List.mem_append_left _ hx)) he
  exact h' (v ++ bs) hqt (fun x hx => hr x (List.mem_append_right _ hx)) hv

/-- What the premise says of the log of a TX.RAW, transaction by transaction. -/
theorem echoFrom_writeLog {v : List Octet} {o : Octet} {a : List Octet} {out : WriteOut} {ys : List Xact}
    (h : echoFrom v v (writeLog o a out ++ ys) = true) : out = .accepted 1 ∧ echoFrom (v ++ [o]) (v ++ a) ys = true := by
  rw [writeLog, List.append_assoc, echoFrom_arrivals] at h
  simp only [List.singleton_append, echoFrom, Bool.and_eq_true, decide_eq_true_eq] at h
  exact ⟨h.1.1, h.2⟩

theorem echoFrom_waitLog {v : List Octet} {T : Nat} {o : Octet} {a b : List Octet} {out : WaitOut} {ys : List Xact}
    (h : echoFrom v v (waitLog T o a b out ++ ys) = true) :
    a ++ b = [o] ∧ echoFrom (v ++ [o]) (v ++ [o]) ys = true := by
  rw [waitLog, List.append_assoc] at h
  have hw := (echoFrom_writeLog h).2
  rw [List.append_assoc, echoFrom_arrivals] at hw
  simp only [List.singleton_append, echoFrom, Bool.and_eq_true, decide_eq_true_eq, List.append_assoc,
    List.append_cancel_left_eq] at hw
  obtain ⟨hab, hys⟩ := hw
  rw [hab] at hys
  exact ⟨hab, hys⟩

theorem echoFrom_readLog {v : List Octet} {T : Nat} {o : Octet} {a b c : List Octet} {got : Option (List Octet)}
    {ys : List Xact} (h : echoFrom v v (readLog T o a b c got ++ ys) = true) :
    a ++ b = [o] ∧ c = [] ∧ echoFrom (v ++ [o]) (v ++ [o]) ys = true := by
  rw [readLog, List.append_assoc] at h
  obtain ⟨hab, hr⟩ := echoFrom_waitLog h
  rw [List.append_assoc, echoFrom_arrivals] at hr
  simp only [List.singleton_append, echoFrom, Bool.and_eq_true, decide_eq_true_eq] at hr
  obtain ⟨hpre, hys⟩ := hr
  have hc : c = [] := by simpa using hpre.length_le
  rw [hc, List.append_nil] at hys
  exact ⟨hab, hc, hys⟩

theorem unechoed_of_txRaises {T : Nat} {o : Octet} {s : State} {q' : List Octet} {e : Err} {xs : List Xact}
    (h : TxRaises T o s.sq e xs q') : Unechoed s xs := by
  intro v hq hr he
  rw [← List.append_nil xs] at he
  cases h with
  | write a => cases (echoFrom_writeLog he).1
  | busy a => cases (echoFrom_writeLog he).1
  | expired a b hnone =>
    have hab := (echoFrom_waitLog he).1
    simp [hq, hab] at hnone
  | wait a b hnone =>
    have hab := (echoFrom_waitLog he).1
    simp [hq, hab] at hnone
  | read a b c q' => cases hr (.serRead 1 none) (by simp)
  | contention a b c q' x _ hx hne =>
    obtain ⟨hab, rfl, -⟩ := echoFrom_readLog he
    rw [hq, List.nil_append, hab] at hx
    exact hne (List.cons.inj hx).1.symm

/-! ## Pieces that send -/

/-- The piece is over: exactly `bs` is on the wire, and no octet-level error is logged. Where nothing is to send, nothing
is offered either. The premise IdealEcho has the echo taken in. -/
def Sent (w : Option Octet) (bs : List Octet) (s t : State) : Prop :=
  ∃ xs w', t.trace = s.trace ++ xs ∧ wireOf xs = bs ∧ (bs = [] → w' = w) ∧
    (∀ ys, firstError w (xs ++ ys) = firstError w' ys) ∧ Echoed bs s xs t

/-- The piece ended in its first octet-level error, an initial part of `bs` on the wire; the premise
IdealEcho excludes that. -/
def SentUpTo (w : Option Octet) (bs : List Octet) (s : State) (e : Err) (t : State) : Prop :=
  ∃ xs, t.trace = s.trace ++ xs ∧ wireOf xs <+: bs ∧ firstError w xs = some (e, []) ∧ Unechoed s xs

/-- The piece was cut, an initial part of `bs` on the wire, and nothing is logged after an octet-level error. -/
def SentCut (w : Option Octet) (bs : List Octet) (s t : State) : Prop :=
  ∃ xs, t.trace = s.trace ++ xs ∧ wireOf xs <+: bs ∧ ∀ e ys, firstError w xs = some (e, ys) → ys = []

/-- The piece sends `bs`, and stops at the first octet-level error; `w` is the octet offered last. -/
def Sends {α : Type} (w : Option Octet) (bs : List Octet) (s : State) (r : Ret α) : Prop :=
  r.ends (fun _ t => Sent w bs s t) (SentUpTo w bs s) fun _ t => SentCut w bs s t

section sends

variable {α β : Type} {w : Option Octet} {s : State}

theorem Sends.bind {bs cs : List Octet} {r : Ret α} {f : α → State → Ret β} (h : Sends w bs s r)
    (hf : r.gives fun a t => ∀ w', (bs = [] → w' = w) → Sends w' cs t (f a t)) :
    Sends w (bs ++ cs) s (r.bind f) := by
  rw [Sends, ends_bind]
  refine (Ret.ends.and h hf).mono (fun a t ht => ?_) (fun e t ht => ?_) fun v t ht => ?_
  · obtain ⟨⟨xs, w', htr, hwire, hkeep, hxs, hecho⟩, hnext⟩ := ht
    refine Ret.ends.mono (hnext w' hkeep) (fun b u hu => ?_) (fun e u hu => ?_) fun v u hu => ?_
    · obtain ⟨ys, w'', hy, hwy, hkeep', hys, hecho'⟩ := hu
      refine ⟨xs ++ ys, w'', by rw [hy, htr, List.append_assoc], by rw [wireOf_append, hwire, hwy], fun hnil => ?_,
        fun zs => by rw [List.append_assoc, hxs, hys], hecho.trans hecho'⟩
      obtain ⟨hb, hc⟩ := List.append_eq_nil_iff.1 hnil
      rw [hkeep' hc, hkeep hb]
    · obtain ⟨ys, hy, hwy, hys, hun⟩ := hu
      exact ⟨xs ++ ys, by rw [hy, htr, List.append_assoc], by
        rw [wireOf_append, hwire]; exact (List.prefix_append_right_inj bs).2 hwy, by rw [hxs, hys],
        hecho.then_unechoed hun⟩
    · obtain ⟨ys, hy, hwy, hys⟩ := hu
      exact ⟨xs ++ ys, by rw [hy, htr, List.append_assoc], by
        rw [wireOf_append, hwire]; exact (List.prefix_append_right_inj bs).2 hwy, fun e zs he => hys e zs (hxs ys ▸ he)⟩
  · obtain ⟨⟨xs, htr, hwire, hxs⟩, -⟩ := ht
    exact ⟨xs, htr, hwire.trans (List.prefix_append _ _), hxs⟩
  · obtain ⟨⟨xs, htr, hwire, hxs⟩, -⟩ := ht
    exact ⟨xs, htr, hwire.trans (List.prefix_append _ _), hxs⟩

/-- Register writes on an error change nothing of the log. -/
theorem Sends.onRaise {bs : List Octet} {r : Ret α} {g : State → State} (h : Sends w bs s r)
    (hg : ∀ t, (g t).trace = t.trace) : Sends w bs s (r.onRaise g) := by
  rw [Sends, ends_onRaise]
  refine Ret.ends.mono h (fun _ _ h => h) (fun e t ht => ?_) fun _ _ h => h
  obtain ⟨xs, htr, hrest⟩ := ht
  exact ⟨xs, (hg t).trans htr, hrest⟩

/-- A piece without transactions. -/
theorem sends_nothing {a : α} {t : State} (h : t.trace = s.trace) (hq : t.sq = s.sq) : Sends w [] s (.done a t) :=
  ⟨[], w, by simp [h], rfl, fun _ => rfl, fun _ => rfl, fun v _ hs _ he =>
    ⟨hq.trans hs, by rw [List.append_nil]; exact he⟩⟩

theorem sends_txRaw (w : Option Octet) (o : Octet) (s : State) : Sends w [o] s (txRaw o s) := by
  refine (txRaw_log o s).mono (fun _ t ht => ?_) (fun e t ht => ?_) fun v t ht => ?_
  · obtain ⟨a, b, c, htr, -, hq⟩ := ht
    refine ⟨_, some o, htr, wireOf_readLog _ _ _ _ _ _, nofun, firstError_readLog w _ o a b c, fun v ys hs _ he => ?_⟩
    obtain ⟨hab, rfl, hys⟩ := echoFrom_readLog he
    rw [hs, List.nil_append, hab] at hq
    exact ⟨(List.cons.inj hq).2.symm, hys⟩
  · obtain ⟨xs, htr, hx⟩ := ht
    exact ⟨xs, htr, wireOf_of_txRaises hx, firstError_of_txRaises hx w, unechoed_of_txRaises hx⟩
  · obtain ⟨xs, htr, hx⟩ := ht
    exact ⟨xs, htr, wireOf_of_txCut hx, fun _ _ => firstError_of_txCut hx w⟩

/-- A following piece that sends whatever was offered last. -/
theorem Sends.then {bs cs : List Octet} {r : Ret α} {f : α → State → Ret β} {P : State → Prop} (h : Sends w bs s r)
    (hr : r.all P) (hf : ∀ a t w', P t → Sends w' cs t (f a t)) : Sends w (bs ++ cs) s (r.bind f) :=
  h.bind (Ret.ends.gives hr fun a t ht w' _ => hf a t w' ht)

theorem sends_encOctet (w : Option Octet) (b : Octet) (s : State) : Sends w (stuff s.cfg b) s (encOctet b s) := by
  unfold encOctet stuff
  split
  · exact (sends_txRaw w s.cfg.escOctet s).then (ran_txRaw _ s) fun _ t w' _ => sends_txRaw w' b t
  · exact sends_txRaw w b s

/-- ENC.OCTET leaves ACC and the parameters alone (R152). -/
theorem encOctet_keeps (b : Octet) (s : State) : (encOctet b s).all fun t => t.cfg = s.cfg ∧ t.acc = s.acc :=
  (ran_encOctet b s).mono fun t h => by
    rw [h.frame]
    exact ⟨rfl, rfl⟩

theorem sends_sendPayload (w : Option Octet) (i : Nat) (p : List Octet) (s : State) :
    Sends w (p.flatMap (stuff s.cfg)) s (sendPayload i p s) := by
  induction p generalizing i s w with
  | nil => exact sends_nothing rfl rfl
  | cons b bs ih =>
    refine Sends.then (sends_encOctet w b { s with txidx := i }) (encOctet_keeps b { s with txidx := i })
      fun _ t w' ht => ?_
    have h := ih w' (i + 1) (feedAcc b t)
    rw [show (feedAcc b t).cfg = s.cfg from ht.1] at h
    exact h

/-- The payload loop folds the payload into ACC (R156). -/
theorem sendPayload_acc (i : Nat) (p : List Octet) (s : State) :
    (sendPayload i p s).gives fun _ t => t.cfg = s.cfg ∧ t.acc = p.foldl (accUpdate s.cfg) s.acc := by
  induction p generalizing i s with
  | nil => exact ⟨rfl, rfl⟩
  | cons b bs ih =>
    refine gives_bind (Ret.ends.gives (encOctet_keeps b { s with txidx := i }) fun _ t ht => ?_)
    have hcfg : t.cfg = s.cfg := ht.1
    have hacc : t.acc = s.acc := ht.2
    refine (ih (i + 1) (feedAcc b t)).gives fun _ u hu => ?_
    rw [hu.1, hu.2]
    simp only [feedAcc, hcfg, hacc, List.foldl_cons, and_self]

theorem sends_sendTail (w : Option Octet) (s : State) :
    Sends w ((trailer s.acc).flatMap (stuff s.cfg) ++ [s.cfg.endOctet]) s (sendTail s) := by
  have hwire : (trailer s.acc).flatMap (stuff s.cfg) ++ [s.cfg.endOctet] =
      stuff s.cfg (hi s.acc) ++ (stuff s.cfg (lo s.acc) ++ ([s.cfg.endOctet] ++ [])) := by simp [trailer]
  rw [hwire]
  refine Sends.then (sends_encOctet w _ { s with txphase := .crcHi }) (encOctet_keeps _ { s with txphase := .crcHi })
    fun _ t w' ht => ?_
  rw [← show t.cfg = s.cfg from ht.1, ← show t.acc = s.acc from ht.2]
  refine Sends.then (sends_encOctet w' _ { t with txphase := .crcLo }) (encOctet_keeps _ { t with txphase := .crcLo })
    fun _ u w'' hu => ?_
  rw [← show u.cfg = t.cfg from hu.1]
  exact Sends.then (sends_txRaw w'' _ { u with txphase := .term }) (ran_txRaw _ _) fun _ _ _ _ => sends_nothing rfl rfl

/-- The frame of `p`, after the drain. -/
theorem sends_sendFrame (w : Option Octet) (p : List Octet) (s : State) :
    Sends w (eframeWire s.cfg p) s (sendFrame p s) := by
  have hwire : eframeWire s.cfg p = p.flatMap (stuff s.cfg) ++
      ((trailer (crcFold s.cfg p)).flatMap (stuff s.cfg) ++ [s.cfg.endOctet]) := by simp [eframeWire, frameOctets]
  rw [hwire]
  refine Sends.onRaise (Sends.bind (sends_sendPayload w 0 p { seedAcc s with txphase := .payload }) ?_) fun _ => rfl
  refine (sendPayload_acc 0 p _).gives fun _ t ht w' _ => ?_
  obtain ⟨hcfg, hacc⟩ := ht
  have h := sends_sendTail w' t
  rw [hcfg, hacc] at h
  exact h

/-- The drain compares nothing it reads with anything (R157). -/
theorem sends_discard (n : Nat) (s : State) (hn : n ≤ s.sq.length) : Sends none [] s (discard n s) := by
  induction n generalizing s with
  | zero => exact sends_nothing rfl rfl
  | succ n ih =>
    have hne : s.sq ≠ [] := fun hq => by simp [hq] at hn
    have hread : Sends none [] s (readOne s) := by
      refine (readOne_log hne).mono (fun o t ht => ?_) (fun e t ht => ?_) fun v t ht => ?_
      · exact ⟨_, none, ht.1, wireOf_turn _ _, fun _ => rfl, firstError_turn none s.turn.rx (.serRead 1 (some [o])),
          fun _ _ hq => absurd hq hne⟩
      · obtain ⟨rfl, htr⟩ := ht
        exact ⟨_, htr, wirePrefix_of_eq (wireOf_turn _ _), List.append_nil (turnLog s _) ▸
          firstError_turn none s.turn.rx (.serRead 1 none) [], fun _ hq => absurd hq hne⟩
      · obtain ⟨-, got, htr⟩ := ht
        exact ⟨_, htr, wirePrefix_of_eq (wireOf_turn _ _), fun _ _ he =>
          firstError_last (ys := []) (v := none) (fun _ => rfl) he⟩
    refine Sends.bind (cs := []) hread ((readOne_log hne).gives fun o t ht w' hw' => ?_)
    have hlen := congrArg List.length ht.2
    rw [List.length_append, List.length_cons] at hlen
    rw [hw' rfl]
    exact ih t (by omega)

theorem sends_flush (s : State) : Sends none [] s (flush s) := by
  have hpend : Sends none [] s (serPending s) := by
    refine (serPending_log s).mono (fun k t ht => ?_) (fun _ _ h => h.elim) fun v t ht => ?_
    · obtain ⟨htr, hq, -⟩ := ht
      refine ⟨_, none, htr, wireOf_turn _ _, fun _ => rfl, firstError_turn none s.turn.rx (.serPending k),
        fun v ys hs _ he => ?_⟩
      rw [turnLog, List.append_assoc, echoFrom_arrivals] at he
      simp only [List.singleton_append, echoFrom, Bool.and_eq_true, decide_eq_true_eq] at he
      have hrx : s.turn.rx = [] := by simpa using he.1.length_le
      rw [hrx, List.append_nil] at he hq
      exact ⟨hq.trans hs, by rw [List.append_nil]; exact he.2⟩
    · obtain ⟨-, k, htr⟩ := ht
      exact ⟨_, htr, wirePrefix_of_eq (wireOf_turn _ _), fun _ _ he =>
        firstError_last (ys := []) (v := none) (fun _ => rfl) he⟩
  refine Sends.bind (cs := []) hpend ((serPending_log s).gives fun k t ht w' hw' => ?_)
  obtain ⟨-, -, rfl⟩ := ht
  rw [hw' rfl]
  exact Sends.then (cs := []) (sends_discard _ t (Nat.le_refl _)) (ran_discard _ t) fun _ _ _ _ => sends_nothing rfl rfl

/-- ENC.FRAME under any environment (R158). -/
theorem sends_encFrame (p : List Octet) (s : State) : Sends none (eframeWire s.cfg p) s (encFrame p s) := by
  have hcfg : ((flush { s with txphase := .drain }).onRaise txFailed).all fun t => t.cfg = s.cfg :=
    onRaise_all ((ran_flush _).mono fun t h => by rw [h.frame]; rfl) fun _ h => h
  refine Sends.then (bs := []) (Sends.onRaise (sends_flush { s with txphase := .drain }) fun _ => rfl) hcfg
    fun _ t w' ht => ?_
  rw [← ht]
  exact sends_sendFrame w' p t

end sends

/-- Settles O16: ENC.FRAME sends its frame and stops at the first octet-level error. -/
theorem encFrameLeavesFramePrefix : Obligations.EncFrameLeavesFramePrefix := by
  intro s p t ha h
  have hleft := left_of_exec h nofun endFn_withEnc (all_value (ran_encFrame p s) _)
  refine ⟨hleft.wire_since, ?_⟩
  rcases exec_value_cases (fun _ => .num p.length) ha h (Ret.ends.and (encFrame_ends p s) (sends_encFrame p s)) with
    ⟨-, u, ⟨hph, xs, w', htr, hwire, -, hxs, -⟩, rfl⟩ | ⟨e, u, ⟨⟨he, hph⟩, xs, htr, hwire, hxs, -⟩, rfl⟩ |
      ⟨v, u, ⟨rfl, xs, htr, hwire, hxs⟩, rfl⟩
  · have hnone := hxs []
    rw [List.append_nil] at hnone
    have hsince : since s (u.finish (.num p.length)) = xs := since_eq htr
    rw [hsince]
    exact ⟨wirePrefix_of_eq hwire, fun e ys h => (Option.some_ne_none _ (h.symm.trans hnone)).elim, .inl rfl,
      fun _ => .inl ⟨hph, rfl, hwire, hnone⟩⟩
  · have hsince : since s (u.raise e) = xs := since_eq htr
    rw [hsince]
    refine ⟨hwire, fun e' ys h => ?_, .inl rfl, fun _ => .inr ⟨hph, e, he, rfl, hxs⟩⟩
    rw [hxs] at h
    cases h
    rfl
  · have hsince : since s { u with wait := some .reset } = xs := since_eq htr
    rw [hsince]
    exact ⟨hwire, hxs, .inr rfl, nofun⟩

/-- The frame's fold is in ACC when ENC.FRAME is over (R156). -/
theorem encFrame_acc (p : List Octet) (s : State) : (encFrame p s).gives fun _ t => t.acc = crcFold s.cfg p := by
  have htail (s : State) : (sendTail s).gives fun _ t => t.acc = s.acc := by
    refine gives_bind (Ret.ends.gives (encOctet_keeps _ { s with txphase := .crcHi }) fun _ t ht => ?_)
    refine gives_bind (Ret.ends.gives (encOctet_keeps _ { t with txphase := .crcLo }) fun _ u hu => ?_)
    have hraw : (txRaw u.cfg.endOctet { u with txphase := .term }).all fun v => v.acc = u.acc :=
      (ran_txRaw _ _).mono fun v h => by rw [h.frame]; rfl
    exact gives_bind (Ret.ends.gives hraw fun _ v hv => hv.trans (hu.2.trans ht.2))
  have hcfg : ((flush { s with txphase := .drain }).onRaise txFailed).all fun t => t.cfg = s.cfg :=
    onRaise_all ((ran_flush _).mono fun t h => by rw [h.frame]; rfl) fun _ h => h
  refine gives_bind (Ret.ends.gives hcfg fun _ t ht => ?_)
  rw [sendFrame, Ret.gives, ends_onRaise]
  refine gives_bind ((sendPayload_acc 0 p { seedAcc t with txphase := .payload }).gives fun _ u hu => ?_)
  refine (htail u).gives fun _ v hv => ?_
  rw [hv, hu.2, ← ht]
  rfl

/-- Settles O14: the drain of what is pending and the echoed frame; and whatever the log, where it meets the premise. -/
theorem encFrameSendsFrame : Obligations.EncFrameSendsFrame := by
  refine ⟨fun s p rest ha h => ?_, fun s t p ha hq h hw hecho hreads => ?_⟩
  · rw [List.append_assoc] at h
    have hexec := exec_of_accepts ha
    rw [body, encFrame_echo h] at hexec
    exact ⟨_, hexec, rfl, rfl, rfl, rfl, rfl, rfl, rfl, rfl, withEnc_finish (wait_of_accepts ha) rfl _⟩
  · have hleft := left_of_exec h nofun endFn_withEnc (all_value (ran_encFrame p s) _)
    have hwire := hleft.wire_since
    rcases exec_value_cases (fun _ => .num p.length) ha h
        ((Ret.ends.and (encFrame_ends p s) (sends_encFrame p s)).and (encFrame_acc p s)) with
      ⟨-, u, ⟨⟨hph, xs, w', htr, hxw, -, -, he⟩, hacc⟩, rfl⟩ | ⟨e, u, ⟨⟨-, xs, htr, -, -, hun⟩, -⟩, rfl⟩ |
        ⟨v, u, -, rfl⟩
    · have hsince : since s (u.finish (.num p.length)) = xs := since_eq htr
      rw [hsince] at hecho hreads hwire
      exact ⟨hxw ▸ hwire, rfl, (he [] [] hq hreads (by rw [List.append_nil]; exact hecho)).1, hacc, hph⟩
    · have hsince : since s (u.raise e) = xs := since_eq htr
      rw [hsince] at hecho hreads
      exact absurd hecho (hun [] hq hreads)
    · cases hw

/-- Where nothing arrives there is no echo. -/
theorem arrivals_of_noEcho {os : List Octet} {xs : List Xact} (h : NoEcho xs) (hx : ∀ x ∈ arrivals os, x ∈ xs) :
    os = [] := by
  by_contra hne
  have hmem : Xact.arrive os ∈ arrivals os := by simp [arrivals, hne]
  exact hne (h _ (hx _ hmem))

/-- Without an echo TX.RAW does not get to its read. -/
theorem readLog_of_noEcho {T : Nat} {o : Octet} {a b c : List Octet} {got : Option (List Octet)}
    (h : NoEcho (readLog T o a b c got)) : a = [] ∧ b = [] :=
  ⟨arrivals_of_noEcho h fun _ hx => by simp [hx], arrivals_of_noEcho h fun _ hx => by simp [hx]⟩

/-- Settles O8: the echoed TX.RAW, and the premises' TX.RAW by its log. -/
theorem txRawVerifiesEcho : Obligations.TxRawVerifiesEcho := by
  refine ⟨fun s o rest ha hq h => ?_, fun s t o ha hq h hw hecho hreads => ?_, fun s t o ha hq h hw hno => ?_⟩
  · rw [exec_of_accepts ha, body, txRaw_echo hq h]
    simp [closing, Ret.bind, Ret.conclude, State.finish, wait_of_accepts ha, echoLog]
  · have hleft := left_of_exec h nofun endFn_withTx (all_value (ran_txRaw o s) _)
    have hwire := hleft.wire_since
    rcases exec_value_cases (fun _ => .unit) ha h (sends_txRaw none o s) with
      ⟨-, u, ⟨xs, w', htr, hxw, -, -, he⟩, rfl⟩ | ⟨e, u, ⟨xs, htr, -, -, hun⟩, rfl⟩ | ⟨v, u, -, rfl⟩
    · have hsince : since s (u.finish .unit) = xs := since_eq htr
      rw [hsince] at hecho hreads hwire
      exact ⟨rfl, hxw ▸ hwire, (he [] [] hq hreads (by rw [List.append_nil]; exact hecho)).1⟩
    · have hsince : since s (u.raise e) = xs := since_eq htr
      rw [hsince] at hecho hreads
      exact absurd hecho (hun [] hq hreads)
    · cases hw
  · rcases exec_value_cases (fun _ => .unit) ha h (txRaw_log o s) with
      ⟨-, u, ⟨a, b, c, htr, hne, -⟩, rfl⟩ | ⟨e, u, ⟨xs, htr, hx⟩, rfl⟩ | ⟨v, u, -, rfl⟩
    · have hsince : since s (u.finish .unit) = _ := since_eq htr
      rw [hsince] at hno
      obtain ⟨rfl, rfl⟩ := readLog_of_noEcho hno
      simp [hq] at hne
    · have hsince : since s (u.raise e) = xs := since_eq htr
      rw [hsince] at hno
      generalize hu : u.sq = q at hx
      have hend {e : Err} (he : e ∈ [Err.busy, .timeout, .ioError]) (hq : q = []) :
          (∃ e' ∈ [Err.busy, .timeout, .ioError], (u.raise e).result = .err e') ∧ (u.raise e).sq = [] :=
        ⟨⟨e, he, rfl⟩, hu.trans hq⟩
      cases hx with
      | write a =>
        have harr : a = [] := arrivals_of_noEcho hno fun _ hx => by simp [hx]
        exact hend (by decide) (by rw [hq, harr]; rfl)
      | busy a =>
        have harr : a = [] := arrivals_of_noEcho hno fun _ hx => by simp [hx]
        exact hend (by decide) (by rw [hq, harr]; rfl)
      | expired a b => exact hend (by decide) rfl
      | wait a b => exact hend (by decide) rfl
      | read a b c q' hne =>
        obtain ⟨rfl, rfl⟩ := readLog_of_noEcho hno
        simp [hq] at hne
      | contention a b c q' x hne =>
        obtain ⟨rfl, rfl⟩ := readLog_of_noEcho hno
        simp [hq] at hne
    · cases hw

/-! ## TAP2TTY -/

/-- What is left of a turn's log when arrivals are left out. -/
theorem filter_turn (os : List Octet) {x : Xact} (hx : x.arrived = []) :
    (arrivals os ++ [x]).filter (fun x => decide (x.arrived = [])) = [x] := by
  have harr : (arrivals os).filter (fun x => decide (x.arrived = [])) = [] := by
    unfold arrivals
    split_ifs with h
    · rfl
    · simp [Xact.arrived, h]
  rw [List.filter_append, harr, List.nil_append, List.filter_singleton, hx]
  rfl

/-- The backoff logs a draw in its range and a sleep (R227). -/
theorem backoff_log (s : State) :
    (backoff s).gives fun _ t => (∃ xs, t.trace = s.trace ++ xs ∧ isBackoff s.cfg xs) ∧ t.cfg = s.cfg ∧
      t.attempt = s.attempt := by
  have hdraw : (rand12 s).gives fun r t => r = s.draw ∧ t.trace = s.trace ++ turnLog s (Xact.rand12 r) ∧
      t.cfg = s.cfg ∧ t.attempt = s.attempt := by
    unfold rand12 Ret.orReset
    split
    · trivial
    · exact ⟨rfl, List.append_assoc _ _ _, rfl, rfl⟩
  have hsleep (d : Nat) (t : State) : (sleep d t).gives fun _ u => u.trace = t.trace ++ turnLog t (Xact.sleep d) ∧
      u.cfg = t.cfg ∧ u.attempt = t.attempt := by
    unfold sleep Ret.orReset
    split
    · trivial
    · exact ⟨List.append_assoc _ _ _, rfl, rfl⟩
  refine gives_bind (hdraw.gives fun r t ht => (hsleep _ t).gives fun _ u hu => ?_)
  obtain ⟨hr, htr, hcfg, hatt⟩ := ht
  obtain ⟨htru, hcfgu, hattu⟩ := hu
  refine ⟨⟨turnLog s (Xact.rand12 r) ++ turnLog t (Xact.sleep (r + t.cfg.backoffFixed)),
    by rw [htru, htr, List.append_assoc], r, ?_, ?_⟩, hcfgu.trans hcfg, hattu.trans hatt⟩
  · rw [hr]
    exact Nat.lt_succ_iff.1 (Nat.mod_lt _ (Nat.succ_pos _))
  · rw [List.filter_append, turnLog, turnLog, filter_turn _ rfl, filter_turn _ rfl, hcfg]
    rfl

/-- How attempts that came to an end are logged: failed ones, each with a backoff behind it, and the last. -/
structure TapLog (c : Config) (p : List Octet) (n : Nat) (v : Value) (s t : State) (fs : List (List Xact))
    (a : List Xact) (bs : List (List Xact)) : Prop where
  retries : t.attempt = s.attempt + fs.length
  backoffs : bs.length = fs.length
  bound : fs.length ≤ n
  failed : ∀ f ∈ fs, attemptFailed c p f
  slept : ∀ b ∈ bs, isBackoff c b
  last : (v = .sent ∧ t.trace = s.trace ++ interleave (fs ++ [a]) bs ∧ attemptOk c p a) ∨
    (v = .dropped ∧ t.trace = s.trace ++ (interleave (fs ++ [a]) bs ++ [Xact.logDropped]) ∧ attemptFailed c p a ∧
      fs.length = n)

/-- One more attempt and its backoff before. -/
theorem interleave_cons (a b c : List Xact) (fs bs : List (List Xact)) :
    interleave (a :: (fs ++ [c])) (b :: bs) = a ++ b ++ interleave (fs ++ [c]) bs := rfl

theorem TapLog.cons {c : Config} {p : List Octet} {n : Nat} {v : Value} {s t u : State} {fs bs : List (List Xact)}
    {a f b : List Xact} (h : TapLog c p n v t u fs a bs) (htr : t.trace = s.trace ++ f ++ b)
    (hatt : t.attempt = s.attempt + 1) (hf : attemptFailed c p f) (hb : isBackoff c b) :
    TapLog c p (n + 1) v s u (f :: fs) a (b :: bs) where
  retries := by
    rw [h.retries, hatt, List.length_cons]
    omega
  backoffs := congrArg (· + 1) h.backoffs
  bound := Nat.succ_le_succ h.bound
  failed x hx := (List.mem_cons.1 hx).elim (fun hx => hx ▸ hf) (h.failed x)
  slept x hx := (List.mem_cons.1 hx).elim (fun hx => hx ▸ hb) (h.slept x)
  last := by
    rw [List.cons_append, interleave_cons]
    rcases h.last with ⟨hv, hu, hok⟩ | ⟨hv, hu, hbad, hn⟩
    · exact .inl ⟨hv, by rw [hu, htr]; simp only [List.append_assoc], hok⟩
    · exact .inr ⟨hv, by rw [hu, htr]; simp only [List.append_assoc], hbad, congrArg (· + 1) hn⟩

theorem attempts_log (n : Nat) (p : List Octet) (s : State) :
    (attempts n p s).gives fun v t => ∃ fs a bs, TapLog s.cfg p n v s t fs a bs := by
  have done {n : Nat} {s t : State} {r : Ret Unit} (hr : r = .done () t) (hs : Sends none (eframeWire s.cfg p) s r)
      (ha : r.all fun t => t.attempt = s.attempt) : ∃ fs a bs, TapLog s.cfg p n .sent s t fs a bs := by
    subst hr
    obtain ⟨xs, w', htr, hwire, -, hxs, -⟩ := hs
    have hnone := hxs []
    rw [List.append_nil] at hnone
    exact ⟨[], xs, [], ha, rfl, Nat.zero_le _, nofun, nofun, .inl ⟨rfl, htr, hwire, hnone⟩⟩
  induction n generalizing s with
  | zero =>
    have hsend := sends_encFrame p s
    have hatt := encFrame_attempt p s
    cases he : encFrame p s with
    | done v t =>
      rw [attempts, he]
      exact done he (he ▸ hsend) (he ▸ hatt)
    | raised e t =>
      rw [he] at hsend hatt
      obtain ⟨xs, htr, hwire, hxs, -⟩ := hsend
      rw [attempts, he]
      exact ⟨[], xs, [], hatt, rfl, Nat.zero_le _, nofun, nofun,
        .inr ⟨rfl, by rw [record_trace, htr, List.append_assoc]; rfl, ⟨hwire, e, hxs⟩, rfl⟩⟩
    | waiting w t =>
      rw [attempts, he]
      trivial
  | succ n ih =>
    have hsend := sends_encFrame p s
    have hframe := (ran_encFrame p s).and (encFrame_attempt p s)
    cases he : encFrame p s with
    | done v t =>
      rw [attempts, he]
      exact done he (he ▸ hsend) (hframe.mono fun _ h => h.2)
    | raised e t =>
      rw [he] at hsend hframe
      obtain ⟨f, htr, hwire, hf, -⟩ := hsend
      obtain ⟨hran, hatt⟩ := hframe
      have hcfg : t.cfg = s.cfg := by rw [hran.frame]; rfl
      rw [attempts, he]
      refine gives_bind ((backoff_log _).gives fun _ u hu => ?_)
      obtain ⟨⟨b, hb, hback⟩, hcu, hau⟩ := hu
      have hcu' : u.cfg = s.cfg := hcu.trans hcfg
      refine (ih u).gives fun v x hx => ?_
      obtain ⟨fs, a, bs, hlog⟩ := hx
      rw [hcu'] at hlog
      refine ⟨f :: fs, a, b :: bs, hlog.cons ?_ ?_ ⟨hwire, e, hf⟩ (hcfg ▸ hback)⟩
      · rw [hb]
        exact congrArg (· ++ b) htr
      · rw [hau]
        exact congrArg (· + 1) hatt
    | waiting w t =>
      rw [attempts, he]
      trivial

/-- Settles O38: the attempts' log; TAP2TTY starts them at ATTEMPT 0. -/
theorem tap2ttyNeverRaises : Obligations.Tap2ttyNeverRaises := by
  intro s p t ha h
  have hleft := left_of_exec h nofun endFn_withTap (ran_tap2tty p s)
  have hover := overOrCut_of_exec h rfl (tap2tty_ends p s)
  rw [overOrCut, wait_of_accepts ha] at hover
  refine ⟨hleft.wire_since, hover, fun hw => ?_⟩
  rcases exec_ends_cases ha h (Ret.ends.and (tap2tty_ends p s) (attempts_log s.cfg.retryMax p { s with attempt := 0 }))
    with ⟨v, u, ⟨-, fs, a, bs, hlog⟩, rfl⟩ | ⟨e, u, ⟨hf, -⟩, -⟩ | ⟨w, u, -, rfl⟩
  · have hatt : u.attempt = fs.length := hlog.retries.trans (Nat.zero_add _)
    rw [finish_attempt, hatt]
    refine ⟨fs, a, bs, rfl, hlog.backoffs, hlog.bound, hlog.failed, hlog.slept, ?_⟩
    rcases hlog.last with ⟨rfl, htr, hok⟩ | ⟨rfl, htr, hbad, hn⟩
    · exact .inl ⟨rfl, since_eq htr, hok⟩
    · exact .inr ⟨rfl, since_eq htr, hbad, hn⟩
  · exact hf.elim
  · cases hw

end Sys2Proof.Machine
end

section
/-! SUPPORT. RD.BYTES and NAT.RX under turns that bring nothing and fail nothing (spec/43_native_transport.md R192 to R199),
however many octets each read returns; what NAT.RX delivers under any environment. -/

namespace Sys2Proof.Machine

/-! ## One read -/

theorem still_cons {t : Turn} {ts : List Turn} (h : still (t :: ts)) :
    (t.rx = [] ∧ t.fail = false ∧ t.reset = false) ∧ still ts :=
  ⟨h t (List.mem_cons_self ..), fun x hx => h x (List.mem_cons_of_mem _ hx)⟩

/-- A read in a still turn takes at least one octet and no more than it asks for. -/
theorem serRead_still {s : State} {r : Turn} {ts : List Turn} {m : Nat} (h : s.script = r :: ts)
    (hr : r.rx = [] ∧ r.fail = false ∧ r.reset = false) (hm : 0 < m) (hq : s.sq ≠ []) :
    ∃ bs u, serRead m s = .done bs u ∧ s.sq = bs ++ u.sq ∧ bs ≠ [] ∧ bs.length ≤ m ∧ u.script = ts ∧ Moved s u := by
  obtain ⟨hrx, hf, hreset⟩ := hr
  have hturn := turn_cons h
  have hsq : s.elapse.sq = s.sq := by rw [elapse_sq, hturn, hrx, List.append_nil]
  set c := readCount m s.elapse.sq.length s.turn with hc
  have hdone : serRead m s = .done (s.elapse.sq.take c)
      ({ s.elapse with sq := s.elapse.sq.drop c }.record (.serRead m (some (s.elapse.sq.take c)))) := by
    rw [serRead, hturn, hf, if_neg Bool.false_ne_true, ← hturn, orReset_of_not (by rw [hturn]; exact hreset)]
  have hlog := serRead_log m s
  rw [hdone] at hlog
  obtain ⟨-, htake, hle, hpos⟩ := hlog
  rw [hturn, hrx, List.append_nil] at htake
  exact ⟨_, _, hdone, htake, hpos hq hm, hle, by simp [h], rfl, rfl⟩

/-! ## RD.BYTES -/

/-- From `s`, RD.BYTES k has taken `os`, the octets still missing, and stored them in order. -/
structure Gathered (k : Nat) (s : State) (os : List Octet) (t : State) : Prop where
  taken : s.sq = os ++ t.sq
  missing : s.ncnt + os.length = k
  count : t.ncnt = k
  stored : Memory.wf s.nbuf → Memory.wf t.nbuf ∧ Memory.prefixOf t.nbuf k = Memory.prefixOf s.nbuf s.ncnt ++ os
  still : still t.script
  turns : s.script.length ≤ t.script.length + 2 * os.length

theorem Gathered.refl {s : State} (h : Machine.still s.script) : Gathered s.ncnt s [] s :=
  ⟨rfl, rfl, rfl, fun hw => ⟨hw, (List.append_nil _).symm⟩, h, Nat.le_refl _⟩

/-- One read before. -/
theorem Gathered.cons {k : Nat} {s u t : State} {bs os : List Octet} (hsq : s.sq = bs ++ u.sq) (hne : bs ≠ [])
    (hregs : u.nbuf = s.nbuf ∧ u.ncnt = s.ncnt) (hscr : s.script.length = u.script.length + 2)
    (h : Gathered k (storeRead bs u) os t) : Gathered k s (bs ++ os) t := by
  obtain ⟨hnbuf, hncnt⟩ := hregs
  have htaken : u.sq = os ++ t.sq := h.taken
  have hmissing : u.ncnt + bs.length + os.length = k := h.missing
  have hturns : u.script.length ≤ t.script.length + 2 * os.length := h.turns
  have hpos : 0 < bs.length := List.length_pos_iff.2 hne
  refine ⟨by rw [hsq, htaken, List.append_assoc], by rw [List.length_append]; omega, h.count, fun hw => ?_, h.still,
    by rw [List.length_append]; omega⟩
  have hwf : Memory.wf u.nbuf := hnbuf ▸ hw
  obtain ⟨hwt, hpre⟩ := h.stored (Memory.wf_writeList _ _ hwf)
  refine ⟨hwt, hpre.trans ?_⟩
  rw [← List.append_assoc, ← hnbuf, ← hncnt]
  exact congrArg (· ++ os) (Memory.prefixOf_writeList hwf u.ncnt bs)

theorem readLoop_of_full (n : Nat) {k : Nat} {s : State} (h : k ≤ s.ncnt) : readLoop n k s = .done () s := by
  cases n with
  | zero => rfl
  | succ n => exact if_neg (Nat.not_lt.2 h)

/-- Under still turns the loop takes what is missing, or everything there is. -/
theorem readLoop_still {n k : Nat} {s : State} (hn : k ≤ n + s.ncnt) (hk : s.ncnt ≤ k) (hst : still s.script)
    (hlen : 2 * (k - s.ncnt) ≤ s.script.length) :
    (readLoop n k s).ends (fun _ t => ∃ os, Gathered k s os t)
      (fun e t => e = .timeout ∧ t.sq = [] ∧ s.ncnt + s.sq.length < k) (fun _ _ => False) := by
  induction n generalizing s with
  | zero =>
    obtain rfl : s.ncnt = k := by omega
    exact ⟨[], .refl hst⟩
  | succ n ih =>
    by_cases hfull : k ≤ s.ncnt
    · rw [readLoop_of_full _ hfull]
      obtain rfl : s.ncnt = k := by omega
      exact ⟨[], .refl hst⟩
    · rw [readLoop, if_pos (Nat.not_le.1 hfull), ends_bind]
      match hscr : s.script with
      | [] => simp [hscr] at hlen; omega
      | [a] => simp [hscr] at hlen; omega
      | a :: r :: ts =>
        rw [hscr] at hst hlen
        obtain ⟨⟨harx, -, hareset⟩, hst'⟩ := still_cons hst
        obtain ⟨hr, hts⟩ := still_cons hst'
        by_cases hq : s.sq = []
        · have hfail : a.fail = false := (hst a (by simp)).2.1
          obtain ⟨u, hu, husq, -⟩ := serWait_nothing s.cfg.tRead hscr hareset (by rw [hq, harx]; rfl)
          rw [hu, hfail]
          exact ⟨rfl, husq, by rw [hq, List.length_nil]; omega⟩
        · obtain ⟨u, hu, husq, hus, hmu⟩ := serWait_ready s.cfg.tRead hscr hareset (by rw [harx, List.append_nil]; exact hq)
          rw [harx, List.append_nil] at husq
          have hncu : u.ncnt = s.ncnt := by rw [hmu.1]; rfl
          rw [hu, ends_done, ends_bind]
          obtain ⟨bs, v, hv, hvsq, hne, hle, hvs, hmv⟩ := serRead_still (m := k - u.ncnt) hus hr (by omega)
            (by rw [husq]; exact hq)
          have hregs : v.nbuf = s.nbuf ∧ v.ncnt = s.ncnt := by
            rw [(hmu.trans hmv).1]
            exact ⟨rfl, rfl⟩
          have hpos : 0 < bs.length := List.length_pos_iff.2 hne
          rw [husq] at hvsq
          have hcount : (storeRead bs v).ncnt = s.ncnt + bs.length := congrArg (· + bs.length) hregs.2
          have hscript : (storeRead bs v).script = ts := hvs
          rw [hv, ends_done]
          simp only [List.length_cons] at hlen
          refine (ih (s := storeRead bs v) (by rw [hcount]; omega) (by rw [hcount]; omega) (by rw [hscript]; exact hts)
            (by rw [hcount, hscript]; omega)).mono (fun _ t ht => ?_) (fun e t ht => ?_) fun _ _ h => h
          · obtain ⟨os, ht⟩ := ht
            exact ⟨bs ++ os, ht.cons hvsq hne hregs (by rw [hscr, hvs]; rfl)⟩
          · obtain ⟨rfl, htsq, hlt⟩ := ht
            refine ⟨rfl, htsq, ?_⟩
            rw [hcount] at hlt
            rw [hvsq, List.length_append]
            exact (Nat.add_assoc _ _ _) ▸ hlt

/-- RD.BYTES k has taken `os`, in order, and left the rest. -/
abbrev Read (k : Nat) (s : State) (os : List Octet) (t : State) : Prop := Gathered k { s with ncnt := 0 } os t

theorem Read.length {k : Nat} {s t : State} {os : List Octet} (h : Read k s os t) : os.length = k :=
  (Nat.zero_add _).symm.trans h.missing

theorem Read.nbuf {k : Nat} {s t : State} {os : List Octet} (h : Read k s os t) (hw : Memory.wf s.nbuf) :
    Memory.wf t.nbuf ∧ Memory.prefixOf t.nbuf k = os := h.stored hw

theorem rdBytes_still {k : Nat} {s : State} (hst : still s.script) (hlen : 2 * k ≤ s.script.length) :
    (rdBytes k s).ends (fun _ t => ∃ os, Read k s os t)
      (fun e t => e = .timeout ∧ t.sq = [] ∧ s.sq.length < k) (fun _ _ => False) :=
  (readLoop_still (s := { s with ncnt := 0 }) (Nat.le_refl _) (Nat.zero_le _) hst hlen).mono (fun _ _ h => h)
    (fun _ _ h => ⟨h.1, h.2.1, (Nat.zero_add s.sq.length).symm.trans_lt h.2.2⟩) fun _ _ h => h

/-- Settles O27: what is missing is there, so the loop takes it. -/
theorem rdBytesGathers : Obligations.RdBytesGathers := by
  intro s k ha hwf hst hlen hq
  have hexec := exec_of_accepts ha
  have hleft := left_of_exec hexec nofun endFn_withRead (all_value (ran_rdBytes k.toNat s) _)
  refine ⟨_, hexec, ?_⟩
  rcases exec_value_cases (fun _ => .inNbuf k.toNat) ha hexec (rdBytes_still hst hlen) with
    ⟨-, u, ⟨os, hr⟩, heq⟩ | ⟨e, u, ⟨-, -, hlt⟩, -⟩ | ⟨w, u, h, -⟩
  · rw [heq] at hleft ⊢
    have htaken : s.sq = os ++ u.sq := hr.taken
    refine ⟨rfl, ?_, hr.count, ?_, hleft.frame_of_wait (wait_of_accepts ha).symm fun _ _ => rfl,
      hleft.wire_eq fun _ hx => hx.1⟩
    · rw [finish_nbuf, (hr.nbuf hwf).2, htaken, ← hr.length, List.take_left]
    · rw [finish_sq, htaken, ← hr.length, List.drop_left]
  · omega
  · exact h.elim

/-! ## Deliveries -/

/-- Transactions that deliver nothing. -/
theorem delivered_of_ran {f : State → State → State} {s t : State} (h : Ran f kindRx s t) :
    t.delivered = s.delivered := by
  obtain ⟨xs, htr, -, hk⟩ := h.logged
  have hnone : xs.filterMap Xact.deliveredFrame = [] := List.filterMap_eq_nil_iff.2 fun x hx => (hk x hx).2.1
  rw [State.delivered, htr, List.filterMap_append, hnone, List.append_nil]
  rfl

/-- Settles O28: what is there is less than what is missing. -/
theorem rdBytesLosesPartialRead : Obligations.RdBytesLosesPartialRead := by
  intro s k ha hst hlen hq
  have hexec := exec_of_accepts ha
  refine ⟨_, hexec, ?_⟩
  rcases exec_value_cases (fun _ => .inNbuf k.toNat) ha hexec ((rdBytes_still hst hlen).and (ran_rdBytes k.toNat s)) with
    ⟨-, u, ⟨⟨os, hr⟩, -⟩, -⟩ | ⟨e, u, ⟨⟨rfl, husq, -⟩, hran⟩, heq⟩ | ⟨w, u, h, -⟩
  · have htaken : s.sq = os ++ u.sq := hr.taken
    rw [htaken, List.length_append, hr.length] at hq
    omega
  · rw [heq]
    exact ⟨rfl, husq, (delivered_of_ran hran : u.delivered = s.delivered)⟩
  · exact h.1.elim

theorem netWrite_delivers (p : List Octet) (s : State) :
    (netWrite p s).ends (fun _ t => t.delivered = s.delivered ++ [p] ∧ t.nbuf = s.nbuf ∧ t.len = s.len)
      (fun _ t => t.delivered = s.delivered) (fun _ _ => True) := by
  have harr : (arrivals s.turn.rx).filterMap Xact.deliveredFrame = [] :=
    List.filterMap_eq_nil_iff.2 fun x hx => by rw [mem_arrivals hx]; rfl
  unfold netWrite Ret.orReset
  split
  · trivial
  · split
    · simp [State.delivered, harr, Xact.deliveredFrame]
    · simp [State.delivered, harr, Xact.deliveredFrame]

/-- NAT.LEN.OK delivers what it has stored, once, or nothing (R196). -/
theorem natLenOk_delivers (n : Word16) (s : State) :
    (natLenOk n s).ends (fun v t => v = .delivered n.toNat ∧ t.len = n ∧ t.nstate = .done ∧
        t.delivered = s.delivered ++ [Memory.prefixOf t.nbuf n.toNat])
      (fun _ t => t.delivered = s.delivered) (fun _ _ => True) := by
  rw [natLenOk, ends_onRaise, ends_bind]
  have hread : (rdBytes n.toNat { s with len := n, nstate := .payload }).all fun t =>
      t.len = n ∧ t.delivered = s.delivered :=
    (ran_rdBytes _ _).mono fun t h => ⟨by rw [h.frame]; rfl, (delivered_of_ran h).trans rfl⟩
  refine Ret.ends.mono hread (fun _ t ht => ?_) (fun _ _ h => h.2) fun _ _ _ => trivial
  obtain ⟨hlen, hdel⟩ := ht
  rw [ends_bind]
  refine (netWrite_delivers _ t).mono (fun _ u hu => ?_) (fun _ _ h => h.trans hdel) fun _ _ h => h
  obtain ⟨hdu, hnbuf, hlu⟩ := hu
  rw [← hnbuf, hdel] at hdu
  exact ⟨rfl, hlu.trans hlen, rfl, hdu⟩

/-- NAT.RX delivers NBUF's first LEN octets once, or discards, or delivers nothing (R196, R198, R199). -/
theorem natRx_delivers (s : State) :
    (natRx s).ends (fun v t => t.nstate = .done ∧
        ((v = .delivered t.len.toNat ∧ t.len.toNat ≤ s.cfg.mtu ∧
            t.delivered = s.delivered ++ [Memory.prefixOf t.nbuf t.len.toNat]) ∨
          (v = .discarded ∧ s.cfg.mtu < t.len.toNat ∧ t.delivered = s.delivered)))
      (fun _ t => t.delivered = s.delivered) (fun _ _ => True) := by
  rw [natRx, ends_bind, ends_onRaise]
  have hread : (rdBytes 2 { s with nstate := .lenPrefix }).all fun t => t.cfg = s.cfg ∧ t.delivered = s.delivered :=
    (ran_rdBytes _ _).mono fun t h => ⟨by rw [h.frame]; rfl, (delivered_of_ran h).trans rfl⟩
  refine Ret.ends.mono hread (fun _ t ht => ?_) (fun _ _ h => h.2) fun _ _ _ => trivial
  obtain ⟨hcfg, hdel⟩ := ht
  split
  next hok =>
    refine (natLenOk_delivers _ t).mono (fun v u hu => ?_) (fun _ _ h => h.trans hdel) fun _ _ h => h
    obtain ⟨rfl, hlen, hst, hdu⟩ := hu
    rw [hlen, ← hcfg, ← hdel]
    exact ⟨hst, .inl ⟨rfl, of_decide_eq_true hok, hdu⟩⟩
  next hover => exact ⟨rfl, .inr ⟨rfl, by rw [← hcfg]; simpa [lenOk] using hover, hdel⟩⟩

/-! ## NAT.RX under still turns -/

theorem netWrite_still (p : List Octet) {s : State} {a : Turn} {ts : List Turn} (h : s.script = a :: ts)
    (ha : a.rx = [] ∧ a.fail = false ∧ a.reset = false) :
    ∃ u, netWrite p s = .done () u ∧ u.sq = s.sq ∧ u.ncnt = s.ncnt ∧ u.nbuf = s.nbuf := by
  obtain ⟨hrx, hf, hr⟩ := ha
  refine ⟨s.elapse.record (.netWrite p true), ?_, ?_, rfl, rfl⟩
  · rw [netWrite, turn_cons h, hf, if_neg Bool.false_ne_true, orReset_of_not hr]
  · rw [record_sq, elapse_sq, turn_cons h, hrx, List.append_nil]

/-- The payload is read and delivered, or there is too little of it. -/
theorem natLenOk_still {n : Word16} {s : State} (hst : still s.script) (hlen : 2 * n.toNat + 1 ≤ s.script.length) :
    (natLenOk n s).ends
      (fun _ t => ∃ os, s.sq = os ++ t.sq ∧ os.length = n.toNat ∧ t.ncnt = n.toNat ∧
        (Memory.wf s.nbuf → Memory.prefixOf t.nbuf n.toNat = os))
      (fun e t => e = .timeout ∧ t.sq = [] ∧ s.sq.length < n.toNat) (fun _ _ => False) := by
  rw [natLenOk, ends_onRaise, ends_bind]
  refine (rdBytes_still (s := { s with len := n, nstate := .payload }) hst
    (show 2 * n.toNat ≤ s.script.length by omega)).mono (fun _ t ht => ?_) (fun _ _ h => h) fun _ _ h => h
  obtain ⟨os, hr⟩ := ht
  have hturns : s.script.length ≤ t.script.length + 2 * os.length := hr.turns
  match hscr : t.script with
  | [] =>
    rw [hscr, List.length_nil, hr.length] at hturns
    omega
  | a :: ts =>
    have ha := hr.still
    rw [hscr] at ha
    obtain ⟨u, hu, husq, hncu, hnbu⟩ := netWrite_still (Memory.prefixOf t.nbuf n.toNat) hscr (still_cons ha).1
    rw [hu]
    refine ⟨os, ?_, hr.length, hncu.trans hr.count, fun hw => ?_⟩
    · exact hr.taken.trans (congrArg (os ++ ·) husq.symm)
    · exact (congrArg (Memory.prefixOf · n.toNat) hnbu).trans (hr.nbuf hw).2

theorem pair_inj {m n : Word16} {p q : List Octet} (h : pair m ++ p = pair n ++ q) : m = n ∧ p = q := by
  obtain ⟨hpair, hrest⟩ := List.append_inj h (by simp [pair])
  refine ⟨?_, hrest⟩
  simp only [pair, List.cons.injEq, and_true] at hpair
  rw [← cat_hi_lo m, ← cat_hi_lo n, hpair.1, hpair.2]

/-- LEN is read from the first two octets of NBUF (R197). -/
theorem pair_prefixLen (s : State) : pair (prefixLen s) = Memory.prefixOf s.nbuf 2 := pair_cat _ _

/-- NAT.RX takes LEN, and the payload where LEN allows; or there is too little of either. -/
theorem natRx_still {s : State} (hwf : Memory.wf s.nbuf) (hst : still s.script) (hlen : 4 ≤ s.script.length)
    (hpay : ∀ n q, s.sq = pair n ++ q → n.toNat ≤ s.cfg.mtu → 2 * n.toNat + 5 ≤ s.script.length) :
    (natRx s).ends
      (fun _ t => ∃ n q, s.sq = pair n ++ q ∧ t.len = n ∧
        ((n.toNat ≤ s.cfg.mtu ∧ t.ncnt = n.toNat ∧ (Memory.prefixOf t.nbuf n.toNat).length = n.toNat ∧
            q = Memory.prefixOf t.nbuf n.toNat ++ t.sq) ∨
          (s.cfg.mtu < n.toNat ∧ t.sq = q)))
      (fun e t => e = .timeout ∧ t.sq = [] ∧
        (s.sq.length < 2 ∨ ∃ n q, s.sq = pair n ++ q ∧ n.toNat ≤ s.cfg.mtu ∧ q.length < n.toNat))
      (fun _ _ => False) := by
  rw [natRx, ends_bind, ends_onRaise]
  have hcfg : (rdBytes 2 { s with nstate := .lenPrefix }).all fun t => t.cfg = s.cfg :=
    (ran_rdBytes _ _).mono fun t h => by rw [h.frame]; rfl
  refine ((rdBytes_still (k := 2) (s := { s with nstate := .lenPrefix }) hst hlen).and hcfg).mono (fun _ t ht => ?_)
    (fun _ _ h => ⟨h.1.1, h.1.2.1, .inl h.1.2.2⟩) fun _ _ h => h.1
  obtain ⟨⟨os, hr⟩, hc⟩ := ht
  obtain ⟨hwt, hos⟩ := hr.nbuf hwf
  have hsq : s.sq = pair (prefixLen t) ++ t.sq := by
    rw [pair_prefixLen, hos]
    exact hr.taken
  have hturns : s.script.length ≤ t.script.length + 2 * os.length := hr.turns
  rw [hr.length] at hturns
  split
  next hok =>
    have hle : (prefixLen t).toNat ≤ s.cfg.mtu := hc ▸ of_decide_eq_true hok
    have hroom := hpay _ _ hsq hle
    have hlenOf : (natLenOk (prefixLen t) t).all fun u => u.len = prefixLen t :=
      (natLenOk_agree _ t).mono fun _ h => h.1
    refine ((natLenOk_still hr.still (by omega)).and hlenOf).mono (fun _ u hu => ?_) (fun e u hu => ?_) fun _ _ h => h.1
    · obtain ⟨⟨os', htaken, hlen', hcount, hstored⟩, hlu⟩ := hu
      rw [← hstored hwt] at htaken
      exact ⟨_, _, hsq, hlu, .inl ⟨hle, hcount, Memory.prefixOf_length _ _, htaken⟩⟩
    · obtain ⟨⟨rfl, husq, hlt⟩, -⟩ := hu
      exact ⟨rfl, husq, .inr ⟨_, _, hsq, hle, hlt⟩⟩
  next hover =>
    have hlt : s.cfg.mtu < (prefixLen t).toNat := by
      rw [← hc]
      simpa [lenOk] using hover
    exact ⟨_, _, hsq, rfl, .inr ⟨hlt, rfl⟩⟩

/-- What every end of an accepted NAT.RX keeps. -/
theorem natRx_frame {s t : State} (ha : accepts .natRx s = true) (h : exec .natRx s = .next t) (hw : t.wait = none) :
    t = s.withNatRx t ∧ t.wire = s.wire := by
  have hleft := left_of_exec h nofun endFn_withNatRx (ran_natRx s)
  exact ⟨hleft.frame_of_wait (hw.trans (wait_of_accepts ha).symm) fun _ _ => rfl, hleft.wire_eq fun _ hx => hx.1⟩

theorem lenOf_toNat_of_mtu {c : Config} (hok : c.ok) {p : List Octet} (hp : p.length ≤ c.mtu) :
    (lenOf p).toNat = p.length := by
  obtain ⟨hmtu, -⟩ := hok
  exact lenOf_toNat (by unfold Config.MTU_MAX at hmtu; omega)

/-- The turns the frame of `p` takes suffice for what stands behind any LEN read from it. -/
theorem turns_of_frame {s : State} {p r q : List Octet} {n : Word16} (hlen : (lenOf p).toNat = p.length)
    (hturns : 2 * (p.length + 2) + 1 ≤ s.script.length) (hr : nframeWire p ++ r = pair n ++ q) :
    2 * n.toNat + 5 ≤ s.script.length := by
  rw [nframeWire, List.append_assoc] at hr
  obtain ⟨rfl, -⟩ := pair_inj hr
  omega

/-- With a whole frame at the head of SQ, NAT.RX delivers its payload. -/
theorem natRx_of_frame {s : State} {p q : List Octet} (hok : s.cfg.ok) (hwf : Memory.wf s.nbuf)
    (hp : p.length ≤ s.cfg.mtu) (hq : s.sq = nframeWire p ++ q) (hst : still s.script)
    (hturns : 2 * (p.length + 2) + 1 ≤ s.script.length) :
    (natRx s).ends
      (fun v t => v = .delivered p.length ∧ t.delivered = s.delivered ++ [p] ∧ t.sq = q ∧ t.len = lenOf p ∧
        t.ncnt = p.length ∧ t.nstate = .done) (fun _ _ => False) (fun _ _ => False) := by
  have hlen := lenOf_toNat_of_mtu hok hp
  have hstill := natRx_still hwf hst (by omega) fun n q' hn _ => turns_of_frame hlen hturns (hq ▸ hn)
  have hframe {n : Word16} {q' : List Octet} (hn : s.sq = pair n ++ q') : n = lenOf p ∧ q' = p ++ q := by
    rw [hq, nframeWire, List.append_assoc] at hn
    exact (pair_inj hn).imp Eq.symm Eq.symm
  refine (hstill.and (natRx_delivers s)).mono (fun v t ht => ?_) (fun e t ht => ?_) fun _ _ h => h.1
  · obtain ⟨⟨n, q', hn, hlt, hcase⟩, hdone, hdel⟩ := ht
    obtain ⟨rfl, rfl⟩ := hframe hn
    rw [hlen] at hcase
    rw [hlt, hlen] at hdel
    rcases hcase with ⟨-, hcount, hl, htaken⟩ | ⟨hover, -⟩
    · obtain ⟨hpl, hql⟩ := List.append_inj htaken (by rw [hl])
      rcases hdel with ⟨rfl, -, hdel⟩ | ⟨-, hover, -⟩
      · exact ⟨rfl, hdel.trans (by rw [← hpl]), hql.symm, hlt, hcount, hdone⟩
      · omega
    · omega
  · obtain ⟨⟨-, -, hshort⟩, -⟩ := ht
    rcases hshort with hshort | ⟨n, q', hn, -, hshort⟩
    · rw [hq, List.length_append, length_nframeWire] at hshort
      omega
    · obtain ⟨rfl, rfl⟩ := hframe hn
      rw [hlen, List.length_append] at hshort
      omega

/-! ## NAT.RX under quiet turns, but for its delivery -/

theorem serRead_quiet {s : State} {ts : List Turn} {m : Nat} (h : s.script = {} :: ts) (hm : 0 < m)
    (hq : m ≤ s.sq.length) :
    serRead m s = .done (s.sq.take m) ({ s with sq := s.sq.drop m, script := ts }.record
      (.serRead m (some (s.sq.take m)))) := by
  have hcount : readCount m s.sq.length {} = m := by
    simp only [readCount, Option.getD_none]
    omega
  simp [serRead, turn_cons h, elapse_quiet h, hcount, Ret.orReset]

/-- Where all it wants is there RD.BYTES takes it in one read. -/
theorem rdBytes_quiet {k : Nat} {s : State} {rest : List Turn} (hq : k ≤ s.sq.length)
    (h : s.script = quiet (if k = 0 then 0 else 2) ++ rest) :
    ∃ u os, rdBytes k s = .done () u ∧ u.script = rest ∧ s.sq = os ++ u.sq ∧ os.length = k ∧
      (Memory.wf s.nbuf → Memory.wf u.nbuf ∧ Memory.prefixOf u.nbuf k = os) := by
  cases k with
  | zero => exact ⟨{ s with ncnt := 0 }, [], rfl, h, rfl, rfl, fun hw => ⟨hw, rfl⟩⟩
  | succ k =>
    obtain ⟨t, ht, htsq, hts, hmt⟩ := serWait_ready (s := { s with ncnt := 0 }) s.cfg.tRead h rfl
      (by intro hnil; simp [show s.sq = [] by simpa using hnil] at hq)
    have htsq' : t.sq = s.sq := htsq.trans (List.append_nil _)
    have hregs : t.nbuf = s.nbuf ∧ t.ncnt = 0 := by
      rw [hmt.1]
      exact ⟨rfl, rfl⟩
    obtain ⟨hnb, hnc⟩ := hregs
    have hread := serRead_quiet (m := k + 1) hts (Nat.succ_pos _) (by rw [htsq']; exact hq)
    have hlen : (s.sq.take (k + 1)).length = k + 1 := by rw [List.length_take, Nat.min_eq_left hq]
    rw [htsq'] at hread
    set u := storeRead (s.sq.take (k + 1)) ({ t with sq := s.sq.drop (k + 1), script := rest }.record
      (.serRead (k + 1) (some (s.sq.take (k + 1))))) with hu
    have hcount : u.ncnt = k + 1 := by
      show t.ncnt + (s.sq.take (k + 1)).length = k + 1
      rw [hnc, hlen, Nat.zero_add]
    refine ⟨u, s.sq.take (k + 1), ?_, rfl, (List.take_append_drop _ _).symm, hlen, fun hw => ?_⟩
    · rw [rdBytes, readLoop, if_pos (Nat.succ_pos k), ht, Ret.bind, hnc, Nat.sub_zero, hread]
      exact readLoop_of_full k (Nat.le_of_eq hcount.symm)
    · have hwt : Memory.wf t.nbuf := hnb ▸ hw
      have hpre := Memory.prefixOf_writeList hwt 0 (s.sq.take (k + 1))
      rw [Nat.zero_add, hlen] at hpre
      have hnbuf : u.nbuf = Memory.writeList t.nbuf 0 (s.sq.take (k + 1)) := by
        show Memory.writeList t.nbuf t.ncnt _ = _
        rw [hnc]
      rw [hnbuf]
      exact ⟨Memory.wf_writeList _ _ hwt, hpre.trans (List.nil_append _)⟩

theorem netWrite_fails (p : List Octet) {s : State} {a : Turn} {ts : List Turn} (h : s.script = a :: ts)
    (hf : a.fail = true) (hr : a.reset = false) :
    ∃ u, netWrite p s = .raised .ioError u ∧ u.sq = s.sq ++ a.rx := by
  refine ⟨s.elapse.record (.netWrite p false), ?_, by rw [record_sq, elapse_sq, turn_cons h]⟩
  rw [netWrite, turn_cons h, hf, if_pos rfl, orReset_of_not hr]

theorem natRx_netWrite_fails {s : State} {p q : List Octet} {bad : Turn} {rest : List Turn} (hok : s.cfg.ok)
    (hwf : Memory.wf s.nbuf) (hp : p.length ≤ s.cfg.mtu) (hq : s.sq = nframeWire p ++ q) (hbf : bad.fail = true)
    (hbr : bad.reset = false) (h : s.script = quiet (if p = [] then 2 else 4) ++ bad :: rest) :
    ∃ u, natRx s = .raised .ioError u ∧ u.sq = q ++ bad.rx := by
  have hlen := lenOf_toNat_of_mtu hok hp
  have hscr : s.script = quiet 2 ++ (quiet (if p.length = 0 then 0 else 2) ++ bad :: rest) := by
    rw [h]
    cases p <;> rfl
  obtain ⟨t, os, ht, hts, htaken, hos, hbuf⟩ := rdBytes_quiet (k := 2) (s := { s with nstate := .lenPrefix })
    (show 2 ≤ s.sq.length by rw [hq, List.length_append, length_nframeWire]; omega) hscr
  have htaken' : s.sq = os ++ t.sq := htaken
  have hpre := (hbuf hwf).2
  rw [← pair_prefixLen] at hpre
  rw [hq, nframeWire, List.append_assoc, ← hpre] at htaken'
  obtain ⟨hn, htq⟩ := pair_inj htaken'
  have hcfg : t.cfg = s.cfg := by
    have hran := ran_rdBytes 2 { s with nstate := .lenPrefix }
    rw [ht] at hran
    rw [hran.frame]
    rfl
  have hclass : lenOk t.cfg.mtu (prefixLen t) = true := by
    rw [hcfg, ← hn]
    exact decide_eq_true (by rw [hlen]; exact hp)
  obtain ⟨u, os', hu, hus, htaken2, hos', -⟩ := rdBytes_quiet (k := p.length)
    (s := { t with len := prefixLen t, nstate := .payload })
    (show p.length ≤ t.sq.length by rw [← htq, List.length_append]; omega) hts
  have huq : q = u.sq := by
    have h2 : p ++ q = os' ++ u.sq := htq.trans htaken2
    exact (List.append_inj h2 hos'.symm).2
  obtain ⟨v, hv, hvsq⟩ := netWrite_fails (Memory.prefixOf u.nbuf p.length) hus hbf hbr
  refine ⟨natFailed v, ?_, by rw [huq]; exact hvsq⟩
  rw [natRx, ht, Ret.onRaise, Ret.bind, if_pos hclass, natLenOk, ← hn, hlen, hn, hu, Ret.bind, hv]
  rfl

/-! ## The obligations of NAT.RX -/

/-- Settles O29: the whole frame, a part of it, a failing NetWrite, and any environment. -/
theorem natRxDeliversOrFails : Obligations.NatRxDeliversOrFails := by
  refine ⟨fun s p q ha hok hwf hp hq hst hturns => ?_, fun s p ha hok hwf hp hpre hne hst hturns => ?_,
    fun s p q bad rest ha hok hwf hp hq hbf hbr h => ?_, fun s t ha h hw => ?_⟩
  · have hexec := exec_of_accepts ha
    refine ⟨_, hexec, ?_⟩
    rcases exec_ends_cases ha hexec (natRx_of_frame hok hwf hp hq hst hturns) with
      ⟨v, u, ⟨rfl, hdel, husq, hlu, hcount, hdone⟩, heq⟩ | ⟨e, u, h, -⟩ | ⟨w, u, h, -⟩
    · obtain ⟨hframe, hwire⟩ := natRx_frame ha hexec (by rw [heq]; rfl)
      rw [heq] at hframe hwire ⊢
      exact ⟨rfl, hdel, husq, hlu, hcount, hdone, hframe, hwire⟩
    · exact h.elim
    · exact h.elim
  · have hlen := lenOf_toNat_of_mtu hok hp
    have hexec := exec_of_accepts ha
    obtain ⟨r, hr⟩ := hpre
    have hrne : r ≠ [] := fun hnil => hne (by rw [← hr, hnil, List.append_nil])
    have hfull {n : Word16} {q : List Octet} (hn : s.sq = pair n ++ q) : n = lenOf p ∧ q ++ r = p := by
      have h2 : pair n ++ (q ++ r) = pair (lenOf p) ++ p := by rw [← List.append_assoc, ← hn]; exact hr
      exact pair_inj h2
    refine ⟨_, hexec, ?_⟩
    have hstill := natRx_still hwf hst (by omega) fun n q' hn _ => by
      obtain ⟨rfl, -⟩ := hfull hn
      omega
    rcases exec_ends_cases ha hexec ((hstill.and (natRx_delivers s)).and (natRx_ends s)) with
      ⟨v, u, ⟨⟨⟨n, q', hn, -, hcase⟩, -⟩, -⟩, -⟩ | ⟨e, u, ⟨⟨⟨rfl, husq, -⟩, hdel⟩, -, hfail⟩, heq⟩ | ⟨w, u, h, -⟩
    · obtain ⟨rfl, hqr⟩ := hfull hn
      have hqr' := congrArg List.length hqr
      have hrpos := List.length_pos_iff.2 hrne
      rw [List.length_append] at hqr'
      rw [hlen] at hcase
      rcases hcase with ⟨-, -, hl, htaken⟩ | ⟨hover, -⟩
      · have htl := congrArg List.length htaken
        rw [List.length_append, hl] at htl
        omega
      · omega
    · obtain ⟨hframe, hwire⟩ := natRx_frame ha hexec (by rw [heq]; rfl)
      rw [heq] at hframe hwire ⊢
      exact ⟨rfl, hdel, husq, hfail, hframe, hwire⟩
    · exact h.1.1.elim
  · obtain ⟨u, hu, husq⟩ := natRx_netWrite_fails hok hwf hp hq hbf hbr h
    have hexec : exec .natRx s = .next (u.raise .ioError) := by rw [exec_of_accepts ha, body, hu]; rfl
    obtain ⟨hframe, hwire⟩ := natRx_frame ha hexec rfl
    have hends := (natRx_delivers s).and (natRx_ends s)
    rw [hu] at hends
    obtain ⟨hdel, -, hfail⟩ := hends
    exact ⟨_, hexec, rfl, hdel, husq, hfail, hframe, hwire⟩
  · rcases exec_ends_cases ha h ((natRx_delivers s).and (natRx_ends s)) with
      ⟨v, u, ⟨⟨hdone, ⟨rfl, hle, hdel⟩ | ⟨rfl, hlt, hdel⟩⟩, -⟩, rfl⟩ | ⟨e, u, ⟨hdel, he, hfail⟩, rfl⟩ | ⟨w, u, -, rfl⟩
    · exact .inl ⟨_, rfl, rfl, hle, hdone, hdel⟩
    · exact .inr (.inl ⟨rfl, hlt, hdone, hdel⟩)
    · exact .inr (.inr ⟨e, mem_timeout_ioError he, rfl, hfail, hdel⟩)
    · cases hw

/-- Settles O30: the class of LEN is NAT.LEN.OVER, so nothing further is read. -/
theorem natRxDiscardsOversize : Obligations.NatRxDiscardsOversize := by
  intro s n q ha hwf hn hq hst hturns
  have hexec := exec_of_accepts ha
  have hlen {n' : Word16} {q' : List Octet} (h : s.sq = pair n' ++ q') : n' = n ∧ q' = q :=
    (pair_inj (hq.symm.trans h)).imp Eq.symm Eq.symm
  have hstill := natRx_still hwf hst hturns fun n' q' h hle => by
    obtain ⟨rfl, -⟩ := hlen h
    omega
  refine ⟨_, hexec, ?_⟩
  rcases exec_ends_cases ha hexec ((hstill.and (natRx_delivers s)).and (natRx_ends s)) with
    ⟨v, u, ⟨⟨⟨n', q', h, hlu, hcase⟩, -, hdel⟩, -, hdone⟩, heq⟩ | ⟨e, u, ⟨⟨⟨-, -, hshort⟩, -⟩, -⟩, -⟩ | ⟨w, u, h, -⟩
  · obtain ⟨hframe, -⟩ := natRx_frame ha hexec (by rw [heq]; rfl)
    obtain ⟨rfl, rfl⟩ := hlen h
    rw [heq] at hframe ⊢
    rcases hcase with ⟨hle, -⟩ | ⟨-, husq⟩
    · omega
    · rcases hdel with ⟨-, hle, -⟩ | ⟨rfl, -, hdel⟩
      · rw [hlu] at hle
        omega
      · exact ⟨rfl, hdel, husq, hlu, hdone, hframe⟩
  · rcases hshort with hshort | ⟨n', q', h, hle, -⟩
    · rw [hq] at hshort
      simp [pair] at hshort
    · obtain ⟨rfl, -⟩ := hlen h
      omega
  · exact h.1.1.elim

/-- Settles O31: NAT.LEN.OK's body is the read and the delivery, NAT.LEN.OVER's one register write. -/
theorem natLenClassesAct : Obligations.NatLenClassesAct := by
  refine ⟨fun s n ha hwf hst hturns hq => ?_, fun s n ha => ?_⟩
  · have hexec := exec_of_accepts ha
    have hleft := left_of_exec hexec nofun endFn_withNatRx (ran_natLenOk n s)
    refine ⟨_, hexec, ?_⟩
    rcases exec_ends_cases ha hexec ((natLenOk_still hst hturns).and (natLenOk_delivers n s)) with
      ⟨v, u, ⟨⟨os, htaken, hlen, -, hstored⟩, rfl, hlu, hdone, hdel⟩, heq⟩ | ⟨e, u, ⟨⟨-, -, hlt⟩, -⟩, -⟩ | ⟨w, u, h, -⟩
    · rw [heq] at hleft ⊢
      have hframe := hleft.frame_of_wait (wait_of_accepts ha).symm fun _ _ => rfl
      have htake : s.sq.take n.toNat = os := by rw [htaken, ← hlen, List.take_left]
      have hdrop : s.sq.drop n.toNat = u.sq := by rw [htaken, ← hlen, List.drop_left]
      rw [hstored hwf] at hdel
      rw [htake, hdrop]
      exact ⟨rfl, hdel, rfl, hlu, hdone, hframe⟩
    · omega
    · exact h.1.elim
  · rw [exec_of_accepts ha, body, natLenOver]
    simp [closing, Ret.conclude, State.finish, wait_of_accepts ha]

end Sys2Proof.Machine
end

section
/-! SUPPORT. SENSE.POLL and NAT.TX turn by turn (spec/43_native_transport.md R200 to R203). -/

namespace Sys2Proof.Machine

/-! ## One poll -/

theorem senseAfter_concat (v : Bool) (ts : List Turn) (a : Turn) :
    senseAfter v (ts ++ [a]) = (senseAfter v ts ^^ decide (a.flips % 2 = 1)) := by
  induction ts generalizing v with
  | nil => rw [List.nil_append, senseAfter_cons, senseAfter_nil, senseAfter_nil]
  | cons t ts ih => rw [List.cons_append, senseAfter_cons, senseAfter_cons, ih]

section poll

variable {s : State} {a : Turn} {ts : List Turn} (w : Wait) (n j : Nat) (h : s.script = a :: ts)
  (hrx : a.rx = []) (hr : a.reset = false)

include h hrx hr

theorem pollLoop_ready (hf : a.fail = false) (hs : (s.sense ^^ decide (a.flips % 2 = 1)) = s.cfg.senseReady) :
    ∃ u, pollLoop w (n + 1) j s = .done () u ∧ u.sense = s.cfg.senseReady ∧ u.script = ts ∧
      u.trace = s.trace ++ [Xact.senseLevel (some s.cfg.senseReady)] ∧ Moved s u := by
  have hlevel : s.elapse.sense = s.cfg.senseReady := by rw [elapse_sense, turn_cons h, hs]
  refine ⟨s.elapse.record (.senseLevel (some s.cfg.senseReady)), ?_, hlevel, by simp [h], by simp [turn_cons h, hrx],
    rfl, rfl⟩
  rw [pollLoop, senseLevel_ok (by rw [turn_cons h, hf]) (by rw [turn_cons h, hr]), hlevel]
  exact if_pos rfl

theorem pollLoop_limit (hf : a.fail = false) (hs : (s.sense ^^ decide (a.flips % 2 = 1)) ≠ s.cfg.senseReady)
    (hl : s.cfg.natWaitLimit = some j) :
    ∃ u, pollLoop w (n + 1) j s = .raised .timeout u ∧ u.script = ts ∧
      u.trace = s.trace ++ [Xact.senseLevel (some !s.cfg.senseReady)] ∧ Moved s u := by
  have hlevel : s.elapse.sense = !s.cfg.senseReady := by rw [elapse_sense, turn_cons h, Bool.eq_not.2 hs]
  refine ⟨s.elapse.record (.senseLevel (some !s.cfg.senseReady)), ?_, by simp [h], by simp [turn_cons h, hrx], rfl, rfl⟩
  rw [pollLoop, senseLevel_ok (by rw [turn_cons h, hf]) (by rw [turn_cons h, hr]), hlevel]
  exact (if_neg (Bool.not_ne_self _)).trans (if_pos hl)

theorem pollLoop_levelFails (hf : a.fail = true) :
    ∃ u, pollLoop w (n + 1) j s = .raised .ioError u ∧ u.script = ts ∧
      u.trace = s.trace ++ [Xact.senseLevel none] ∧ Moved s u := by
  refine ⟨s.elapse.record (.senseLevel none), ?_, by simp [h], by simp [turn_cons h, hrx], rfl, rfl⟩
  rw [pollLoop, senseLevel, turn_cons h, hf, if_pos rfl, orReset_of_not hr]
  rfl

theorem pollLoop_waitFails {b : Turn} {ts' : List Turn} (hf : a.fail = false)
    (hs : (s.sense ^^ decide (a.flips % 2 = 1)) ≠ s.cfg.senseReady) (hl : s.cfg.natWaitLimit ≠ some j)
    (hts : ts = b :: ts') (hbf : b.fail = true) (hbrx : b.rx = []) (hbr : b.reset = false) :
    ∃ u, pollLoop w (n + 1) j s = .raised .ioError u ∧ u.script = ts' ∧
      u.trace = s.trace ++ [Xact.senseLevel (some !s.cfg.senseReady), Xact.senseWait s.cfg.tSense .fail] ∧
      Moved s u := by
  have hlevel : s.elapse.sense = !s.cfg.senseReady := by rw [elapse_sense, turn_cons h, Bool.eq_not.2 hs]
  set v := s.elapse.record (.senseLevel (some !s.cfg.senseReady)) with hv
  have hvs : v.script = b :: ts' := by simp [hv, h, hts]
  refine ⟨v.elapse.record (.senseWait s.cfg.tSense .fail), ?_, by simp [hvs], ?_, rfl, rfl⟩
  · have hwait : senseWait v = .raised .ioError (v.elapse.record (.senseWait s.cfg.tSense .fail)) := by
      rw [senseWait, turn_cons hvs, hbf, if_pos rfl, orReset_of_not hbr]
      rfl
    rw [pollLoop, senseLevel_ok (by rw [turn_cons h, hf]) (by rw [turn_cons h, hr]), hlevel, ← hv]
    exact ((if_neg (Bool.not_ne_self _)).trans (if_neg hl)).trans (congrArg (Ret.bind · _) hwait)
  · rw [record_trace, elapse_trace, turn_cons hvs, hbrx, hv, record_trace, elapse_trace, turn_cons h, hrx]
    simp

end poll

/-! ## SENSE.POLL -/

/-- Settles O32: `k` polls and waits under still turns, then one more poll. -/
theorem sensePollFollowsLevel : Obligations.SensePollFollowsLevel := by
  refine ⟨fun s rest ha hs h => ?_, fun s k ts a rest ha h hk hst hrx hr hun hlim => ?_⟩
  · have hready : (s.sense ^^ decide (({} : Turn).flips % 2 = 1)) = s.cfg.senseReady := by simpa using hs
    rw [exec_of_accepts ha, body, sensePoll_ready .sense h rfl rfl hready, elapse_quiet h]
    simp [closing, Ret.bind, Ret.conclude, State.finish, State.record, wait_of_accepts ha]
  · have hw := wait_of_accepts ha
    obtain ⟨n, hn⟩ := pollBudget_waits h hk (List.cons_ne_nil a rest) hlim
    obtain ⟨u, hu, hframe, hus, hsense, htr, hwire, -⟩ := pollLoop_still .sense k (n + 1) 0 h hk hst hun
      fun l hl => by rw [Nat.zero_add]; exact hlim l hl
    rw [Nat.zero_add] at hu
    have hmu : Moved s u := ⟨hframe, hwire⟩
    have hcfg : u.cfg = s.cfg := by rw [hframe]; rfl
    have hbody {r : Ret Unit} (hr : pollLoop .sense (n + 1) k u = r) :
        exec .sensePoll s = .next (r.bind fun _ s => .done .unit s).conclude := by
      rw [exec_of_accepts ha, body, sensePoll, hn, hu, hr]
      rfl
    have hlog {v : State} {xs : List Xact} (hv : v.trace = u.trace ++ xs) :
        v.trace = s.trace ++ pollLog u.cfg ts ++ xs := by rw [hv, htr, hcfg]
    rw [senseAfter_concat, ← hsense, ← hcfg]
    refine ⟨fun hf hs => ?_, fun hf hs hl => ?_, fun hf => ?_, fun b rest' hf hs hl hrest hbf hbrx hbr => ?_⟩
    · obtain ⟨v, hv, hvsense, hvs, hvt, hmv⟩ := pollLoop_ready .sense n k hus hrx hr hf hs
      exact ⟨_, hbody hv, rfl, hvsense, hvs, hlog hvt, ((hmu.trans hmv).finish hw .unit).1⟩
    · obtain ⟨v, hv, hvs, hvt, hmv⟩ := pollLoop_limit .sense n k hus hrx hr hf hs hl
      exact ⟨_, hbody hv, rfl, hvs, hlog hvt, ((hmu.trans hmv).raise hw .timeout).1⟩
    · obtain ⟨v, hv, hvs, hvt, hmv⟩ := pollLoop_levelFails .sense n k hus hrx hr hf
      exact ⟨_, hbody hv, rfl, hvs, hlog hvt, ((hmu.trans hmv).raise hw .ioError).1⟩
    · obtain ⟨v, hv, hvs, hvt, hmv⟩ := pollLoop_waitFails .sense n k hus hrx hr hf hs hl hrest hbf hbrx hbr
      exact ⟨_, hbody hv, rfl, hvs, hlog hvt, ((hmu.trans hmv).raise hw .ioError).1⟩

/-! ## NAT.TX -/

/-- NAT.TX with the line ready at once: what is left is its one write. -/
theorem natTx_ready (v : Wait) (p : List Octet) {s : State} {a w : Turn} {rest : List Turn}
    (h : s.script = a :: w :: rest) (haf : a.fail = false) (har : a.reset = false) (hwr : w.reset = false)
    (hs : (s.sense ^^ decide (a.flips % 2 = 1)) = s.cfg.senseReady) :
    ∃ u, natTx v p s = (afterNatWrite p.length (writeOut (nframeWire p) w) u).onRaise natFailed ∧
      u.sq = s.sq ++ a.rx ++ w.rx ∧ u.script = rest ∧
      u.wire = s.wire ++ (nframeWire p).take (writeOut (nframeWire p) w).count ∧ u.halted = s.halted ∧
      u.issue = s.issue := by
  have hpoll := sensePoll_ready (s := { s with nstate := .senseWait }) v h haf har hs
  set t := ({ s with nstate := .senseWait } : State).elapse.record (.senseLevel (some s.cfg.senseReady)) with ht
  have hts : t.script = w :: rest := congrArg List.tail h
  have htq : t.sq = s.sq ++ a.rx := congrArg (s.sq ++ ·) (congrArg Turn.rx (turn_cons (s := { s with nstate := .senseWait }) h))
  obtain ⟨u, hu, husq, hus, huw, hframe⟩ := serWrite_turn (s := { t with nstate := .write }) (nframeWire p) hts hwr
  refine ⟨u, ?_, husq.trans (congrArg (· ++ w.rx) htq), hus, huw, by rw [hframe]; rfl, by rw [hframe]; rfl⟩
  rw [natTx, hpoll, Ret.onRaise, Ret.bind, sendNFrame, hu]
  rfl

/-- The three outcomes of the write's acceptance (R202, R203). -/
theorem afterNatWrite_of_ge {n k : Nat} (s : State) (h : n + 2 ≤ k) :
    afterNatWrite n (.accepted k) s = .done (.num n) { s with nstate := .done } :=
  (if_neg (by omega)).trans (if_neg (by omega))

theorem afterNatWrite_of_lt {n k : Nat} (s : State) (h0 : 0 < k) (h : k < n + 2) :
    afterNatWrite n (.accepted k) s = .raised .ioError s := (if_neg (by omega)).trans (if_pos h)

/-- Writes that did not have all they offered accepted, and anything else. -/
abbrev shortWrite (x : Xact) : Prop := ∀ bs out, x = .serWrite bs out → out ≠ .accepted bs.length

theorem shortWrite_of_passive {x : Xact} (h : passive x) : shortWrite x := fun _ _ hx => by
  rw [hx] at h
  exact h.elim

/-- The frame is on the wire where the write was accepted whole; where NAT.TX raised it was not. -/
theorem sendNFrame_writes (p : List Octet) (s : State) :
    (sendNFrame p s).ends (fun _ t => t.wire = s.wire ++ nframeWire p) (fun _ t => Logs shortWrite s t)
      (fun _ _ => True) := by
  rw [sendNFrame, ends_onRaise, ends_bind]
  have hwire : (serWrite (nframeWire p) s).gives fun out t => t.wire = s.wire ++ (nframeWire p).take out.count := by
    unfold serWrite Ret.orReset
    split
    · trivial
    · rfl
  have hlen := length_nframeWire p
  refine ((serWrite_log (nframeWire p) s).and hwire).mono (fun out t ht => ?_) (fun _ _ h => h.1.elim)
    fun _ _ _ => trivial
  obtain ⟨⟨htr, -, -⟩, hw⟩ := ht
  have hlogs (hne : out ≠ .accepted (nframeWire p).length) : Logs shortWrite s t :=
    logs_turnLog (fun _ => nofun) (fun bs out' hx => by
      obtain ⟨rfl, rfl⟩ := Xact.serWrite.inj hx
      exact hne) htr
  match out with
  | .fail => exact hlogs nofun
  | .accepted k =>
    rw [hlen] at hlogs
    unfold afterNatWrite
    simp only
    split_ifs with h0 hlt
    · exact hlogs fun hk => by cases hk; omega
    · exact hlogs fun hk => by cases hk; omega
    · exact hw.trans (congrArg _ (List.take_of_length_le (by rw [hlen]; exact Nat.not_lt.1 hlt)))

theorem natTx_writes (w : Wait) (p : List Octet) (s : State) :
    (natTx w p s).ends (fun _ t => t.wire = s.wire ++ nframeWire p) (fun _ t => Logs shortWrite s t)
      (fun _ _ => True) := by
  rw [natTx, ends_bind, ends_onRaise]
  have hpoll : (sensePoll w { s with nstate := .senseWait }).all fun t => t.wire = s.wire ∧ Logs shortWrite s t :=
    ((ran_sensePoll w _).and (passive_pollLoop w _ 0 _)).mono fun t h =>
      ⟨h.1.wire_eq fun _ hx => hx.1, h.2.mono fun _ => shortWrite_of_passive⟩
  refine Ret.ends.mono hpoll (fun _ t ht => ?_) (fun _ _ h => h.2) fun _ _ _ => trivial
  obtain ⟨hw, hlogs⟩ := ht
  exact (sendNFrame_writes p { t with nstate := .write }).mono (fun _ _ h => hw ▸ h)
    (fun _ u h => Logs.trans s t u hlogs h) fun _ _ h => h

/-- The premise IdealEcho has every write accepted whole. -/
theorem accepted_of_echoFrom {v a : List Octet} {xs : List Xact} (h : echoFrom v a xs = true) {bs : List Octet}
    {out : WriteOut} (hx : Xact.serWrite bs out ∈ xs) : out = .accepted bs.length := by
  induction xs generalizing v a with
  | nil => cases hx
  | cons x xs ih =>
    have htail : ∃ v' a', echoFrom v' a' xs = true := by
      cases x with
      | arrive os => exact ⟨_, _, h⟩
      | _ => exact ⟨_, _, (Bool.and_eq_true_iff.1 h).2⟩
    obtain ⟨v', a', htail⟩ := htail
    rcases List.mem_cons.1 hx with rfl | hx
    · exact (of_decide_eq_true (Bool.and_eq_true_iff.1 h).1).1
    · exact ih htail hx

/-- Settles O33: the write's outcome decides; the premise excludes every outcome but the whole frame. -/
theorem natTxWritesFrame : Obligations.NatTxWritesFrame := by
  refine ⟨fun s p a w rest ha h haf har hwr hs => ?_, fun s t p out ha h hw hecho hmem => ?_⟩
  · obtain ⟨u, hu, husq, hus, huw, -⟩ := natTx_ready (.natTx p) p h haf har hwr hs
    have hlen := length_nframeWire p
    have hclose {r : Ret Value} (hr : natTx (.natTx p) p s = r) : exec (.natTx p) s = .next r.conclude := by
      rw [exec_of_accepts ha, body, hr]
      rfl
    have hframe {t : State} (ht : exec (.natTx p) s = .next t) (hw : t.wait = none) : t = s.withNatTx t :=
      (left_of_exec ht nofun endFn_withNatTx (ran_natTx _ p s)).frame_of_wait (hw.trans (wait_of_accepts ha).symm)
        fun _ _ => rfl
    cases hwf : w.fail with
    | true =>
      rw [writeOut_fail hwf] at hu huw
      have hexec := hclose hu
      exact ⟨_, hexec, husq, hus, hframe hexec rfl, fun _ => ⟨rfl, rfl, huw.trans (List.append_nil _)⟩, nofun⟩
    | false =>
      rw [writeOut_ok hwf, hlen] at hu huw
      have hwire : u.wire = s.wire ++ (nframeWire p).take (w.short.getD (p.length + 2)) := by
        rw [huw]
        exact congrArg _ (List.take_eq_take_iff.2 (by rw [hlen]; simp only [WriteOut.count]; omega))
      rcases Nat.lt_or_ge (w.short.getD (p.length + 2)) (p.length + 2) with hlt | hge
      · rw [Nat.min_eq_left (Nat.le_of_lt hlt)] at hu
        rcases Nat.eq_zero_or_pos (w.short.getD (p.length + 2)) with hzero | hpos
        · rw [hzero] at hu
          have hexec := hclose hu
          refine ⟨_, hexec, husq, hus, hframe hexec rfl, nofun, fun _ => ⟨hwire, fun hle => by omega,
            fun _ => ⟨rfl, rfl⟩, fun k hk hk0 => ?_⟩⟩
          rw [hk, Option.getD_some] at hzero
          omega
        · rw [afterNatWrite_of_lt u hpos hlt] at hu
          have hexec := hclose hu
          refine ⟨_, hexec, husq, hus, hframe hexec rfl, nofun, fun _ => ⟨hwire, fun hle => by omega,
            fun h0 => ?_, fun _ _ _ _ => ⟨rfl, rfl⟩⟩⟩
          rw [h0, Option.getD_some] at hpos
          omega
      · rw [Nat.min_eq_right hge, afterNatWrite_of_ge u (Nat.le_refl _)] at hu
        have hexec := hclose hu
        refine ⟨_, hexec, husq, hus, hframe hexec rfl, nofun, fun _ => ⟨hwire, fun _ => ⟨rfl, rfl, ?_⟩,
          fun h0 => ?_, fun k hk _ hlt => ?_⟩⟩
        · exact hwire.trans (congrArg _ (List.take_of_length_le (by omega)))
        · rw [h0, Option.getD_some] at hge
          omega
        · rw [hk, Option.getD_some] at hge
          omega
  · rcases exec_ends_cases ha h ((natTx_ends _ p s).and (natTx_writes (.natTx p) p s)) with
      ⟨v, u, ⟨⟨rfl, hdone⟩, hwire⟩, rfl⟩ | ⟨e, u, ⟨-, hlogs⟩, rfl⟩ | ⟨v, u, -, rfl⟩
    · exact ⟨rfl, hwire, hdone⟩
    · exact absurd (accepted_of_echoFrom hecho hmem) (hlogs.all_since _ hmem _ _ rfl)
    · cases hw

end Sys2Proof.Machine
end

section
/-! SUPPORT. BRG.STEP with a frame on one side (spec/44_bridge_host.md R223 to R228). -/

namespace Sys2Proof.Machine

/-! ## Which side is served -/

theorem readyBudget_succ (s : State) : ∃ n, readyBudget s = n + 1 := ⟨readyBudget s - 1, by unfold readyBudget; omega⟩

/-- AnyReady in a turn that brings nothing. -/
theorem anyReady_ready (n : Nat) {s : State} {b : Bool} {ts : List Turn} (h : s.script = { serFirst := b } :: ts)
    (hready : s.netIn ≠ [] ∨ s.sq ≠ []) :
    anyReady (n + 1) s = .done (choose s.mode (decide (s.netIn ≠ [])) (decide (s.sq ≠ [])) { serFirst := b })
      { s with script := ts, trace := s.trace ++ [.anyReady (decide (s.netIn ≠ [])) (decide (s.sq ≠ []))] } := by
  have helapse : s.elapse = { s with script := ts } := by simp [State.elapse, turn_cons h, h]
  rw [anyReady, helapse, turn_cons h, if_neg Bool.false_ne_true, if_neg Bool.false_ne_true, if_pos hready]
  rfl

theorem netRead_quiet {s : State} {p : List Octet} {ps : List (List Octet)} {ts : List Turn} (h : s.script = {} :: ts)
    (hn : s.netIn = p :: ps) :
    netRead s = .done p { s with netIn := ps, script := ts, trace := s.trace ++ [.netRead (some p)] } := by
  simp [netRead, turn_cons h, elapse_quiet h, hn, Ret.orReset, State.record]

/-- Under quiet turns a frame at the network interface is taken and sent. -/
theorem brgStep_net {s : State} {p : List Octet} {ps : List (List Octet)} {rest : List Turn}
    (hn : s.netIn = p :: ps) (h : s.script = {} :: {} :: rest) :
    ∃ xs, brgStep s = bridgeSend p { s with netIn := ps, script := rest, trace := s.trace ++ xs } := by
  obtain ⟨n, hb⟩ := readyBudget_succ s
  have hside : choose s.mode (decide (s.netIn ≠ [])) (decide (s.sq ≠ [])) {} = .net := by
    unfold choose
    cases s.mode <;> simp [hn]
  refine ⟨[.anyReady (decide (s.netIn ≠ [])) (decide (s.sq ≠ []))] ++ [.netRead (some p)], ?_⟩
  rw [brgStep, hb, anyReady_ready n h (.inl (by simp [hn])), hside, ← List.append_assoc]
  set t : State := { s with
    script := {} :: rest
    trace := s.trace ++ [.anyReady (decide (s.netIn ≠ [])) (decide (s.sq ≠ []))] }
  exact congrArg (Ret.bind · bridgeSend) (netRead_quiet (s := t) rfl hn)

/-- AnyReady found the serial side readable. -/
def serServed (s : State) (ts : List Turn) : State :=
  { s with script := ts, trace := s.trace ++ [.anyReady (decide (s.netIn ≠ [])) true] }

theorem delivered_serServed (s : State) (ts : List Turn) : (serServed s ts).delivered = s.delivered := by
  simp [serServed, State.delivered, Xact.deliveredFrame]

/-- In a turn that brings nothing the serial side is served where it is the only one ready, or the one chosen. -/
theorem brgStep_ser {s : State} {b : Bool} {ts : List Turn} (h : s.script = { serFirst := b } :: ts) (hq : s.sq ≠ [])
    (hser : s.netIn = [] ∨ (s.mode = .native ∧ b = true)) :
    brgStep s = bridgeReceive (serServed s ts) := by
  obtain ⟨n, hb⟩ := readyBudget_succ s
  have hside : choose s.mode (decide (s.netIn ≠ [])) (decide (s.sq ≠ [])) { serFirst := b } = .ser := by
    unfold choose
    rcases hser with hn | ⟨hm, rfl⟩
    · simp [hn]
    · simp [hm, hq]
  rw [brgStep, hb, anyReady_ready n h (.inr hq), hside, Ret.bind]
  simp [hq, serServed]

/-! ## The paths under quiet turns -/

/-- NAT.TX under quiet turns with the line ready. -/
theorem natTx_quiet {w : Wait} {s : State} {p : List Octet} {rest : List Turn} (h : s.script = {} :: {} :: rest)
    (hs : s.sense = s.cfg.senseReady) :
    natTx w p s = .done (.num p.length) { s with
      nstate := .done
      wire := s.wire ++ nframeWire p
      script := rest
      trace := s.trace ++ [.senseLevel (some s.cfg.senseReady)] ++
        [.serWrite (nframeWire p) (.accepted (p.length + 2))] } := by
  have hpoll := sensePoll_ready (s := { s with nstate := .senseWait }) w h rfl rfl (by simpa using hs)
  rw [elapse_quiet (s := { s with nstate := .senseWait }) h] at hpoll
  rw [natTx, hpoll]
  exact sendNFrame_quiet rfl

theorem netWrite_quiet {s : State} {ts : List Turn} (p : List Octet) (h : s.script = {} :: ts) :
    netWrite p s = .done () { s with script := ts, trace := s.trace ++ [.netWrite p true] } := by
  simp [netWrite, turn_cons h, elapse_quiet h, Ret.orReset, State.record]

/-- The frame is decoded, and delivered where the decoder accepts it (R223, R228). -/
theorem bridgeReceive_of_eframe {s : State} {p tail : List Octet} {rest : List Turn} (hok : s.cfg.ok)
    (hN : s.cfg.crcWidth = 16) (hm : s.mode = .emulated) (hwf : Memory.wf s.rxbuf) (hp : p.length ≤ s.cfg.mtu)
    (hq : s.sq = eframeWire s.cfg p ++ tail)
    (h : s.script = quiet (2 * (eframeWire s.cfg p).length) ++ {} :: rest) :
    (bridgeReceive s).ends
      (fun v t => v = .unit ∧ t.sq = tail ∧ t.wire = s.wire ∧ t.halted = s.halted ∧
        (frameAccepted s.cfg p → t.delivered = s.delivered ++ [p]) ∧
        (¬ frameAccepted s.cfg p → t.delivered = s.delivered)) (fun _ _ => False) (fun _ _ => False) := by
  have hkeep : (decFrame s).all fun t =>
      t.wire = s.wire ∧ t.halted = s.halted ∧ t.delivered = s.delivered :=
    (ran_decFrame s).mono fun t ht => ⟨ht.wire_eq fun _ hx => hx.1, by rw [ht.frame]; rfl, delivered_of_ran ht⟩
  rw [bridgeReceive_emulated hm, ends_catching]
  refine ((decFrame_of_frame hok hN hwf hp hq h).and hkeep).mono (fun n t ht => ?_) (fun e t ht => ?_)
    fun _ _ h => h.1
  · obtain ⟨⟨hf, rfl, hsq, hscr, -, hpre, -⟩, hwire, hhalted, hdel⟩ := ht
    rw [netWrite_quiet _ hscr, hpre]
    refine ⟨rfl, hsq, hwire, hhalted, fun _ => ?_, fun hn => absurd hf hn⟩
    rw [← hdel]
    exact List.filterMap_append
  · obtain ⟨⟨hf, -, hsq, -⟩, hwire, hhalted, hdel⟩ := ht
    exact ⟨rfl, hsq, hwire, hhalted, fun hn => absurd hn hf, fun _ => hdel⟩

/-- NAT.RX delivers by itself (R228). -/
theorem bridgeReceive_of_nframe {s : State} {p q : List Octet} (hok : s.cfg.ok) (hm : s.mode = .native)
    (hwf : Memory.wf s.nbuf) (hp : p.length ≤ s.cfg.mtu) (hq : s.sq = nframeWire p ++ q) (hst : still s.script)
    (hturns : 2 * (p.length + 2) + 1 ≤ s.script.length) :
    (bridgeReceive s).ends
      (fun v t => v = .unit ∧ t.sq = q ∧ t.wire = s.wire ∧ t.halted = s.halted ∧
        t.delivered = s.delivered ++ [p]) (fun _ _ => False) (fun _ _ => False) := by
  have hkeep : (natRx s).all fun t => t.wire = s.wire ∧ t.halted = s.halted :=
    (ran_natRx s).mono fun t ht => ⟨ht.wire_eq fun _ hx => hx.1, by rw [ht.frame]; rfl⟩
  rw [bridgeReceive_native hm, ends_catching]
  refine ((natRx_of_frame hok hwf hp hq hst hturns).and hkeep).mono (fun v t ht => ?_) (fun _ _ h => h.1.elim)
    fun _ _ h => h.1
  obtain ⟨⟨-, hdel, hsq, -⟩, hwire, hhalted⟩ := ht
  exact ⟨rfl, hsq, hwire, hhalted, hdel⟩

/-! ## The obligations -/

/-- Settles O39: the frame taken from the network interface is sent whole at the first attempt. -/
theorem brgStepTransmits : Obligations.BrgStepTransmits := by
  refine ⟨fun s p ps rest ha hm hn h => ?_, fun s p ps rest ha hm hn hs h => ?_⟩
  · obtain ⟨xs, hstep⟩ := brgStep_net (rest := quiet (s.sq.length + 1) ++ (echoScript (eframeWire s.cfg p) ++ rest)) hn
      (by rw [h, List.append_assoc]; rfl)
    set t : State := { s with
      netIn := ps
      script := quiet (s.sq.length + 1) ++ (echoScript (eframeWire s.cfg p) ++ rest)
      trace := s.trace ++ xs }
    rw [bridgeSend_emulated (s := t) hm, tap2tty_echo (s := t) rfl] at hstep
    have hexec := exec_of_accepts ha
    rw [body, hstep] at hexec
    exact ⟨_, hexec, rfl, rfl, rfl, rfl, rfl, rfl⟩
  · obtain ⟨xs, hstep⟩ := brgStep_net (rest := {} :: {} :: rest) hn h
    set t : State := { s with netIn := ps, script := {} :: {} :: rest, trace := s.trace ++ xs }
    rw [bridgeSend_native (s := t) hm, natTx_quiet (s := t) rfl hs] at hstep
    have hexec := exec_of_accepts ha
    rw [body, hstep] at hexec
    exact ⟨_, hexec, rfl, rfl, rfl, rfl, rfl, rfl⟩

/-- Settles O40: the frame at the head of SQ goes to its mode's receiver. -/
theorem brgStepReceives : Obligations.BrgStepReceives := by
  refine ⟨fun s p tail rest ha hok hN hm hn hwf hp hq h => ?_, fun s p q b ts ha hok hm hser hwf hp hq h hst hturns => ?_⟩
  · have hscr : s.script = {} :: (quiet (2 * (eframeWire s.cfg p).length) ++ {} :: rest) := by
      rw [h, quiet, List.replicate_succ', List.append_assoc]
      rfl
    have hne : s.sq ≠ [] := by rw [hq, eframeWire]; simp
    have hends := bridgeReceive_of_eframe
      (s := serServed s (quiet (2 * (eframeWire s.cfg p).length) ++ {} :: rest)) hok hN hm hwf hp hq rfl
    rw [← brgStep_ser (b := false) hscr hne (.inl hn), delivered_serServed] at hends
    refine ⟨_, exec_of_accepts ha, ?_⟩
    rcases brgStep_exec_cases ha (exec_of_accepts ha) hends with
      ⟨v, u, ⟨rfl, hsq, hwire, hhalted, hacc, hrej⟩, heq⟩ | ⟨e, u, h, -⟩ | ⟨w, u, h, -⟩
    · rw [heq]
      exact ⟨rfl, hsq, hwire, hhalted, hacc, hrej⟩
    · exact h.elim
    · exact h.elim
  · have hne : s.sq ≠ [] := by rw [hq, nframeWire]; simp [pair]
    have hends := bridgeReceive_of_nframe (s := serServed s ts) hok hm hwf hp hq hst hturns
    rw [← brgStep_ser h hne (hser.imp_right fun hb => ⟨hm, hb⟩), delivered_serServed] at hends
    refine ⟨_, exec_of_accepts ha, ?_⟩
    rcases brgStep_exec_cases ha (exec_of_accepts ha) hends with
      ⟨v, u, ⟨rfl, hsq, hwire, hhalted, hdel⟩, heq⟩ | ⟨e, u, h, -⟩ | ⟨w, u, h, -⟩
    · rw [heq]
      exact ⟨rfl, hsq, hwire, hhalted, hdel⟩
    · exact h.elim
    · exact h.elim

end Sys2Proof.Machine
end

section
/-! SUPPORT. Reset: the values it leaves, and the operation that it cuts at the end of its first transaction
(spec/70_reset_and_hazards.md R280, R281; assumption log 18). -/

namespace Sys2Proof.Machine

/-! ## A reset in the first turn -/

/-- The piece was cut by the reset that came in its first turn. -/
def Cut {α : Type} (s : State) (r : Ret α) : Prop :=
  ∃ u, r = .waiting .reset u ∧ u.script = s.script.tail ∧ u.issue = s.issue ∧ u.halted = s.halted

section cut

variable {α β : Type} {s : State}

theorem Cut.bind {r : Ret α} (h : Cut s r) (f : α → State → Ret β) : Cut s (r.bind f) := by
  obtain ⟨u, rfl, hu⟩ := h
  exact ⟨u, rfl, hu⟩

theorem Cut.onRaise {r : Ret α} (h : Cut s r) (f : State → State) : Cut s (r.onRaise f) := by
  obtain ⟨u, rfl, hu⟩ := h
  exact ⟨u, rfl, hu⟩

theorem cut_orReset (h : s.turn.reset = true) {r : Ret α}
    (hr : r.last.script = s.script.tail ∧ r.last.issue = s.issue ∧ r.last.halted = s.halted) :
    Cut s (r.orReset s.turn) := ⟨r.last, orReset_of h r, hr⟩

end cut

section cut

variable {s : State} (h : s.turn.reset = true)

include h

theorem cut_serWrite (bs : List Octet) : Cut s (serWrite bs s) := cut_orReset h ⟨rfl, rfl, rfl⟩

theorem cut_serWait (bound : Nat) : Cut s (serWait bound s) := by
  refine cut_orReset h ?_
  cases serWaitOut s <;> exact ⟨rfl, rfl, rfl⟩

theorem cut_senseLevel : Cut s (senseLevel s) := by
  refine cut_orReset h ?_
  split <;> exact ⟨rfl, rfl, rfl⟩

theorem cut_netWrite (p : List Octet) : Cut s (netWrite p s) := by
  refine cut_orReset h ?_
  split <;> exact ⟨rfl, rfl, rfl⟩

theorem cut_anyReady (n : Nat) : Cut s (anyReady (n + 1) s) := ⟨s.elapse, if_pos h, rfl, rfl, rfl⟩

theorem cut_flush : Cut s (flush s) :=
  (show Cut s (serPending s) from cut_orReset h ⟨rfl, rfl, rfl⟩).bind _

theorem cut_txRaw (o : Octet) : Cut s (txRaw o s) :=
  (show Cut s (serWrite [o] { s with txlast := o }) from cut_serWrite (s := { s with txlast := o }) h [o]).bind _

theorem cut_rxRaw : Cut s (rxRaw s) := (cut_serWait h _).bind _

theorem cut_sendEscaped (b : Octet) : Cut s (sendEscaped b s) := (cut_txRaw h _).bind _

theorem cut_encOctet (b : Octet) : Cut s (encOctet b s) := by
  unfold encOctet
  split
  · exact cut_sendEscaped h b
  · exact cut_txRaw h b

theorem cut_sendFrame (p : List Octet) : Cut s (sendFrame p s) := by
  refine Cut.onRaise ?_ _
  cases p with
  | nil =>
    exact (cut_encOctet (s := { { seedAcc s with txphase := .payload } with txphase := .crcHi }) h _).bind _
  | cons b bs =>
    exact ((cut_encOctet (s := { { seedAcc s with txphase := .payload } with txidx := 0 }) h b).bind _).bind _

theorem cut_encFrame (p : List Octet) : Cut s (encFrame p s) :=
  ((cut_flush (s := { s with txphase := .drain }) h).onRaise _).bind _

theorem cut_tap2tty (p : List Octet) : Cut s (tap2tty p s) := by
  obtain ⟨u, hu, hcut⟩ := cut_encFrame (s := { s with attempt := 0 }) h p
  refine ⟨u, ?_, hcut⟩
  rw [tap2tty]
  cases s.cfg.retryMax <;> rw [attempts, hu]

theorem cut_decFrame : Cut s (decFrame s) := ((cut_rxRaw (s := decStart s) h).onRaise _).bind _

theorem cut_rdBytes {k : Nat} (hk : k ≠ 0) : Cut s (rdBytes k s) := by
  obtain ⟨n, rfl⟩ := Nat.exists_eq_succ_of_ne_zero hk
  rw [rdBytes, readLoop, if_pos (Nat.succ_pos n)]
  exact (cut_serWait (s := { s with ncnt := 0 }) h _).bind _

theorem cut_natRx : Cut s (natRx s) :=
  ((cut_rdBytes (s := { s with nstate := .lenPrefix }) h (k := 2) (by decide)).onRaise _).bind _

theorem cut_natLenOk (n : Word16) : Cut s (natLenOk n s) := by
  refine Cut.onRaise ?_ _
  by_cases hn : n.toNat = 0
  · rw [hn]
    exact (cut_netWrite (s := { { s with len := n, nstate := .payload } with ncnt := 0 }) h _).bind _
  · exact (cut_rdBytes (s := { s with len := n, nstate := .payload }) h hn).bind _

theorem cut_sensePoll (w : Wait) : Cut s (sensePoll w s) := by
  obtain ⟨n, hn⟩ := pollBudget_succ s
  rw [sensePoll, hn]
  exact (cut_senseLevel h).bind _

theorem cut_natTx (w : Wait) (p : List Octet) : Cut s (natTx w p s) :=
  ((cut_sensePoll (s := { s with nstate := .senseWait }) h w).onRaise _).bind _

theorem cut_sendNFrame (p : List Octet) : Cut s (sendNFrame p s) := ((cut_serWrite h _).bind _).onRaise _

theorem cut_brgStep : Cut s (brgStep s) := by
  obtain ⟨n, hn⟩ := readyBudget_succ s
  rw [brgStep, hn]
  exact (cut_anyReady h n).bind _

theorem cut_body {i : Instr} (hi : beginsWithTurn i = true) : Cut s (body i s) := by
  cases i with
  | flush => exact (cut_flush h).bind _
  | txRaw o => exact (cut_txRaw h o).bind _
  | rxRaw => exact (cut_rxRaw h).bind _
  | encOctet b => exact (cut_encOctet h b).bind _
  | encFrame p => exact (cut_encFrame h p).bind _
  | decFrame => exact (cut_decFrame h).bind _
  | rdBytes k =>
    have hk : k.toNat ≠ 0 := fun hk => bne_iff_ne.1 hi (BitVec.eq_of_toNat_eq hk)
    exact (cut_rdBytes h hk).bind _
  | natRx => exact cut_natRx h
  | natTx p => exact cut_natTx h _ p
  | sensePoll => exact (cut_sensePoll h _).bind _
  | tap2tty p => exact cut_tap2tty h p
  | brgStep => exact cut_brgStep h
  | stuffPlain b => exact (cut_txRaw h b).bind _
  | stuffEscaped b => exact (cut_sendEscaped h b).bind _
  | eframe p => exact (cut_sendFrame h p).bind _
  | nframe p => exact cut_sendNFrame h p
  | natLenOk n => exact cut_natLenOk h n
  | _ => cases hi

end cut

/-- An unfinished wait is what is left in progress, whatever the instruction. -/
theorem closing_waiting (i : Instr) (w : Wait) (u : State) : closing i (.waiting w u) = { u with wait := some w } := by
  unfold closing
  split <;> rfl

/-- Settles O56: the reset's values by evaluation; the reset is taken first, or resumed; the cut of each body; and a
TX.RAW cut in its wait. -/
theorem resetLeavesAndAbandons : Obligations.ResetLeavesAndAbandons := by
  refine ⟨⟨rfl, rfl, rfl, rfl, rfl, rfl, rfl, rfl, rfl, rfl, rfl, rfl, ⟨rfl, rfl, rfl, rfl, rfl, rfl, rfl⟩,
    resetMeetsInvariant.cfgOk⟩, fun s h => ?_, fun i s a rest ha hi h hr => ?_, fun s o w a rest hacc h hwf hws hw hr => ?_⟩
  · by_cases hi : s.issue.head? = some .reset
    · exact ⟨_, if_pos hi, (if_pos hi).symm, rfl, rfl, rfl, rfl, rfl, rfl, rfl, rfl, rfl, rfl, rfl, rfl, rfl, rfl⟩
    · obtain ⟨hwait, hhalted⟩ := h.resolve_left hi
      exact ⟨_, step_of_wait hi hhalted hwait, (if_neg hi).symm, rfl, rfl, rfl, rfl, rfl, rfl, rfl, rfl, rfl, rfl, rfl,
        rfl, rfl, rfl⟩
  · obtain ⟨u, hu, hscript, hissue, hhalted⟩ := cut_body (s := s) (by rw [turn_cons h, hr]) hi
    refine ⟨_, exec_of_accepts ha, ?_⟩
    rw [hu, closing_waiting]
    exact ⟨rfl, by rw [hscript, h]; rfl, hissue, hhalted⟩
  · obtain ⟨u, hu, husq, hus, huw, -⟩ := txRaw_of_accepted (o := o) h hw hwf hws
    have hcut : serWait u.cfg.tOctet u = .waiting .reset (u.elapse.record (.serWait u.cfg.tOctet (serWaitOut u))) := by
      rw [serWait, orReset_of (by rw [turn_cons hus, hr])]
      cases serWaitOut u <;> rfl
    refine ⟨_, exec_of_accepts hacc, ?_⟩
    rw [body, hu, awaitEcho, hcut]
    exact ⟨rfl, huw, by rw [← husq]; exact congrArg (u.sq ++ ·) (congrArg Turn.rx (turn_cons hus)), congrArg List.tail hus⟩

end Sys2Proof.Machine
end

section
/-! SUPPORT. What the pieces of an operation do not look at: the operation left in progress, and, for FLUSH, ACC and
TXLAST. A piece started from a state with these replaced ends as it would have, with them replaced. -/

namespace Sys2Proof.Machine

/-- The registers that a piece does not look at, replaced. -/
def State.remap (w : Option Wait → Option Wait) (a : Word16 → Word16) (l : Octet → Octet) (s : State) : State :=
  { s with wait := w s.wait, acc := a s.acc, txlast := l s.txlast }

/-- The operation left in progress, replaced. -/
abbrev State.putWait (w : Option Wait) : State → State := State.remap (fun _ => w) id id

/-- The same end, in another state. -/
def Ret.mapState {α : Type} (g : State → State) : Ret α → Ret α
  | .done a s => .done a (g s)
  | .raised e s => .raised e (g s)
  | .waiting w s => .waiting w (g s)

section map

variable {α β : Type} {g : State → State}

theorem bind_mapState {r r' : Ret α} {k k' : α → State → Ret β} (hr : r' = r.mapState g)
    (hk : ∀ a u, k' a (g u) = (k a u).mapState g) : r'.bind k' = (r.bind k).mapState g := by
  subst hr
  cases r with
  | done a u => exact hk a u
  | raised e u => rfl
  | waiting w u => rfl

theorem onRaise_mapState {r r' : Ret α} {f : State → State} (hr : r' = r.mapState g) (hf : ∀ u, f (g u) = g (f u)) :
    r'.onRaise f = (r.onRaise f).mapState g := by
  subst hr
  cases r with
  | done a u => rfl
  | raised e u => exact congrArg (Ret.raised e) (hf u)
  | waiting w u => rfl

theorem catching_mapState {r r' : Ret α} {ok ok' : α → State → Ret β} {err err' : State → Ret β}
    (hr : r' = r.mapState g) (hok : ∀ a u, ok' a (g u) = (ok a u).mapState g)
    (herr : ∀ u, err' (g u) = (err u).mapState g) : r'.catching ok' err' = (r.catching ok err).mapState g := by
  subst hr
  cases r with
  | done a u => exact hok a u
  | raised e u => exact herr u
  | waiting w u => rfl

theorem orReset_mapState (g : State → State) (r : Ret α) (t : Turn) :
    (r.orReset t).mapState g = (r.mapState g).orReset t := by
  unfold Ret.orReset
  split
  · cases r <;> rfl
  · rfl

end map

/-! ## The channels -/

section channels

variable (w : Option Wait → Option Wait) (a : Word16 → Word16) (l : Octet → Octet) (s : State)

theorem turn_remap : (s.remap w a l).turn = s.turn := rfl

theorem serWaitOut_remap : serWaitOut (s.remap w a l) = serWaitOut s := rfl

theorem serWrite_remap (bs : List Octet) :
    serWrite bs (s.remap w a l) = (serWrite bs s).mapState (State.remap w a l) := by
  rw [serWrite, serWrite, orReset_mapState, turn_remap]
  rfl

theorem serWait_remap (bound : Nat) :
    serWait bound (s.remap w a l) = (serWait bound s).mapState (State.remap w a l) := by
  rw [serWait, serWait, orReset_mapState, serWaitOut_remap, turn_remap]
  cases serWaitOut s <;> rfl

theorem serRead_remap (m : Nat) : serRead m (s.remap w a l) = (serRead m s).mapState (State.remap w a l) := by
  rw [serRead, serRead, orReset_mapState, turn_remap]
  split <;> rfl

theorem readOne_remap : readOne (s.remap w a l) = (readOne s).mapState (State.remap w a l) :=
  bind_mapState (serRead_remap w a l s 1) fun bs _ => by cases bs <;> rfl

theorem serPending_remap : serPending (s.remap w a l) = (serPending s).mapState (State.remap w a l) := by
  rw [serPending, serPending, orReset_mapState, turn_remap]
  rfl

theorem discard_remap (n : Nat) : discard n (s.remap w a l) = (discard n s).mapState (State.remap w a l) := by
  induction n generalizing s with
  | zero => rfl
  | succ n ih => exact bind_mapState (readOne_remap w a l s) fun _ u => ih u

theorem flush_remap : flush (s.remap w a l) = (flush s).mapState (State.remap w a l) :=
  bind_mapState (serPending_remap w a l s) fun k u => bind_mapState (discard_remap w a l u k) fun _ _ => rfl

theorem rxRaw_remap : rxRaw (s.remap w a l) = (rxRaw s).mapState (State.remap w a l) :=
  bind_mapState (serWait_remap w a l s _) fun _ u => readOne_remap w a l u

theorem senseLevel_remap : senseLevel (s.remap w a l) = (senseLevel s).mapState (State.remap w a l) := by
  rw [senseLevel, senseLevel, orReset_mapState, turn_remap]
  split <;> rfl

theorem senseWait_remap : senseWait (s.remap w a l) = (senseWait s).mapState (State.remap w a l) := by
  rw [senseWait, senseWait, orReset_mapState, turn_remap]
  split <;> rfl

theorem netRead_remap : netRead (s.remap w a l) = (netRead s).mapState (State.remap w a l) := by
  have hnet : (s.remap w a l).elapse.netIn = s.elapse.netIn := rfl
  rw [netRead, netRead, orReset_mapState, turn_remap, hnet]
  split
  · rfl
  · cases s.elapse.netIn <;> rfl

theorem netWrite_remap (p : List Octet) :
    netWrite p (s.remap w a l) = (netWrite p s).mapState (State.remap w a l) := by
  rw [netWrite, netWrite, orReset_mapState, turn_remap]
  split <;> rfl

theorem rand12_remap : rand12 (s.remap w a l) = (rand12 s).mapState (State.remap w a l) := by
  rw [rand12, rand12, orReset_mapState, turn_remap]
  rfl

theorem sleep_remap (d : Nat) : sleep d (s.remap w a l) = (sleep d s).mapState (State.remap w a l) := by
  rw [sleep, sleep, orReset_mapState, turn_remap]
  rfl

theorem backoff_remap : backoff (s.remap w a l) = (backoff s).mapState (State.remap w a l) :=
  bind_mapState (rand12_remap w a l s) fun _ u => sleep_remap w a l u _

theorem anyReady_remap (n : Nat) : anyReady n (s.remap w a l) = (anyReady n s).mapState (State.remap w a l) := by
  induction n generalizing s with
  | zero => rfl
  | succ n ih =>
    rw [anyReady, anyReady, turn_remap]
    split
    · rfl
    · split
      · rfl
      · have hready : ((s.remap w a l).elapse.netIn ≠ [] ∨ (s.remap w a l).elapse.sq ≠ []) =
          (s.elapse.netIn ≠ [] ∨ s.elapse.sq ≠ []) := rfl
        by_cases h : s.elapse.netIn ≠ [] ∨ s.elapse.sq ≠ []
        · rw [if_pos h, if_pos (hready ▸ h)]
          rfl
        · rw [if_neg h, if_neg (hready ▸ h)]
          exact ih s.elapse

end channels

/-! ## The operations, which do not look at the one left in progress -/

section operations

variable (w : Option Wait) (s : State)

theorem awaitEcho_putWait : awaitEcho (s.putWait w) = (awaitEcho s).mapState (State.putWait w) :=
  bind_mapState (serWait_remap (fun _ => w) id id s _) fun _ u => bind_mapState (readOne_remap (fun _ => w) id id u) fun e v => by
    have hlast : (v.putWait w).txlast = v.txlast := rfl
    rw [hlast]
    split <;> rfl

theorem txRaw_putWait (o : Octet) : txRaw o (s.putWait w) = (txRaw o s).mapState (State.putWait w) :=
  bind_mapState (serWrite_remap (fun _ => w) id id { s with txlast := o } [o]) fun out u => by
    match out with
    | .fail => rfl
    | .accepted 0 => rfl
    | .accepted (_ + 1) => exact awaitEcho_putWait w u

theorem encOctet_putWait (b : Octet) : encOctet b (s.putWait w) = (encOctet b s).mapState (State.putWait w) := by
  have hcfg : (s.putWait w).cfg = s.cfg := rfl
  rw [encOctet, encOctet, hcfg]
  split
  · exact bind_mapState (txRaw_putWait w s _) fun _ u => txRaw_putWait w u b
  · exact txRaw_putWait w s b

theorem sendPayload_putWait (i : Nat) (p : List Octet) :
    sendPayload i p (s.putWait w) = (sendPayload i p s).mapState (State.putWait w) := by
  induction p generalizing i s with
  | nil => rfl
  | cons b bs ih => exact bind_mapState (encOctet_putWait w { s with txidx := i } b) fun _ u => ih (feedAcc b u) (i + 1)

theorem sendTail_putWait : sendTail (s.putWait w) = (sendTail s).mapState (State.putWait w) :=
  bind_mapState (encOctet_putWait w { s with txphase := .crcHi } _) fun _ t =>
    bind_mapState (encOctet_putWait w { t with txphase := .crcLo } _) fun _ u =>
      bind_mapState (txRaw_putWait w { u with txphase := .term } _) fun _ _ => rfl

theorem sendFrame_putWait (p : List Octet) :
    sendFrame p (s.putWait w) = (sendFrame p s).mapState (State.putWait w) :=
  onRaise_mapState (bind_mapState (sendPayload_putWait w { seedAcc s with txphase := .payload } 0 p) fun _ u =>
    sendTail_putWait w u) fun _ => rfl

theorem encFrame_putWait (p : List Octet) : encFrame p (s.putWait w) = (encFrame p s).mapState (State.putWait w) :=
  bind_mapState (onRaise_mapState (flush_remap (fun _ => w) id id { s with txphase := .drain }) fun _ => rfl) fun _ u =>
    sendFrame_putWait w u p

theorem attempts_putWait (n : Nat) (p : List Octet) :
    attempts n p (s.putWait w) = (attempts n p s).mapState (State.putWait w) := by
  induction n generalizing s with
  | zero =>
    rw [attempts, attempts, encFrame_putWait]
    cases encFrame p s <;> rfl
  | succ n ih =>
    rw [attempts, attempts, encFrame_putWait]
    cases encFrame p s with
    | done x u => rfl
    | raised e u => exact bind_mapState (backoff_remap (fun _ => w) id id { u with attempt := u.attempt + 1 }) fun _ v => ih v
    | waiting x u => rfl

theorem tap2tty_putWait (p : List Octet) : tap2tty p (s.putWait w) = (tap2tty p s).mapState (State.putWait w) :=
  attempts_putWait w { s with attempt := 0 } s.cfg.retryMax p

theorem storeOctet_putWait (o : Octet) :
    storeOctet o (s.putWait w) = (storeOctet o s).mapState (State.putWait w) := by
  by_cases h : s.rxcnt = s.cfg.rxbufCap
  · rw [storeOctet_of_full h, storeOctet_of_full (s := s.putWait w) h]
    rfl
  · rw [storeOctet_of_ne h, storeOctet_of_ne (s := s.putWait w) h]
    rfl

theorem symEnd_putWait : symEnd (s.putWait w) = (symEnd s).mapState (State.putWait w) := by
  by_cases h : 2 ≤ s.rxcnt ∧ s.acc = 0
  · rw [symEnd_of_accepts h, symEnd_of_accepts (s := s.putWait w) h]
    rfl
  · rw [symEnd_of_not h, symEnd_of_not (s := s.putWait w) h]
    rfl

theorem decLoop_putWait (n : Nat) : decLoop n (s.putWait w) = (decLoop n s).mapState (State.putWait w) := by
  induction n generalizing s with
  | zero => rfl
  | succ n ih =>
    refine bind_mapState (onRaise_mapState (rxRaw_remap (fun _ => w) id id s) fun _ => rfl) fun o u => ?_
    have hregs : (u.putWait w).dstate = u.dstate ∧ (u.putWait w).cfg = u.cfg := ⟨rfl, rfl⟩
    rw [hregs.1, hregs.2]
    split_ifs
    · exact bind_mapState (storeOctet_putWait w { u with dstate := .awaitOctet } o) fun _ v => ih v
    · exact ih (symEsc u)
    · exact symEnd_putWait w u
    · exact bind_mapState (storeOctet_putWait w u o) fun _ v => ih v

theorem decFrame_putWait : decFrame (s.putWait w) = (decFrame s).mapState (State.putWait w) :=
  decLoop_putWait w (decStart s) _

theorem readLoop_putWait (n k : Nat) : readLoop n k (s.putWait w) = (readLoop n k s).mapState (State.putWait w) := by
  induction n generalizing s with
  | zero => rfl
  | succ n ih =>
    have hcnt : (s.putWait w).ncnt = s.ncnt := rfl
    rw [readLoop, readLoop, hcnt]
    split
    · exact bind_mapState (serWait_remap (fun _ => w) id id s _) fun _ t => bind_mapState (serRead_remap (fun _ => w) id id t _) fun bs u =>
        ih (storeRead bs u)
    · rfl

theorem rdBytes_putWait (k : Nat) : rdBytes k (s.putWait w) = (rdBytes k s).mapState (State.putWait w) :=
  readLoop_putWait w { s with ncnt := 0 } k k

theorem natLenOk_putWait (n : Word16) : natLenOk n (s.putWait w) = (natLenOk n s).mapState (State.putWait w) :=
  onRaise_mapState (bind_mapState (rdBytes_putWait w { s with len := n, nstate := .payload } _) fun _ t =>
    bind_mapState (netWrite_remap (fun _ => w) id id t _) fun _ _ => rfl) fun _ => rfl

theorem natRx_putWait : natRx (s.putWait w) = (natRx s).mapState (State.putWait w) :=
  bind_mapState (onRaise_mapState (rdBytes_putWait w { s with nstate := .lenPrefix } 2) fun _ => rfl) fun _ t => by
    have hregs : lenOk (t.putWait w).cfg.mtu (prefixLen (t.putWait w)) = lenOk t.cfg.mtu (prefixLen t) := rfl
    rw [hregs]
    split
    · exact natLenOk_putWait w t (prefixLen t)
    · rfl

theorem pollLoop_putWait (v : Wait) (n j : Nat) :
    pollLoop v n j (s.putWait w) = (pollLoop v n j s).mapState (State.putWait w) := by
  induction n generalizing s j with
  | zero => rfl
  | succ n ih =>
    refine bind_mapState (senseLevel_remap (fun _ => w) id id s) fun x t => ?_
    have hcfg : (t.putWait w).cfg = t.cfg := rfl
    rw [hcfg]
    split_ifs
    · rfl
    · rfl
    · exact bind_mapState (senseWait_remap (fun _ => w) id id t) fun _ u => ih u (j + 1)

theorem sensePoll_putWait (v : Wait) : sensePoll v (s.putWait w) = (sensePoll v s).mapState (State.putWait w) :=
  pollLoop_putWait w s v _ 0

theorem sendNFrame_putWait (p : List Octet) :
    sendNFrame p (s.putWait w) = (sendNFrame p s).mapState (State.putWait w) :=
  onRaise_mapState (bind_mapState (serWrite_remap (fun _ => w) id id s _) fun out u => by
    cases out with
    | fail => rfl
    | accepted k =>
      unfold afterNatWrite
      simp only
      split_ifs <;> rfl) fun _ => rfl

theorem natTx_putWait (v : Wait) (p : List Octet) :
    natTx v p (s.putWait w) = (natTx v p s).mapState (State.putWait w) :=
  bind_mapState (onRaise_mapState (sensePoll_putWait w { s with nstate := .senseWait } v) fun _ => rfl) fun _ u =>
    sendNFrame_putWait w { u with nstate := .write } p

theorem bridgeSend_putWait (p : List Octet) :
    bridgeSend p (s.putWait w) = (bridgeSend p s).mapState (State.putWait w) := by
  rcases eq_emulated_or_native s.mode with hm | hm
  · rw [bridgeSend_emulated hm, bridgeSend_emulated (s := s.putWait w) hm]
    exact catching_mapState (tap2tty_putWait w s p) (fun _ _ => rfl) fun _ => rfl
  · rw [bridgeSend_native hm, bridgeSend_native (s := s.putWait w) hm]
    exact catching_mapState (natTx_putWait w s _ p) (fun _ _ => rfl) fun _ => rfl

theorem bridgeReceive_putWait : bridgeReceive (s.putWait w) = (bridgeReceive s).mapState (State.putWait w) := by
  rcases eq_emulated_or_native s.mode with hm | hm
  · rw [bridgeReceive_emulated hm, bridgeReceive_emulated (s := s.putWait w) hm]
    exact catching_mapState (decFrame_putWait w s)
      (fun _ u => bind_mapState (netWrite_remap (fun _ => w) id id u _) fun _ _ => rfl) fun _ => rfl
  · rw [bridgeReceive_native hm, bridgeReceive_native (s := s.putWait w) hm]
    exact catching_mapState (natRx_putWait w s) (fun _ _ => rfl) fun _ => rfl

theorem brgStep_putWait : brgStep (s.putWait w) = (brgStep s).mapState (State.putWait w) :=
  bind_mapState (anyReady_remap (fun _ => w) id id s _) fun d t => by
    cases d with
    | net => exact bind_mapState (netRead_remap (fun _ => w) id id t) fun p u => bridgeSend_putWait w u p
    | ser => exact bridgeReceive_putWait w t

end operations

end Sys2Proof.Machine
end

section
/-! SUPPORT. Frame operations start afresh (spec/70_reset_and_hazards.md R280), and the waits without bound are taken up
where they were left (spec/43_native_transport.md R201, spec/70_reset_and_hazards.md R302, R303). -/

namespace Sys2Proof.Machine

/-! ## Frame operations start afresh -/

/-- The frame is begun by CRC.INIT and an octet written, so ACC and TXLAST are not looked at. -/
theorem sendFrame_remap (p : List Octet) (a : Word16 → Word16) (l : Octet → Octet) (s : State) :
    sendFrame p (s.remap id a l) = sendFrame p s := by cases p <;> rfl

/-- Where the drain ends the frame is sent alike; where it does not, ENC.FRAME ends there, and not in Done. -/
theorem encFrame_fresh (p : List Octet) (s : State) (a : Word16) (x : TxPhase) (l : Octet) :
    encFrame p { s with acc := a, txphase := x, txlast := l } = encFrame p s ∨
      (encFrame p { s with acc := a, txphase := x, txlast := l } =
          (encFrame p s).mapState (State.remap id (fun _ => a) fun _ => l) ∧
        (encFrame p s).all fun u => u.txphase ≠ .done) := by
  have hflush := flush_remap id (fun _ => a) (fun _ => l) { s with txphase := .drain }
  have hdrain : (flush { s with txphase := .drain }).all fun u => u.txphase = .drain :=
    (ran_flush _).mono fun u hu => by rw [hu.frame]; rfl
  have hother : encFrame p { s with acc := a, txphase := x, txlast := l } =
      (((flush { s with txphase := .drain }).mapState (State.remap id (fun _ => a) fun _ => l)).onRaise
        txFailed).bind fun _ u => sendFrame p u := by rw [← hflush]; rfl
  rw [hother, encFrame]
  cases hf : flush { s with txphase := .drain } with
  | done k u => exact .inl (sendFrame_remap p _ _ u)
  | raised e u => exact .inr ⟨rfl, nofun⟩
  | waiting w u =>
    rw [hf] at hdrain
    exact .inr ⟨rfl, fun h => nomatch h.symm.trans hdrain⟩

/-- Settles O26: DEC.FRAME's start step overwrites its registers, and ENC.FRAME starts afresh. -/
theorem frameOperationsStartAfresh : Obligations.FrameOperationsStartAfresh := by
  refine ⟨fun s a n d ha => ?_, fun s t p a x l ha h => ?_⟩
  · have hsame : accepts .decFrame { s with acc := a, rxcnt := n, dstate := d } = true := ha
    exact (exec_of_accepts hsame).trans (exec_of_accepts ha).symm
  · obtain rfl := eq_of_exec ha h
    have hsame : accepts (.encFrame p) { s with acc := a, txphase := x, txlast := l } = true := ha
    refine ⟨_, exec_of_accepts hsame, ?_⟩
    rcases encFrame_fresh p s a x l with heq | ⟨heq, hne⟩
    · rw [body, body, heq]
      exact ⟨fun _ => rfl, rfl⟩
    · rw [body, body, heq]
      cases hr : encFrame p s with
      | done v u =>
        rw [hr] at hne
        exact ⟨fun h => absurd h hne, rfl⟩
      | raised e u =>
        rw [hr] at hne
        exact ⟨fun h => absurd h hne, rfl⟩
      | waiting w u =>
        rw [hr] at hne
        exact ⟨fun h => absurd h hne, rfl⟩

/-! ## Waits without bound -/

section wait

variable {s : State} {k : Nat}

/-- On a line that stays unready every poll of an unbounded SENSE.POLL is made, and it goes on waiting. -/
theorem sensePoll_waiting (w : Wait) (hl : s.cfg.natWaitLimit = none) (hs : s.sense ≠ s.cfg.senseReady) (hk : 0 < k)
    (h : s.script = quiet (2 * k)) :
    ∃ xs, sensePoll w s = .waiting w { s with script := [], trace := s.trace ++ xs } := by
  have hbudget : pollBudget s = 0 + k := by
    rw [pollBudget, hl, h, quiet, List.length_replicate]
    simp only
    omega
  have hloop := pollLoop_waits w k 0 0 (ts := []) (by rw [h, List.append_nil]) hs (by simp [hl])
  rw [← hbudget] at hloop
  exact ⟨_, hloop⟩

theorem natTx_waiting (w : Wait) (p : List Octet) (hl : s.cfg.natWaitLimit = none) (hs : s.sense ≠ s.cfg.senseReady)
    (hk : 0 < k) (h : s.script = quiet (2 * k)) :
    ∃ xs, natTx w p s = .waiting w { s with nstate := .senseWait, script := [], trace := s.trace ++ xs } := by
  obtain ⟨xs, hpoll⟩ := sensePoll_waiting (s := { s with nstate := .senseWait }) w hl hs hk h
  exact ⟨xs, by rw [natTx, hpoll]; rfl⟩

/-- With neither side readable every turn passes, and AnyReady goes on waiting. -/
theorem anyReady_waiting (hn : s.netIn = []) (hq : s.sq = []) (h : s.script = quiet k) :
    anyReady k s = .waiting .brgAny { s with script := [] } := by
  induction k generalizing s with
  | zero =>
    rw [anyReady, show ([] : List Turn) = s.script from h.symm]
  | succ k ih =>
    have hscr : s.script = {} :: quiet k := h
    have hstep : anyReady (k + 1) s = anyReady k { s with script := quiet k } := by
      rw [anyReady, turn_cons hscr, elapse_quiet hscr]
      simp [hn, hq]
    rw [hstep, ih (s := { s with script := quiet k }) hn hq rfl]

theorem brgStep_waiting (hn : s.netIn = []) (hq : s.sq = []) (hk : 0 < k) (h : s.script = quiet k) :
    brgStep s = .waiting .brgAny { s with script := [] } := by
  have hbudget : readyBudget s = k := by
    rw [readyBudget, h, quiet, List.length_replicate]
    omega
  rw [brgStep, hbudget, anyReady_waiting hn hq h]
  rfl

/-- What an unready line leaves of BRG.STEP in its NAT.TX. -/
theorem bridgeSend_waiting (hm : s.mode = .native) (p : List Octet) (hl : s.cfg.natWaitLimit = none)
    (hs : s.sense ≠ s.cfg.senseReady) (hk : 0 < k) (h : s.script = quiet (2 * k)) :
    ∃ xs, bridgeSend p s = .waiting (.brgTx p)
      { s with nstate := .senseWait, script := [], trace := s.trace ++ xs } := by
  obtain ⟨xs, htx⟩ := natTx_waiting (.brgTx p) p hl hs hk h
  exact ⟨xs, by rw [bridgeSend_native hm, htx]; rfl⟩

end wait

/-- The end of an operation writes what is left in progress. -/
theorem conclude_putWait (w : Option Wait) (r : Ret Value) : (r.mapState (State.putWait w)).conclude = r.conclude := by
  cases r <;> rfl

theorem concludeBridge_putWait (w : Option Wait) (r : Ret Value) :
    concludeBridge (r.mapState (State.putWait w)) = concludeBridge r := by cases r <;> rfl

/-- A wait taken up is its operation begun with nothing in progress. -/
theorem step_of_resume {s : State} {w : Wait} {i : Instr} (hi : s.issue.head? ≠ some .reset) (hh : s.halted = false)
    (hw : s.wait = some w) (hres : resume w s = closing i (body i s)) (ha : accepts i (s.putWait none) = true)
    (hput : closing i (body i (s.putWait none)) = closing i (body i s)) : step s = exec i (s.putWait none) := by
  rw [step_of_wait hi hh hw, exec_of_accepts ha, hres, hput]

/-- The full write of NAT.TX, the line ready. -/
theorem natTx_sends (v : Wait) (p : List Octet) {s : State} {a : Turn} {rest : List Turn}
    (h : s.script = a :: {} :: rest) (hf : a.fail = false) (hr : a.reset = false)
    (hs : (s.sense ^^ decide (a.flips % 2 = 1)) = s.cfg.senseReady) :
    ∃ u, natTx v p s = .done (.num p.length) u ∧ u.wire = s.wire ++ nframeWire p ∧ u.nstate = .done ∧
      u.issue = s.issue ∧ u.halted = s.halted ∧ u.script = rest := by
  obtain ⟨u, hu, -, hus, huw, hhalted, hissue⟩ := natTx_ready v p (w := {}) h hf hr rfl hs
  have hfull : writeOut (nframeWire p) {} = .accepted (p.length + 2) := by
    rw [writeOut_ok rfl, length_nframeWire, Option.getD_none, Nat.min_self]
  rw [hfull, afterNatWrite_of_ge u (Nat.le_refl _)] at hu
  rw [hfull, WriteOut.count, List.take_of_length_le (Nat.le_of_eq (length_nframeWire p))] at huw
  exact ⟨_, hu, huw, rfl, hissue, hhalted, hus⟩

/-- Settles O35: the waits that no turn ends, and what takes them up. -/
theorem unboundedPollKeepsWaiting : Obligations.UnboundedPollKeepsWaiting := by
  refine ⟨fun s k hl hs hk => ⟨fun ha h => ?_, fun p ha h => ?_, fun p ps ha hm _ hn h => ?_⟩,
    fun s k ha hn hq hk h => ?_, fun s w k hw hh hi hk h => ⟨?_, fun hcase hl hs => ?_⟩,
    fun s hh hi hset => ⟨fun hw hm => ?_, fun p hw hm hp => ?_, fun hw => ?_⟩,
    fun s p a rest hw hh hi h hf hr hs => ?_⟩
  · obtain ⟨xs, hpoll⟩ := sensePoll_waiting .sense hl hs hk h
    have hexec := exec_of_accepts ha
    rw [body, hpoll] at hexec
    exact ⟨_, hexec, rfl, rfl, rfl, rfl, rfl⟩
  · obtain ⟨xs, htx⟩ := natTx_waiting (.natTx p) p hl hs hk h
    have hexec := exec_of_accepts ha
    rw [body, htx] at hexec
    exact ⟨_, hexec, rfl, rfl, rfl, rfl, rfl, rfl⟩
  · obtain ⟨xs, hstep⟩ := brgStep_net (rest := quiet (2 * k)) hn h
    obtain ⟨ys, hsend⟩ := bridgeSend_waiting
      (s := { s with netIn := ps, script := quiet (2 * k), trace := s.trace ++ xs }) hm p hl hs hk rfl
    have hexec := exec_of_accepts ha
    rw [body, hstep, hsend] at hexec
    exact ⟨_, hexec, rfl, rfl, rfl, rfl, rfl, rfl, rfl⟩
  · rw [exec_of_accepts ha, body, brgStep_waiting hn hq hk h]
    rfl
  · rintro rfl hn hq
    rw [step_of_wait hi hh hw, resume, brgStep_waiting (k := 2 * k) hn hq (by omega) h, concludeBridge, ← hw]
  · rw [step_of_wait hi hh hw]
    rcases hcase with rfl | ⟨p, rfl | rfl⟩
    · obtain ⟨xs, hpoll⟩ := sensePoll_waiting .sense hl hs hk h
      rw [resume, hpoll]
      exact ⟨_, rfl, rfl, rfl, rfl, rfl, rfl, rfl⟩
    · obtain ⟨xs, htx⟩ := natTx_waiting (.natTx p) p hl hs hk h
      rw [resume, htx]
      exact ⟨_, rfl, rfl, rfl, rfl, rfl, rfl, rfl⟩
    · obtain ⟨xs, htx⟩ := natTx_waiting (.brgTx p) p hl hs hk h
      rw [resume, htx]
      exact ⟨_, rfl, rfl, rfl, rfl, rfl, rfl, rfl⟩
  · exact step_of_resume hi hh hw (resume_sense s) (by simp [accepts, State.admits, State.remap, hset, hm])
      ((congrArg Ret.conclude (bind_mapState (sensePoll_putWait none s .sense) fun _ _ => rfl)).trans
        (conclude_putWait none (body .sensePoll s)))
  · exact step_of_resume hi hh hw (resume_natTx p s) (by simp [accepts, State.admits, State.remap, hset, hm, hp])
      ((congrArg Ret.conclude (natTx_putWait none s (.natTx p) p)).trans (conclude_putWait none _))
  · exact step_of_resume hi hh hw (resume_brgAny s) (by simp [accepts, State.admits, State.remap, hset])
      ((congrArg concludeBridge (brgStep_putWait none s)).trans (concludeBridge_putWait none _))
  · obtain ⟨u, hu, hwire, hst, hissue, hhalted, hscript⟩ := natTx_sends (.brgTx p) p h hf hr hs
    rw [step_of_wait hi hh hw, resume, hu]
    exact ⟨_, rfl, rfl, rfl, hwire, hst, hissue, hhalted.trans hh, hscript⟩

end Sys2Proof.Machine
end
